-- ==== Sys2Proof/Word.lean ====
section
/-! DEFINITION. The byte, the only unit of data of the block (R10, R51), and a block of bytes (R11, R14). -/

namespace Sys2Proof

/-- R10, R51: a byte, an unsigned integer 0 to 255; bit 7 is the most significant. -/
abbrev Byte := BitVec 8

/-- R11, R14: a block or stream, a finite sequence of bytes, index 0 first. -/
abbrev Block := List Byte

end Sys2Proof
end

