-- ==== Sys2Proof/Config.lean ====
section
/-! DEFINITION. What is fixed when the block is built: the constants of R7, the parameters of R8, and the free values
(constants without a body) that stand for what the spec leaves to `any value` (93_implementation_defined.md U4, U5). -/

namespace Sys2Proof

/-- R8, D6: what `DELTA.ENC` puts in output position 0. -/
inductive DeltaFirst where
  /-- `SELF`, the documented behaviour: the first byte minus itself, always 0. -/
  | self
  /-- `LITERAL`, the source's suggested repair: the original first byte. -/
  | literal
deriving DecidableEq, Repr

/-- R8, D7: when the full dictionary is cleared. -/
inductive DictClear where
  /-- `EAGER`: in the same step as the append that fills it. -/
  | eager
  /-- `LAZY`: at the next append that finds it full. -/
  | lazy
deriving DecidableEq, Repr

/-- R8: the parameters the source leaves open, with the value the spec decides as default. `none` is `unbounded`
(for `nMax`, `mMax`, `sizeW`) or `none` (for `base`). -/
structure Params where
  /-- `DELTA_FIRST`. -/
  deltaFirst : DeltaFirst := .self
  /-- `DICT_CLEAR`. -/
  dictClear : DictClear := .eager
  /-- `DICT_CAP`, legal from 1 to 256 (R9). -/
  dictCap : Nat := 256
  /-- `N_MAX`, the largest input block length. -/
  nMax : Option Nat := none
  /-- `M_MAX`, the largest output block length. -/
  mMax : Option Nat := none
  /-- `SIZE_W`, the width of the size and length registers. -/
  sizeW : Option Nat := none
  /-- `TAG_W`, the width of the strategy tag register, at least 3. -/
  tagW : Nat := 8
  /-- `BASE`, where a platform maps the registers; no rule depends on it (R63, U21). -/
  base : Option Nat := none
deriving DecidableEq, Repr

namespace Config

/-- R7 `SYM_W`: the width in bits of one symbol. -/
def symW : Nat := 8
/-- R7 `RUN_MAX`: the largest run length one RLE pair can carry. -/
def runMax : Nat := 255
/-- R7 `LIT_FLAG`: the high bit of a dictionary code byte, set on a literal. -/
def litFlag : Byte := 0x80#8
/-- R7 `LIT_MASK`: the mask the decoder applies to a literal code. -/
def litMask : Byte := 0x7F#8
/-- R7 `GATE`: the entropy threshold, 4.0 bits per symbol. -/
def gate : Rat := 4
/-- R7 `HYB_DEFAULT`: the default of the hybrid-enable flag. -/
def hybDefault : Bool := true
/-- R7 `ACC_DEFAULT`: the default of the acceleration flag. -/
def accDefault : Bool := false

/-- A free bit for each draw (U4: the gate `G` on an unspecified `H_IN`; U5: one-bit call-scoped registers). -/
opaque freeBit : Nat → Bool
/-- A free byte for each draw (U5: eight-bit call-scoped registers). -/
opaque freeByte : Nat → Byte
/-- A free natural number for each draw (U5: cursors and positions; a register given a number wider than
it is, notes/assumptions/6.md). -/
opaque freeNat : Nat → Nat
/-- A free byte sequence for each draw (U5: call-scoped buffers). -/
opaque freeBlock : Nat → Block

end Config

end Sys2Proof
end

