-- ==== Sys2Proof/Syntax.lean ====
section
/-! DEFINITION. The commands of `QPAC-OPS` (R74), one constructor per row of spec/opcode_table.json, the fields of a
command word (R73) and the five strategies a tag names (R71). -/

namespace Sys2Proof

/-- R74: the twelve commands. -/
inductive Instr where
  /-- `RAW.ENC` (0x00), R190. -/
  | rawEnc
  /-- `RLE.ENC` (0x01), R101. -/
  | rleEnc
  /-- `DICT.ENC` (0x02), R145. -/
  | dictEnc
  /-- `DELTA.ENC` (0x03), R121. -/
  | deltaEnc
  /-- `HYB.ENC` (0x04), R171. -/
  | hybEnc
  /-- `COMPRESS` (0x07, 0x17, 0x27, 0x37), R198, with its two flags (R75). -/
  | compress (hyb acc : Bool)
  /-- `RAW.DEC` (0x08), R191. -/
  | rawDec
  /-- `RLE.DEC` (0x09), R105. -/
  | rleDec
  /-- `DICT.DEC` (0x0A), R149. -/
  | dictDec
  /-- `DELTA.DEC` (0x0B), R125. -/
  | deltaDec
  /-- `HYB.DEC` (0x0C), R176. -/
  | hybDec
  /-- `DECOMPRESS` (0x0F), R210. -/
  | decompress
deriving DecidableEq, Repr

/-- R73: the fields of the 8-bit command word. -/
structure CmdFields where
  /-- bits 7:6, reserved. -/
  rsv : BitVec 2
  /-- bit 5, the acceleration flag. -/
  acc : Bool
  /-- bit 4, the hybrid-enable flag. -/
  hyb : Bool
  /-- bit 3: false is the encode direction, true the decode direction. -/
  dir : Bool
  /-- bits 2:0: a codec by its strategy tag (0 to 4), or the selector (7). -/
  sel : BitVec 3
deriving DecidableEq, Repr

/-- R71: the five strategies. -/
inductive Strategy where
  | raw
  | rle
  | dict
  | delta
  | hybrid
deriving DecidableEq, Repr

/-- R75, R88: `COMPRESS` with no flags written takes the source's defaults. -/
def Instr.compressDefault : Instr := .compress Config.hybDefault Config.accDefault

end Sys2Proof
end

