-- ==== Sys2Proof/WellFormed.lean ====
section
/-! DEFINITION. Which fields make a legal command word (R73, R74, R76). Every term of `Instr` is well formed, since its
flags are Booleans and only `compress` carries them; the checks are on the fields of a word. -/

namespace Sys2Proof

/-- R73: the reserved bits must be 0. -/
def CmdFields.reservedOk (f : CmdFields) : Bool := f.rsv == 0#2

/-- R73: `sel` 5 and 6 are reserved. -/
def CmdFields.selectorOk (f : CmdFields) : Bool := !(f.sel == 5#3 || f.sel == 6#3)

/-- R73: `acc` and `hyb` are legal only in `COMPRESS` (`sel` = 7, `dir` = 0). -/
def CmdFields.flagsOk (f : CmdFields) : Bool := (f.sel == 7#3 && !f.dir) || !(f.acc || f.hyb)

/-- R74, R76: the fields of one of the fifteen legal words. -/
def CmdFields.wf (f : CmdFields) : Bool := f.reservedOk && f.selectorOk && f.flagsOk

/-- R74: the fields of each command's word. -/
def Instr.fields : Instr → CmdFields
  | .rawEnc => ⟨0, false, false, false, 0⟩
  | .rleEnc => ⟨0, false, false, false, 1⟩
  | .dictEnc => ⟨0, false, false, false, 2⟩
  | .deltaEnc => ⟨0, false, false, false, 3⟩
  | .hybEnc => ⟨0, false, false, false, 4⟩
  | .compress hyb acc => ⟨0, acc, hyb, false, 7⟩
  | .rawDec => ⟨0, false, false, true, 0⟩
  | .rleDec => ⟨0, false, false, true, 1⟩
  | .dictDec => ⟨0, false, false, true, 2⟩
  | .deltaDec => ⟨0, false, false, true, 3⟩
  | .hybDec => ⟨0, false, false, true, 4⟩
  | .decompress => ⟨0, false, false, true, 7⟩

/-- A command is well formed when the fields of its word are. -/
def Instr.wf (i : Instr) : Bool := i.fields.wf

end Sys2Proof
end

