-- ==== Sys2Proof/Decode.lean ====
section
/-! DEFINITION. The command word (R73 to R76) decoded and encoded, and the strategy tag (R71) decoded and encoded. Each
command word is one byte (R89). -/

namespace Sys2Proof

/-- Why a word is none of the fifteen legal ones (R74, R76). All three are `IllegalCommand` to the host (R236). -/
inductive DecodeError where
  /-- bits 7:6 are not 0. -/
  | reservedBits
  /-- `sel` is 5 or 6. -/
  | reservedSelector
  /-- `hyb` or `acc` is set on a command that is not `COMPRESS`. -/
  | flagOutsideCompress
deriving DecidableEq, Repr

/-- What the decoder reads from a word: a command, or a rejection with its reason. -/
inductive DecodeResult where
  | command (i : Instr)
  | illegal (why : DecodeError)
deriving DecidableEq, Repr

/-- The command of a decoding, if it is one. -/
def DecodeResult.toOption : DecodeResult → Option Instr
  | .command i => some i
  | .illegal _ => none

/-- R73: the fields of a word. -/
def fieldsOf (c : Byte) : CmdFields where
  rsv := c.extractLsb' 6 2
  acc := c.getLsbD 5
  hyb := c.getLsbD 4
  dir := c.getLsbD 3
  sel := c.extractLsb' 0 3

/-- R74: the command that `sel` and `dir` name (the flags are those of the word). -/
def commandOf (f : CmdFields) : Option Instr :=
  match f.sel.toNat, f.dir with
  | 0, false => some .rawEnc
  | 1, false => some .rleEnc
  | 2, false => some .dictEnc
  | 3, false => some .deltaEnc
  | 4, false => some .hybEnc
  | 7, false => some (.compress f.hyb f.acc)
  | 0, true => some .rawDec
  | 1, true => some .rleDec
  | 2, true => some .dictDec
  | 3, true => some .deltaDec
  | 4, true => some .hybDec
  | 7, true => some .decompress
  | _, _ => none

/-- R74: the decoder of command words, its tests in the rule's order. -/
def decode (c : Byte) : DecodeResult :=
  let f := fieldsOf c
  if f.reservedOk then
    match commandOf f with
    | none => .illegal .reservedSelector
    | some i => if f.flagsOk then .command i else .illegal .flagOutsideCompress
  else .illegal .reservedBits

/-- R73: the word of five fields. -/
def wordOf (f : CmdFields) : Byte :=
  f.rsv ++ BitVec.ofBool f.acc ++ BitVec.ofBool f.hyb ++ BitVec.ofBool f.dir ++ f.sel

/-- R74: the word of a command. -/
def encode (i : Instr) : Byte := wordOf i.fields

/-- The word that `w` gives in `nbits` bits, the bits above them 0; a command word is the lowest byte. -/
def tableWord (nbits w : Nat) : Nat := w % 2 ^ nbits

/-- The command the decoder reads from `w`, none where it refuses or where `w` does not fit a command word. -/
def decodeTableWord (nbits w : Nat) : Option Instr :=
  if tableWord nbits w < 256 then (decode (BitVec.ofNat 8 (tableWord nbits w))).toOption else none

/-- R71: the integer of each strategy. -/
def tagOf : Strategy → Nat
  | .raw => 0
  | .rle => 1
  | .dict => 2
  | .delta => 3
  | .hybrid => 4

/-- R71, R213: the strategy of a tag; the tags from 5 on name none. -/
def strategyOf (t : Nat) : Option Strategy :=
  match t with
  | 0 => some .raw
  | 1 => some .rle
  | 2 => some .dict
  | 3 => some .delta
  | 4 => some .hybrid
  | _ => none

end Sys2Proof
end

