-- ==== Sys2Proof/Machine/State.lean ====
section
/-! DEFINITION. The state of the block as plain data: every host-visible register and buffer of R20 and R46, the
call-scoped registers of R32 to R38, the build-time parameters (R8), and the host's remaining moves (R42, R60). The
lengths `IN_LEN`, `OUT_LEN`, `DICT_LEN`, `BEST_LEN`, `CAND_LEN` are the lengths of the sequences they count
(`State.inLen` and the others in Machine/Ops.lean), since no byte at or above them exists for any rule (R25, R26, R32). -/

namespace Sys2Proof.Machine

/-- R30: a cause register. -/
structure Cause where
  /-- `KIND`: an error code, 0 when no cause is recorded. -/
  kind : Byte
  /-- `POS`, `SIZE_W` wide: the index of the failing code byte in the stream being dictionary-decoded. -/
  pos : Nat
  /-- `IDX`: the failing code byte's value (or the tag, or the command word: R241). -/
  idx : Byte
  /-- `DLEN`: `DICT_LEN` at the moment of failure. -/
  dlen : BitVec 9
deriving DecidableEq, Repr

/-- R241: a cleared cause register. -/
def Cause.zero : Cause := ⟨0, 0, 0, 0⟩

/-- R35: the registers of the RLE encoder. -/
structure RunRegs where
  /-- `RUN_ACTIVE`. -/
  active : Bool
  /-- `RUN_VAL`. -/
  val : Byte
  /-- `RUN_CNT`. -/
  cnt : Byte
deriving DecidableEq, Repr

/-- R35: the registers of the RLE decoder. -/
structure PairRegs where
  /-- `PAIR_PHASE`: false before a value byte, true before a length byte. -/
  phase : Bool
  /-- `PAIR_VAL`. -/
  val : Byte
deriving DecidableEq, Repr

/-- R35: the registers of the delta encoder and decoder. -/
structure DeltaRegs where
  /-- `FIRST`. -/
  first : Bool
  /-- `PREV`. -/
  prev : Byte
  /-- `ACC`. -/
  acc : Byte
deriving DecidableEq, Repr

/-- R36 (iv): the attempt register of the trial decode. -/
inductive Attempt where
  | a
  | b
deriving DecidableEq, Repr

/-- R36 (iii): the positions of the candidate sequencer, in evaluation order (R199). -/
inductive Candidate where
  | raw
  | rle
  | delta
  | dict
  | hybrid
deriving DecidableEq, Repr

/-- R37: the selector's registers. -/
structure SelectorRegs where
  /-- The candidate sequencer (R36). -/
  sequencer : Candidate
  /-- `BEST_TAG`, `TAG_W` wide. -/
  bestTag : Nat
  /-- `BEST_BUF`; its length is `BEST_LEN`. -/
  bestBuf : Block
  /-- `CAND_BUF`; its length is `CAND_LEN`. -/
  candBuf : Block
  /-- The gate bit `G`. -/
  gate : Bool
deriving DecidableEq, Repr

/-- R38: the hybrid registers. -/
structure HybridRegs where
  /-- `ATTEMPT`. -/
  attempt : Attempt
  /-- `T_BUF`, the stream between two stages. -/
  tBuf : Block
  /-- `A_BUF`, the output of pipeline (a). -/
  aBuf : Block
  /-- `B_BUF`, the output of pipeline (b). -/
  bBuf : Block
  /-- The saved copy of attempt (a)'s cause. -/
  savedCause : Cause
deriving DecidableEq, Repr

/-- R20, R32 to R38: the call-scoped registers. They exist while one command executes, the command initialises what it
uses, and the host cannot read them. -/
structure CallScoped where
  /-- `DICT_MEM[0 .. DICT_LEN)`: the slots in use; `DICT_LEN` is its length (R32). -/
  dictMem : Block
  run : RunRegs
  pair : PairRegs
  delta : DeltaRegs
  /-- `RD`, the read cursor, `SIZE_W` wide (R36). -/
  rd : Nat
  selector : SelectorRegs
  hybrid : HybridRegs
deriving DecidableEq, Repr

/-- R42, R88: the host's moves. -/
inductive HostMove where
  /-- `host_load(s)`. -/
  | load (bytes : Block)
  /-- `host_set_tag(t)`. -/
  | setTag (t : Byte)
  /-- `host_set_sizes(o, c)`. -/
  | setSizes (o c : Nat)
  /-- `host_set_entropy(h)`: the external estimator presents a number on `H_IN`. -/
  | setEntropy (h : Rat)
  /-- `host_issue(c)`: write the word `c` to `CMD`. -/
  | issue (c : Byte)
  /-- `host_read()`. -/
  | read
  /-- `host_reset()`. -/
  | reset
  /-- R88 `MOVE`: `host_read` of `OUT`, then `host_load` of the same bytes. -/
  | moveOutToIn
deriving DecidableEq, Repr

/-- R20: the state. -/
structure State where
  /-- R8: the parameters, fixed when the block is built; no step changes them. -/
  cfg : Params
  /-- R42, R60: the host's remaining moves, the next one first (the host's own state, not the block's). -/
  program : List HostMove
  /-- The number of free values drawn so far (the model's own counter, 93_implementation_defined.md U4 and U5). -/
  draws : Nat
  /-- `CMD` (R27): the last word issued; the host cannot read it. -/
  cmd : Byte
  /-- `IN[0 .. IN_LEN)` (R25). -/
  inBuf : Block
  /-- `IN_VALID` (R25). -/
  inValid : Bool
  /-- `OUT[0 .. OUT_LEN)` (R26). -/
  outBuf : Block
  /-- `H_IN` (R28), in bits per symbol. -/
  hIn : Rat
  /-- Whether `H_IN` was presented for the block now in `IN` (the model's own bit; false where U4 gives `any value`). -/
  hInCurrent : Bool
  /-- `ST` (R29): 0 IDLE, 1 BUSY, 2 DONE, 3 ERROR. -/
  st : BitVec 2
  /-- `ERR` (R30). -/
  err : Byte
  /-- `CAUSE_A` (R30). -/
  causeA : Cause
  /-- `CAUSE_B` (R30). -/
  causeB : Cause
  /-- `REC_STRATEGY` (R24), `TAG_W` wide. -/
  recStrategy : Nat
  /-- `REC_ORIG_SIZE` (R24), `SIZE_W` wide. -/
  recOrigSize : Nat
  /-- `REC_COMP_SIZE` (R24), `SIZE_W` wide. -/
  recCompSize : Nat
  /-- The call-scoped registers (R20). -/
  callScoped : CallScoped
deriving DecidableEq, Repr

/-- The machine stops with a fault: never. Every error of the block ends one command and is a next state whose `ST`,
`ERR` and cause registers report it (R230, R240), so this type has no constructor. Safe: no claim can rest on a fault. -/
inductive Fault where
deriving DecidableEq, Repr

/-- Why the model gives a step no result at all. -/
inductive Refusal where
  /-- Raised by an arm of `exec` that has no meaning yet; no arm does. Safe. -/
  | notModelled (mnemonic : String)
  /-- Raised by every command and every host move of a block whose parameters are outside R8 and R9: no such block is
  specified (U12, refuse). Safe: the model stops. -/
  | illegalParameters
  /-- Raised by a command one of whose streams, whole or as far as it had come when an error was raised, would exceed `M_MAX` (R64, U7, refuse). Safe: the model stops. -/
  | outputOverMMax
  /-- Raised by `host_load` and `MOVE` of more than `N_MAX` bytes (R64, U7, refuse). Safe: the model stops. -/
  | loadOverNMax
  /-- Raised by `MOVE` when `ST` is not `DONE` (R88). Safe: the model stops. -/
  | moveBeforeDone
deriving DecidableEq, Repr

/-- The call-scoped registers right after reset. R41 leaves them unspecified and no behaviour depends on them: DESIGN
CHOICE zero (notes/assumptions/4.md), unsafe. -/
def CallScoped.reset : CallScoped where
  dictMem := []
  run := ⟨false, 0, 0⟩
  pair := ⟨false, 0⟩
  delta := ⟨false, 0, 0⟩
  rd := 0
  selector := ⟨.raw, 0, [], [], false⟩
  hybrid := ⟨.a, [], [], [], Cause.zero⟩

/-- R41, R260: the state after reset, of a block built with the default parameters. `CMD`, `H_IN` and the call-scoped
registers have no reset value in the spec: DESIGN CHOICE zero (notes/assumptions/4.md), unsafe; `draws` and
`hInCurrent` are the model's own. The host has no move pending (notes/assumptions/1.md). -/
def State.reset : State where
  cfg := {}
  program := []
  draws := 0
  cmd := 0
  inBuf := []
  inValid := false
  outBuf := []
  hIn := 0
  hInCurrent := false
  st := 0
  err := 0
  causeA := Cause.zero
  causeB := Cause.zero
  recStrategy := 0
  recOrigSize := 0
  recCompSize := 0
  callScoped := CallScoped.reset

end Sys2Proof.Machine
end

