-- ==== Sys2Proof/Machine/Flags.lean ====
section
/-! DEFINITION. The block has no arithmetic condition codes (R31). The one-bit quantities that steer behaviour and are
computed from data are here: the literal flag of a dictionary code byte (R79 to R81) and the gate (R28, R194). -/

namespace Sys2Proof.Machine

/-- R79, R81: the literal flag `F`, bit 7 of a code byte. -/
def isLiteral (e : Byte) : Bool := e.getLsbD 7

/-- R80: the code byte of a novel byte. -/
def literalCode (b : Byte) : Byte := Config.litFlag ||| b

/-- R81: the value of a literal code byte. -/
def literalValue (e : Byte) : Byte := e &&& Config.litMask

/-- R80, R146: the code byte of the slot at index `i`, the index as a plain byte. -/
def indexCode (i : Nat) : Byte := BitVec.ofNat 8 i

/-- R194: the gate on a presented entropy, a strict comparison with 4.0. -/
def gateOpen (h : Rat) : Bool := decide (h < Config.gate)

/-- R28, R42: the numbers the environment may present on `H_IN`. -/
def entropyInRange (h : Rat) : Bool := decide (0 ≤ h) && decide (h ≤ 8)

end Sys2Proof.Machine
end

