-- ==== Sys2Proof/Machine/Operands.lean ====
section
/-! DEFINITION. The operands of the commands (R40): the input block, the gate formed from `H_IN`, and the strategy in
`REC_STRATEGY`. The two flags of `COMPRESS` are operands of its constructor. -/

namespace Sys2Proof.Machine

/-- R25, R232: `x = IN[0 .. IN_LEN)`, absent when no block has been loaded since reset. -/
def inputBlock (s : State) : Option Block :=
  if s.inValid then some s.inBuf else none

/-- R28, R194: the gate bit `G`. On an `H_IN` that is unspecified (after reset), stale, or outside [0, 8], `G` is a free
bit (U4). -/
def gateOperand (s : State) : Bool :=
  if s.hInCurrent && entropyInRange s.hIn then gateOpen s.hIn else Config.freeBit s.draws

/-- R210, R213: the strategy that `REC_STRATEGY` names, none from 5 on. -/
def strategyOperand (s : State) : Option Strategy := strategyOf s.recStrategy

end Sys2Proof.Machine
end

