-- ==== Sys2Proof/Machine/Ops.lean ====
section
/-! DEFINITION. The shared operations: the legality and capacity checks (R8, R9, R64), the byte spaces (R50, R66), the
error entry (R240) and the success exit (R242), the call-scoped state discarded (R34, R240), and the one operation that
runs a command on its input block (R243). There is no return from an error (R245): a failed command is over. -/

namespace Sys2Proof.Machine

open Host (Outcome)

/-! ### Parameters and capacity -/

/-- R8: `SIZE_W` holds every length up to `N_MAX` and `M_MAX`, or is unbounded. -/
def sizeWidthOk (p : Params) : Bool :=
  match p.sizeW, p.nMax, p.mMax with
  | none, _, _ => true
  | some w, some n, some m => decide (max n m < 2 ^ w)
  | some _, _, _ => false

/-- R8, R9: the parameters describe a block. -/
def Params.legal (p : Params) : Bool :=
  decide (1 ≤ p.dictCap) && decide (p.dictCap ≤ 256) && sizeWidthOk p && decide (3 ≤ p.tagW)

/-- A length is at most a limit; `none` is unbounded. -/
def atMost (limit : Option Nat) (n : Nat) : Bool :=
  match limit with
  | none => true
  | some m => decide (n ≤ m)

/-- R64: a block the host may load. -/
def fitsIn (p : Params) (x : Block) : Bool := atMost p.nMax x.length

/-- R64: a stream a command can produce. -/
def fitsOut (p : Params) (x : Block) : Bool := atMost p.mMax x.length

/-- R24: a number that a register of width `SIZE_W` holds. -/
def fitsSize (p : Params) (n : Nat) : Bool :=
  match p.sizeW with
  | none => true
  | some w => decide (n < 2 ^ w)

/-- R24: a number that a register of width `TAG_W` holds. -/
def fitsTag (p : Params) (n : Nat) : Bool := decide (n < 2 ^ p.tagW)

/-! ### Byte spaces -/

/-- R50: the byte-indexed spaces, each separate from the others. -/
inductive Space where
  | inBuf
  | outBuf
  | dictMem
  | tBuf
  | aBuf
  | bBuf
  | candBuf
  | bestBuf
deriving DecidableEq, Repr

/-- R50: what a space holds. -/
def State.space (s : State) : Space → Block
  | .inBuf => s.inBuf
  | .outBuf => s.outBuf
  | .dictMem => s.callScoped.dictMem
  | .tBuf => s.callScoped.hybrid.tBuf
  | .aBuf => s.callScoped.hybrid.aBuf
  | .bBuf => s.callScoped.hybrid.bBuf
  | .candBuf => s.callScoped.selector.candBuf
  | .bestBuf => s.callScoped.selector.bestBuf

/-- R50: the capacity of a space; `none` is unbounded. -/
def capacityOf (p : Params) : Space → Option Nat
  | .inBuf => p.nMax
  | .dictMem => some p.dictCap
  | .outBuf | .tBuf | .aBuf | .bBuf | .candBuf | .bestBuf => p.mMax

/-- R25: `IN_LEN`. -/
def State.inLen (s : State) : Nat := s.inBuf.length
/-- R26: `OUT_LEN`. -/
def State.outLen (s : State) : Nat := s.outBuf.length
/-- R32: `DICT_LEN`. -/
def CallScoped.dictLen (r : CallScoped) : Nat := r.dictMem.length
/-- R37: `BEST_LEN`. -/
def SelectorRegs.bestLen (r : SelectorRegs) : Nat := r.bestBuf.length
/-- R37: `CAND_LEN`. -/
def SelectorRegs.candLen (r : SelectorRegs) : Nat := r.candBuf.length

/-- R66 `MemRead(S, a, 1)`: the byte at index `a`; at or beyond the length no byte exists. -/
def memRead (space : Block) (a : Nat) : Option Byte := space[a]?

/-- R66: an index below a space's capacity. -/
def belowCapacity (capacity : Option Nat) (a : Nat) : Bool :=
  match capacity with
  | none => true
  | some c => decide (a < c)

/-- R66 `MemWrite(S, a, 1, v)`, for an index below the capacity of `S`: below the length it replaces, at the length it
appends; elsewhere it is undefined. -/
def memWrite (capacity : Option Nat) (space : Block) (a : Nat) (v : Byte) : Option Block :=
  if belowCapacity capacity a then
    if a < space.length then some (space.set a v)
    else if a = space.length then some (space ++ [v])
    else none
  else none

/-- A space as (index, byte) pairs from index `a` on. -/
def cellsFrom (a : Nat) : Block → List Host.Cell
  | [] => []
  | b :: bs => (a, b) :: cellsFrom (a + 1) bs

/-- R50: a space as (index, byte) pairs. -/
def cells (space : Block) : List Host.Cell := cellsFrom 0 space

/-- The canonical form of a list of cells: addresses strictly rising. -/
def Memory.wf : List Host.Cell → Bool
  | c :: d :: rest => decide (c.1 < d.1) && Memory.wf (d :: rest)
  | _ => true

/-! ### Error codes and status -/

/-- R29 `ST` = `IDLE`. -/
def stIdle : BitVec 2 := 0
/-- R29 `ST` = `BUSY`, never observable (U14). -/
def stBusy : BitVec 2 := 1
/-- R29 `ST` = `DONE`. -/
def stDone : BitVec 2 := 2
/-- R29 `ST` = `ERROR`. -/
def stError : BitVec 2 := 3

/-- R87, R231: the errors. -/
inductive ErrorKind where
  | invalidInput
  | invalidDictionaryIndex
  | hybridDecodeFailure
  | unknownStrategy
  | illegalCommand
deriving DecidableEq, Repr

/-- R87, R231: the code of each error. -/
def errorCode : ErrorKind → Byte
  | .invalidInput => 1
  | .invalidDictionaryIndex => 2
  | .hybridDecodeFailure => 3
  | .unknownStrategy => 4
  | .illegalCommand => 5

/-- R233, R241: the cause of a failing dictionary code `e` at position `pos` with `dlen` slots in use. -/
def indexCause (pos : Nat) (e : Byte) (dlen : Nat) : Cause :=
  ⟨errorCode .invalidDictionaryIndex, pos, e, BitVec.ofNat 9 dlen⟩

/-- R235, R241: the cause of an unknown tag; `IDX` has 8 bits (R30). -/
def tagCause (t : Nat) : Cause := ⟨errorCode .unknownStrategy, 0, BitVec.ofNat 8 t, 0⟩

/-- R236, R241: the cause of an illegal command word. -/
def wordCause (c : Byte) : Cause := ⟨errorCode .illegalCommand, 0, c, 0⟩

/-! ### The end of a command -/

/-- R240: the error entry. -/
def errorEntry (k : ErrorKind) (a b : Cause) (s : State) : State :=
  { s with outBuf := [], err := errorCode k, causeA := a, causeB := b, st := stError }

/-- R242: the success exit. -/
def successExit (out : Block) (s : State) : State :=
  { s with outBuf := out, err := 0, causeA := Cause.zero, causeB := Cause.zero, st := stDone }

/-- R198 step 5, R202: `COMPRESS` writes the record registers. -/
def writeRecord (t : Strategy) (orig comp : Nat) (s : State) : State :=
  { s with recStrategy := tagOf t, recOrigSize := orig, recCompSize := comp }

/-- A free candidate-sequencer position. -/
def freeCandidate (n : Nat) : Candidate :=
  match Config.freeNat n % 5 with
  | 0 => .raw
  | 1 => .rle
  | 2 => .delta
  | 3 => .dict
  | _ => .hybrid

/-- A free number that a register of width `SIZE_W` holds (R24, R36). -/
def freeSize (p : Params) (n : Nat) : Nat :=
  match p.sizeW with
  | none => Config.freeNat n
  | some w => Config.freeNat n % 2 ^ w

/-- A free number that a register of width `TAG_W` holds (R24, R37). -/
def freeTag (p : Params) (n : Nat) : Nat := Config.freeNat n % 2 ^ p.tagW

/-- Free contents of a space, within its capacity (R50). -/
def freeSpace (p : Params) (k : Space) (n : Nat) : Block :=
  match capacityOf p k with
  | none => Config.freeBlock n
  | some c => (Config.freeBlock n).take c

/-- A free cause: `KIND` is an error code and `DLEN` at most `DICT_CAP` (R30, R46). -/
def freeCause (p : Params) (n : Nat) : Cause :=
  ⟨BitVec.ofNat 8 (Config.freeNat n % 6), freeSize p (n + 1), Config.freeByte (n + 2),
    BitVec.ofNat 9 (Config.freeNat (n + 3) % (p.dictCap + 1))⟩

/-- U5: call-scoped registers of any value within their widths and capacities, from the draws numbered `n` on. -/
def freeCallScoped (p : Params) (n : Nat) : CallScoped where
  dictMem := freeSpace p .dictMem n
  run := ⟨Config.freeBit (n + 1), Config.freeByte (n + 2), Config.freeByte (n + 3)⟩
  pair := ⟨Config.freeBit (n + 4), Config.freeByte (n + 5)⟩
  delta := ⟨Config.freeBit (n + 6), Config.freeByte (n + 7), Config.freeByte (n + 8)⟩
  rd := freeSize p (n + 9)
  selector := ⟨freeCandidate (n + 10), freeTag p (n + 11), freeSpace p .bestBuf (n + 12),
    freeSpace p .candBuf (n + 13), Config.freeBit (n + 14)⟩
  hybrid := ⟨if Config.freeBit (n + 15) then .a else .b, freeSpace p .tBuf (n + 16), freeSpace p .aBuf (n + 17),
    freeSpace p .bBuf (n + 18), freeCause p (n + 19)⟩

/-- R34, R240, U5: a command that ran a function discards its call-scoped state, which then has any value. Draw number
`draws` is the gate's (`gateOperand`). -/
def discardCallScoped (s : State) : State :=
  { s with callScoped := freeCallScoped s.cfg (s.draws + 1), draws := s.draws + 24 }

/-! ### Running a command -/

/-- What the function of a command gives (R12, R243 step 4). -/
inductive CommandResult where
  /-- An output sequence. -/
  | output (out : Block)
  /-- `COMPRESS`: the record (R21); its sizes are those of the input and of the payload. -/
  | record (t : Strategy) (orig : Nat) (payload : Block)
  /-- An error, with its causes. -/
  | failed (k : ErrorKind) (a b : Cause)
  /-- A stream longer than `M_MAX` (R64). -/
  | tooLong
deriving DecidableEq, Repr

/-- R64: a result whose streams, given by their lengths, must all fit `M_MAX`. -/
def bounded (p : Params) (lengths : List Nat) (r : CommandResult) : CommandResult :=
  if lengths.all (atMost p.mMax) then r else .tooLong

/-- R240, R242, R64: how a command ends. -/
def finish (r : CommandResult) (s : State) : Outcome State Fault Refusal :=
  match r with
  | .output out => .next (successExit out s)
  | .record t orig payload => .next (writeRecord t orig payload.length (successExit payload s))
  | .failed k a b => .next (errorEntry k a b s)
  | .tooLong => .refused .outputOverMMax

/-- R243 steps 3 and 4: a command reads its input block, runs its function `f` and ends. -/
def runCommand (f : Block → CommandResult) (s : State) : Outcome State Fault Refusal :=
  if Params.legal s.cfg then
    match inputBlock s with
    | none => .next (errorEntry .invalidInput Cause.zero Cause.zero s)
    | some x => finish (f x) (discardCallScoped s)
  else .refused .illegalParameters

end Sys2Proof.Machine
end

