-- ==== Sys2Proof/Machine/Delta.lean ====
section
/-! DEFINITION. `DELTA.ENC` (R121) and `DELTA.DEC` (R125). Arithmetic is modulo 256 (R127). -/

namespace Sys2Proof.Machine

open Host (Outcome)

/-- R121, R122: the first slot. -/
def firstSlot (d : DeltaFirst) (b : Byte) : Byte :=
  match d with
  | .self => b - b
  | .literal => b

/-- R121, positions 1 and above: each byte less the one before it. -/
def differences (prev : Byte) : Block → Block
  | [] => []
  | b :: bs => (b - prev) :: differences b bs

/-- R121: delta encode. -/
def deltaEnc (d : DeltaFirst) : Block → Block
  | [] => []
  | b :: bs => firstSlot d b :: differences b bs

/-- R125, positions 1 and above: the output byte before it plus each code byte. -/
def runningSums (acc : Byte) : Block → Block
  | [] => []
  | e :: es => (acc + e) :: runningSums (acc + e) es

/-- R125: delta decode. -/
def deltaDec : Block → Block
  | [] => []
  | e :: es => e :: runningSums e es

/-- What `DELTA.ENC` gives. -/
def deltaEncResult (p : Params) (x : Block) : CommandResult :=
  bounded p [(deltaEnc p.deltaFirst x).length] (.output (deltaEnc p.deltaFirst x))

/-- What `DELTA.DEC` gives. -/
def deltaDecResult (p : Params) (x : Block) : CommandResult := bounded p [(deltaDec x).length] (.output (deltaDec x))

/-- R121: `DELTA.ENC`. -/
def execDeltaEnc (s : State) : Outcome State Fault Refusal := runCommand (deltaEncResult s.cfg) s

/-- R125: `DELTA.DEC`. -/
def execDeltaDec (s : State) : Outcome State Fault Refusal := runCommand (deltaDecResult s.cfg) s

end Sys2Proof.Machine
end

