-- ==== Sys2Proof/Machine/Dictionary.lean ====
section
/-! DEFINITION. The dictionary look-up table (R141 to R143), `DICT.ENC` (R145) and `DICT.DEC` (R149). A table is
`DICT_MEM[0 .. DICT_LEN)`, the bytes in the slots in use, slot 0 first (R32). -/

namespace Sys2Proof.Machine

open Host (Outcome)

/-- R141 `LOOKUP(b)`: the lowest index that holds `b`, or absent. -/
def lookup (b : Byte) (table : Block) : Option Nat := table.idxOf? b

/-- R142 `FETCH(i)`: the byte in slot `i`, absent when the bound check of R150 fails (`i >= DICT_LEN`). -/
def fetch (i : Nat) (table : Block) : Option Byte := memRead table i

/-- R143: `LAZY` clears a table that an earlier append filled. -/
def clearBefore (p : Params) (table : Block) : Block :=
  if p.dictClear = .lazy ∧ table.length = p.dictCap then [] else table

/-- R143: `EAGER` clears a table that this append filled. -/
def clearAfter (p : Params) (table : Block) : Block :=
  if p.dictClear = .eager ∧ table.length = p.dictCap then [] else table

/-- R143 `APPEND(v)`, with the clear-on-full test. -/
def append (p : Params) (v : Byte) (table : Block) : Block := clearAfter p (clearBefore p table ++ [v])

/-- R145, R147: one symbol of the encoder: the code emitted and the table after it. -/
def dictEncSymbol (p : Params) (table : Block) (b : Byte) : Byte × Block :=
  match lookup b table with
  | some i => (indexCode i, table)
  | none => (literalCode b, append p b table)

/-- R145: the encoder from a table on. -/
def dictEncFrom (p : Params) : Block → Block → Block
  | _, [] => []
  | table, b :: bs =>
    (dictEncSymbol p table b).1 :: dictEncFrom p (dictEncSymbol p table b).2 bs

/-- R145: dictionary encode, from the empty table. -/
def dictEnc (p : Params) (x : Block) : Block := dictEncFrom p [] x

/-- What a dictionary decode gives: a sequence, or the cause of `InvalidDictionaryIndex`. -/
inductive Decoded where
  | ok (out : Block)
  | raised (c : Cause)
deriving DecidableEq, Repr

/-- A decode that first emits `v`. When it raises, nothing it emitted is part of a result (R152). -/
def Decoded.emit (v : Byte) : Decoded → Decoded
  | .ok out => .ok (v :: out)
  | .raised c => .raised c

/-- R149, R151: one symbol of the decoder: the byte emitted and the table after it, or absent on a failing index. -/
def dictDecSymbol (p : Params) (table : Block) (e : Byte) : Option (Byte × Block) :=
  if isLiteral e then some (literalValue e, append p (literalValue e) table)
  else (fetch e.toNat table).map fun v => (v, table)

/-- R149: the decoder from position `pos` and a table on. -/
def dictDecFrom (p : Params) : Nat → Block → Block → Decoded
  | _, _, [] => .ok []
  | pos, table, e :: es =>
    match dictDecSymbol p table e with
    | some (v, table') => (dictDecFrom p (pos + 1) table' es).emit v
    | none => .raised (indexCause pos e table.length)

/-- R149: dictionary decode, from position 0 and the empty table. -/
def dictDec (p : Params) (y : Block) : Decoded := dictDecFrom p 0 [] y

/-- What `DICT.ENC` gives. -/
def dictEncResult (p : Params) (x : Block) : CommandResult := bounded p [(dictEnc p x).length] (.output (dictEnc p x))

/-- R64: how many bytes the decode wrote: all of its output, or one for each code before the failing one. -/
def Decoded.written : Decoded → Nat
  | .ok out => out.length
  | .raised c => c.pos

/-- What `DICT.DEC` gives (R233 on a failing index). -/
def dictDecResult (p : Params) (y : Block) : CommandResult :=
  bounded p [(dictDec p y).written]
    (match dictDec p y with
    | .ok out => .output out
    | .raised c => .failed .invalidDictionaryIndex c Cause.zero)

/-- R145: `DICT.ENC`. -/
def execDictEnc (s : State) : Outcome State Fault Refusal := runCommand (dictEncResult s.cfg) s

/-- R149: `DICT.DEC`. -/
def execDictDec (s : State) : Outcome State Fault Refusal := runCommand (dictDecResult s.cfg) s

end Sys2Proof.Machine
end

