-- ==== Sys2Proof/Machine/Rle.lean ====
section
/-! DEFINITION. `RLE.ENC` (R101) and `RLE.DEC` (R105). -/

namespace Sys2Proof.Machine

open Host (Outcome)

/-- R101, the inner loop: how many of the first `limit` bytes of `x` come before the first one that differs from `v`. -/
def runAhead (v : Byte) (limit : Nat) (x : Block) : Nat := ((x.take limit).takeWhile (· == v)).length

/-- R101, the outer loop, at most `fuel` pairs. -/
def rleLoop : Nat → Block → Block
  | 0, _ => []
  | _ + 1, [] => []
  | fuel + 1, v :: rest =>
    let more := runAhead v (Config.runMax - 1) rest
    v :: BitVec.ofNat 8 (1 + more) :: rleLoop fuel (rest.drop more)

/-- R101: run-length encode. A block of `n` bytes has at most `n` runs. -/
def rleEnc (x : Block) : Block := rleLoop x.length x

/-- R105, R106: run-length decode; an unpaired last byte is ignored. -/
def rleDec : Block → Block
  | v :: c :: rest => List.replicate c.toNat v ++ rleDec rest
  | _ => []

/-- What `RLE.ENC` gives. -/
def rleEncResult (p : Params) (x : Block) : CommandResult := bounded p [(rleEnc x).length] (.output (rleEnc x))

/-- What `RLE.DEC` gives. -/
def rleDecResult (p : Params) (x : Block) : CommandResult := bounded p [(rleDec x).length] (.output (rleDec x))

/-- R101: `RLE.ENC`. -/
def execRleEnc (s : State) : Outcome State Fault Refusal := runCommand (rleEncResult s.cfg) s

/-- R105: `RLE.DEC`. -/
def execRleDec (s : State) : Outcome State Fault Refusal := runCommand (rleDecResult s.cfg) s

end Sys2Proof.Machine
end

