-- ==== Sys2Proof/Machine/Hybrid.lean ====
section
/-! DEFINITION. The hybrid composer `HYB.ENC` (R171) and the trial-decode arbiter `HYB.DEC` (R176). -/

namespace Sys2Proof.Machine

open Host (Outcome)

/-- R172 `PIPE_A`: RLE, then dictionary. -/
def pipeA (p : Params) (x : Block) : Block := dictEnc p (rleEnc x)

/-- R172 `PIPE_B`: dictionary, then RLE. -/
def pipeB (p : Params) (x : Block) : Block := rleEnc (dictEnc p x)

/-- R171, R173: the not-longer of the two pipelines, ties to (a). -/
def hybEnc (p : Params) (x : Block) : Block :=
  if (pipeA p x).length ≤ (pipeB p x).length then pipeA p x else pipeB p x

/-- R64: the lengths of the streams `HYB.ENC` produces, intermediate ones included. -/
def hybEncLengths (p : Params) (x : Block) : List Nat :=
  [(rleEnc x).length, (pipeA p x).length, (dictEnc p x).length, (pipeB p x).length]

/-- R176: what the arbiter gives: a sequence, or the causes of both attempts. -/
inductive HybDecoded where
  | ok (out : Block)
  | failed (a b : Cause)
deriving DecidableEq, Repr

/-- R176: the trial decode: attempt (a), and on `InvalidDictionaryIndex` attempt (b). -/
def hybDec (p : Params) (y : Block) : HybDecoded :=
  match dictDec p y with
  | .ok t => .ok (rleDec t)
  | .raised a =>
    match dictDec p (rleDec y) with
    | .ok out => .ok out
    | .raised b => .failed a b

/-- R64: the lengths of the streams `HYB.DEC` produces; a stream that an attempt was building when it raised counts as
far as it had come. -/
def hybDecLengths (p : Params) (y : Block) : List Nat :=
  match dictDec p y with
  | .ok t => [t.length, (rleDec t).length]
  | .raised a => [a.pos, (rleDec y).length, (dictDec p (rleDec y)).written]

/-- What `HYB.ENC` gives. -/
def hybEncResult (p : Params) (x : Block) : CommandResult := bounded p (hybEncLengths p x) (.output (hybEnc p x))

/-- What `HYB.DEC` gives (R234 when both attempts fail). -/
def hybDecResult (p : Params) (y : Block) : CommandResult :=
  bounded p (hybDecLengths p y)
    (match hybDec p y with
    | .ok out => .output out
    | .failed a b => .failed .hybridDecodeFailure a b)

/-- R171: `HYB.ENC`. -/
def execHybEnc (s : State) : Outcome State Fault Refusal := runCommand (hybEncResult s.cfg) s

/-- R176: `HYB.DEC`. -/
def execHybDec (s : State) : Outcome State Fault Refusal := runCommand (hybDecResult s.cfg) s

end Sys2Proof.Machine
end

