-- ==== Sys2Proof/Machine/Selector.lean ====
section
/-! DEFINITION. `RAW.ENC` (R190), `RAW.DEC` (R191), `COMPRESS` (R198) and `DECOMPRESS` (R210). -/

namespace Sys2Proof.Machine

open Host (Outcome)

/-- R190: identity. -/
def rawEnc (x : Block) : Block := x

/-- R191: identity. -/
def rawDec (y : Block) : Block := y

/-- What `RAW.ENC` gives. -/
def rawEncResult (p : Params) (x : Block) : CommandResult := bounded p [(rawEnc x).length] (.output (rawEnc x))

/-- What `RAW.DEC` gives. -/
def rawDecResult (p : Params) (y : Block) : CommandResult := bounded p [(rawDec y).length] (.output (rawDec y))

/-- R15: a candidate, one strategy's payload for the block being compressed; also `BEST_TAG` with `BEST_BUF`. -/
structure Choice where
  strategy : Strategy
  payload : Block
deriving DecidableEq, Repr

/-- R199, R200: the candidates that are present, in evaluation order, after RAW. -/
def laterCandidates (p : Params) (hyb gate : Bool) (x : Block) : List Choice :=
  [⟨.rle, rleEnc x⟩] ++ (if gate then [⟨.delta, deltaEnc p.deltaFirst x⟩] else []) ++ [⟨.dict, dictEnc p x⟩] ++
    (if hyb then [⟨.hybrid, hybEnc p x⟩] else [])

/-- R199: every candidate that is present, RAW first. -/
def candidates (p : Params) (hyb gate : Bool) (x : Block) : List Choice :=
  ⟨.raw, x⟩ :: laterCandidates p hyb gate x

/-- R198 step 4, R201: a candidate replaces the best only when strictly smaller. -/
def keepSmaller (best c : Choice) : Choice := if c.payload.length < best.payload.length then c else best

/-- R198: the running best, RAW at the start, over the later candidates. -/
def select (p : Params) (hyb gate : Bool) (x : Block) : Choice :=
  (laterCandidates p hyb gate x).foldl keepSmaller ⟨.raw, x⟩

/-- R64: the lengths of the streams `COMPRESS` produces: every candidate present, and the streams of the hybrid one. -/
def compressLengths (p : Params) (hyb gate : Bool) (x : Block) : List Nat :=
  (candidates p hyb gate x).map (·.payload.length) ++ (if hyb then hybEncLengths p x else [])

/-- What `COMPRESS` gives: the record of the winner (R202). -/
def compressResult (p : Params) (hyb gate : Bool) (x : Block) : CommandResult :=
  bounded p (compressLengths p hyb gate x)
    (.record (select p hyb gate x).strategy x.length (select p hyb gate x).payload)

/-- R210, R213: the decoder of each strategy. -/
def decoderResult (p : Params) (t : Strategy) (y : Block) : CommandResult :=
  match t with
  | .raw => rawDecResult p y
  | .rle => rleDecResult p y
  | .dict => dictDecResult p y
  | .delta => deltaDecResult p y
  | .hybrid => hybDecResult p y

/-- R190: `RAW.ENC`. -/
def execRawEnc (s : State) : Outcome State Fault Refusal := runCommand (rawEncResult s.cfg) s

/-- R191: `RAW.DEC`. -/
def execRawDec (s : State) : Outcome State Fault Refusal := runCommand (rawDecResult s.cfg) s

/-- R198: `COMPRESS`. The acceleration flag has no effect on any state of the block (R75, R193). -/
def execCompress (hyb _acc : Bool) (s : State) : Outcome State Fault Refusal :=
  runCommand (compressResult s.cfg hyb (gateOperand s)) s

/-- R210, R212: `DECOMPRESS`: the tag first, then the input block, then the decoder. -/
def execDecompress (s : State) : Outcome State Fault Refusal :=
  if Params.legal s.cfg then
    match strategyOperand s with
    | none => .next (errorEntry .unknownStrategy (tagCause s.recStrategy) Cause.zero s)
    | some t => runCommand (decoderResult s.cfg t) s
  else .refused .illegalParameters

end Sys2Proof.Machine
end

