-- ==== Sys2Proof/Machine/Dispatch.lean ====
section
/-! DEFINITION. The meaning of each command, one arm per constructor of `Instr` (R74). -/

namespace Sys2Proof.Machine

open Host (Outcome)

def exec (i : Instr) (s : State) : Host.Outcome State Fault Refusal :=
  match i with
  | .rawEnc => Sys2Proof.Machine.execRawEnc s
  | .rleEnc => Sys2Proof.Machine.execRleEnc s
  | .dictEnc => Sys2Proof.Machine.execDictEnc s
  | .deltaEnc => Sys2Proof.Machine.execDeltaEnc s
  | .hybEnc => Sys2Proof.Machine.execHybEnc s
  | .compress hyb acc => Sys2Proof.Machine.execCompress hyb acc s
  | .rawDec => Sys2Proof.Machine.execRawDec s
  | .rleDec => Sys2Proof.Machine.execRleDec s
  | .dictDec => Sys2Proof.Machine.execDictDec s
  | .deltaDec => Sys2Proof.Machine.execDeltaDec s
  | .hybDec => Sys2Proof.Machine.execHybDec s
  | .decompress => Sys2Proof.Machine.execDecompress s

end Sys2Proof.Machine
end

