-- ==== Sys2Proof/Machine/HostMoves.lean ====
section
/-! DEFINITION. The host's side of the block (R42): what each move does, the view `host_read` gives, and the fetching of
the host's next move. Host moves happen between commands only, each command being one indivisible step (R45). -/

namespace Sys2Proof.Machine

open Host (Outcome)

/-- R42 `host_read()`, R46: what the host can read. Reading changes nothing (R58). -/
structure HostView where
  st : BitVec 2
  err : Byte
  causeA : Cause
  causeB : Cause
  recStrategy : Nat
  recOrigSize : Nat
  recCompSize : Nat
  outLen : Nat
  out : Block
  inLen : Nat
deriving DecidableEq, Repr

/-- R42: `host_read()`. -/
def hostRead (s : State) : HostView :=
  ⟨s.st, s.err, s.causeA, s.causeB, s.recStrategy, s.recOrigSize, s.recCompSize, s.outLen, s.outBuf, s.inLen⟩

/-- R42 `host_load(s)`: the loaded block. An `H_IN` presented before is then stale (U4). -/
def loadBlock (x : Block) (s : State) : State := { s with inBuf := x, inValid := true, hInCurrent := false }

/-- R24, R42: what `REC_STRATEGY` holds once given `t`. The rules state no value for a `t` that `TAG_W` bits cannot hold:
DESIGN CHOICE, a free value (notes/assumptions/6.md). -/
def tagValue (p : Params) (n : Nat) (t : Byte) : Nat := if fitsTag p t.toNat then t.toNat else freeTag p n

/-- R24, R42: what a size register holds once given `size`. The rules state no value for one that `SIZE_W` bits cannot
hold: DESIGN CHOICE, a free value (notes/assumptions/6.md). -/
def sizeValue (p : Params) (n size : Nat) : Nat := if fitsSize p size then size else freeSize p n

/-- R42: `host_set_tag(t)`. -/
def setTag (t : Byte) (s : State) : State :=
  { s with recStrategy := tagValue s.cfg s.draws t, draws := s.draws + 1 }

/-- R42: `host_set_sizes(o, c)`. -/
def setSizes (o c : Nat) (s : State) : State :=
  { s with
    recOrigSize := sizeValue s.cfg s.draws o, recCompSize := sizeValue s.cfg (s.draws + 1) c, draws := s.draws + 2 }

/-- R42: `host_set_entropy(h)`. -/
def setEntropy (h : Rat) (s : State) : State := { s with hIn := h, hInCurrent := true }

/-- R41, R260: `host_reset()`. The parameters are fixed when the block is built (R261); the host's remaining moves and
the count of draws are not the block's. -/
def hostReset (s : State) : State :=
  { State.reset with cfg := s.cfg, program := s.program, draws := s.draws }

/-- R27: the word written to `CMD`. -/
def writeCmd (c : Byte) (s : State) : State := { s with cmd := c }

/-- R64: a host load that must fit `N_MAX`. -/
def hostLoad (x : Block) (s : State) : Outcome State Fault Refusal :=
  if fitsIn s.cfg x then .next (loadBlock x s) else .refused .loadOverNMax

/-- R76, R236: an illegal word is not executed; it raises `IllegalCommand`. -/
def illegalWord (c : Byte) (s : State) : State := errorEntry .illegalCommand (wordCause c) Cause.zero s

/-- R27, R45, R243: `host_issue(c)`: the command executes to completion. -/
def hostIssue (c : Byte) (s : State) : Outcome State Fault Refusal :=
  match decode c with
  | .command i => exec i (writeCmd c s)
  | .illegal _ => .next (illegalWord c (writeCmd c s))

/-- R42, R88: the effect of a move on a block whose parameters are legal. -/
def performLegal (m : HostMove) (s : State) : Outcome State Fault Refusal :=
  match m with
  | .load x => hostLoad x s
  | .setTag t => .next (setTag t s)
  | .setSizes o c => .next (setSizes o c s)
  | .setEntropy h => .next (setEntropy h s)
  | .issue c => hostIssue c s
  | .read => .next s
  | .reset => .next (hostReset s)
  | .moveOutToIn => if s.st = stDone then hostLoad s.outBuf s else .refused .moveBeforeDone

/-- R42: the effect of a move; a block outside the legal parameters is not specified (R9, U12). -/
def perform (m : HostMove) (s : State) : Outcome State Fault Refusal :=
  if Params.legal s.cfg then performLegal m s else .refused .illegalParameters

/-- The host's remaining moves replaced. -/
def withProgram (ms : List HostMove) (s : State) : State := { s with program := ms }

/-- R60: the host's next move, and the state once it is taken. -/
def nextMove (s : State) : Option (HostMove × State) :=
  match s.program with
  | [] => none
  | m :: rest => some (m, withProgram rest s)

/-- The state with a command word placed as the host's next move. -/
def placeWord (c : Byte) (s : State) : State := withProgram (.issue c :: s.program) s

end Sys2Proof.Machine
end

