-- ==== Sys2Proof/Machine/Step.lean ====
section
/-! DEFINITION. One step: the host's next move, a command being one indivisible step (R42, R45, R60). -/

namespace Sys2Proof.Machine

/-- R60: one step performs the host's next move; with none pending nothing changes (notes/assumptions/1.md). -/
def step (s : State) : Host.Outcome State Fault Refusal :=
  match nextMove s with
  | none => .next s
  | some (m, s') => perform m s'

/-- `s` with the command word `w` as the host's next move, so that the next step issues it. -/
def State.withFetchWord (s : State) (nbits w : Nat) : State :=
  placeWord (BitVec.ofNat 8 (tableWord nbits w)) s

end Sys2Proof.Machine
end

