-- ==== Sys2Proof/Machine/Datapath.lean ====
section
/-! DEFINITION. The per-symbol state machines of the codec files (R102, R107, R123, R126, R147, R151): a refinement of
the operation-level functions that `exec` runs (R6). Each takes its call-scoped registers holding any value, initialises
what it uses, and consumes one input byte per step. -/

namespace Sys2Proof.Machine

/-- A machine fed the bytes of `x` in order: the registers at the end and all it emitted. -/
def feed {ρ : Type} (onByte : ρ → Byte → ρ × Block) : ρ → Block → ρ × Block
  | r, [] => (r, [])
  | r, b :: bs =>
    ((feed onByte (onByte r b).1 bs).1, (onByte r b).2 ++ (feed onByte (onByte r b).1 bs).2)

/-- R102, start of block. -/
def rleEncStart (r : RunRegs) : RunRegs := { r with active := false }

/-- R102, on an input byte. -/
def rleEncByte (r : RunRegs) (b : Byte) : RunRegs × Block :=
  if r.active = false then (⟨true, b, 1⟩, [])
  else if b = r.val ∧ r.cnt < 255 then ({ r with cnt := r.cnt + 1 }, [])
  else ({ r with val := b, cnt := 1 }, [r.val, r.cnt])

/-- R102, end of block. -/
def rleEncEnd (r : RunRegs) : RunRegs × Block :=
  if r.active then ({ r with active := false }, [r.val, r.cnt]) else (r, [])

/-- R102: the RLE encoder machine over a block: its registers after the end of the block, and what it emits. -/
def rleEncMachine (r : RunRegs) (x : Block) : RunRegs × Block :=
  let fed := feed rleEncByte (rleEncStart r) x
  ((rleEncEnd fed.1).1, fed.2 ++ (rleEncEnd fed.1).2)

/-- R107, start of block. -/
def rleDecStart (r : PairRegs) : PairRegs := { r with phase := false }

/-- R107, on an input byte. -/
def rleDecByte (r : PairRegs) (e : Byte) : PairRegs × Block :=
  if r.phase = false then (⟨true, e⟩, [])
  else ({ r with phase := false }, List.replicate e.toNat r.val)

/-- R107, end of block: a pending value byte is dropped. -/
def rleDecEnd (r : PairRegs) : PairRegs := { r with phase := false }

/-- R107: the RLE decoder machine over a block: its registers after the end of the block, and what it emits. -/
def rleDecMachine (r : PairRegs) (y : Block) : PairRegs × Block :=
  let fed := feed rleDecByte (rleDecStart r) y
  (rleDecEnd fed.1, fed.2)

/-- R123, R126, start of block. -/
def deltaStart (r : DeltaRegs) : DeltaRegs := { r with first := true }

/-- R123, on an input byte. -/
def deltaEncByte (d : DeltaFirst) (r : DeltaRegs) (b : Byte) : DeltaRegs × Block :=
  if r.first then
    ({ r with first := false, prev := b }, [match d with | .self => 0 | .literal => b])
  else ({ r with prev := b }, [b - r.prev])

/-- R123: what the delta encoder machine emits. -/
def deltaEncMachine (d : DeltaFirst) (r : DeltaRegs) (x : Block) : Block := (feed (deltaEncByte d) (deltaStart r) x).2

/-- R126, on an input byte. -/
def deltaDecByte (r : DeltaRegs) (e : Byte) : DeltaRegs × Block :=
  if r.first then ({ r with first := false, acc := e }, [e])
  else ({ r with acc := r.acc + e }, [r.acc + e])

/-- R126: what the delta decoder machine emits. -/
def deltaDecMachine (r : DeltaRegs) (y : Block) : Block := (feed deltaDecByte (deltaStart r) y).2

/-- R147, on an input byte; the register is the table. -/
def dictEncByte (p : Params) (table : Block) (b : Byte) : Block × Block :=
  match lookup b table with
  | some i => (table, [indexCode i])
  | none => (append p b table, [literalCode b])

/-- R147: what the dictionary encoder machine emits; at the start of the block `DICT_LEN` becomes 0. -/
def dictEncMachine (p : Params) (x : Block) : Block := (feed (dictEncByte p) [] x).2

/-- R144, R147: the encoder's table after the bytes of `x`. -/
def encTable (p : Params) (x : Block) : Block := (feed (dictEncByte p) [] x).1

/-- R151: the registers of the dictionary decoder, with the read cursor `RD` (R36) and what it has emitted; `raised`
once an index has failed. -/
inductive DictDecRun where
  | running (table : Block) (rd : Nat) (out : Block)
  | raised (c : Cause)
deriving DecidableEq, Repr

/-- R151, on an input byte. -/
def dictDecByte (p : Params) (r : DictDecRun) (e : Byte) : DictDecRun :=
  match r with
  | .raised c => .raised c
  | .running table rd out =>
    if isLiteral e then .running (append p (literalValue e) table) (rd + 1) (out ++ [literalValue e])
    else if e.toNat < table.length then .running table (rd + 1) (out ++ [table.getD e.toNat 0])
    else .raised (indexCause rd e table.length)

/-- R151: the dictionary decoder machine run over the bytes of `y`, from `DICT_LEN` = 0. -/
def dictDecMachine (p : Params) (y : Block) : DictDecRun := y.foldl (dictDecByte p) (.running [] 0 [])

/-- R33: the states of the dictionary. -/
inductive DictState where
  | empty
  | partiallyFilled
  | fullPendingReset
deriving DecidableEq, Repr

/-- R33: the state of a table, by `DICT_LEN`. -/
def dictState (p : Params) (table : Block) : DictState :=
  if table.length = 0 then .empty else if table.length < p.dictCap then .partiallyFilled else .fullPendingReset

end Sys2Proof.Machine
end

