-- ==== Sys2Proof/Safety.lean ====
section
/-! DEFINITION. What counts as a safe state, and the terms the statements use: how a command completes or fails, what of
a command's outcome the host is given, the runs of a block, and the entropy contract of the external estimator. -/

namespace Sys2Proof.Safety

open Sys2Proof.Machine
open Host (Outcome)

/-! ### How a command ends -/

/-- A command is ready to run its function: the parameters are legal (R8, R9) and a block is loaded (R25). -/
def Ready (s : State) : Prop := Params.legal s.cfg = true ∧ s.inValid = true

/-- R242: command `i` completes from `s` with output `out`. `ST`, `ERR`, the cause registers and `OUT` are written, the
call-scoped state is discarded (some value), and every other field is as in `s`. -/
def CompletesWith (i : Instr) (s : State) (out : Block) : Prop :=
  ∃ cs d, exec i s = .next { s with
    outBuf := out, st := 2, err := 0, causeA := ⟨0, 0, 0, 0⟩, causeB := ⟨0, 0, 0, 0⟩, callScoped := cs, draws := d }

/-- R202: command `i` completes from `s` with a record and its payload; the three record registers are written too. -/
def CompletesWithRecord (i : Instr) (s : State) (tag : Nat) (payload : Block) : Prop :=
  ∃ cs d, exec i s = .next { s with
    recStrategy := tag, recOrigSize := s.inBuf.length, recCompSize := payload.length,
    outBuf := payload, st := 2, err := 0, causeA := ⟨0, 0, 0, 0⟩, causeB := ⟨0, 0, 0, 0⟩, callScoped := cs, draws := d }

/-- R240: command `i` ends from `s` in the error of code `k` with causes `a` and `b`; every field the rule calls
unchanged is as in `s`. -/
def FailsWith (i : Instr) (s : State) (k : Byte) (a b : Cause) : Prop :=
  ∃ cs d, exec i s = .next { s with
    outBuf := [], st := 3, err := k, causeA := a, causeB := b, callScoped := cs, draws := d }

/-- R40: what a command answers: its output or its error, and for a completed `COMPRESS` the record registers. -/
structure Answer where
  out : Block
  st : BitVec 2
  err : Byte
  causeA : Cause
  causeB : Cause
  record : Option (Nat × Nat × Nat)
deriving DecidableEq, Repr

/-- Whether a command is `COMPRESS`. -/
def isCompress : Instr → Bool
  | .compress _ _ => true
  | .rawEnc | .rleEnc | .dictEnc | .deltaEnc | .hybEnc => false
  | .rawDec | .rleDec | .dictDec | .deltaDec | .hybDec | .decompress => false

/-- R40: the answer in a next state, or the refusal. -/
def answerOf (i : Instr) : Outcome State Fault Refusal → Answer ⊕ Refusal
  | .next t => .inl ⟨t.outBuf, t.st, t.err, t.causeA, t.causeB,
      if isCompress i ∧ t.err = 0 then some (t.recStrategy, t.recOrigSize, t.recCompSize) else none⟩
  | .fault r => nomatch r
  | .refused r => .inr r

/-- R60: the effects of a sequence of host moves, in order. -/
def performAll : List HostMove → State → Outcome State Fault Refusal
  | [], s => .next s
  | m :: ms, s =>
    match perform m s with
    | .next t => performAll ms t
    | .fault r => .fault r
    | .refused r => .refused r

/-! ### Blocks and runs -/

/-- R15: a 7-bit sequence. -/
def SevenBit (x : Block) : Prop := ∀ b ∈ x, b.toNat < 128

/-- R14: the maximal runs of a block, in order. -/
def maximalRuns (x : Block) : List Block := x.splitBy (· == ·)

/-- `ceil(n / 255)`: the pairs that a run of `n` bytes yields (R103). -/
def pairsOfRun (n : Nat) : Nat := (n + 254) / 255

/-- R104: `P(x)`, the number of capped runs. -/
def pairCount (x : Block) : Nat := ((maximalRuns x).map fun r => pairsOfRun r.length).sum

/-- R103: the greedy split of a run of `n` bytes `v`: every pair but the last carries 255. -/
def greedyPairs (v : Byte) (n : Nat) : Block :=
  (List.replicate (pairsOfRun n - 1) [v, 255#8]).flatten ++ [v, BitVec.ofNat 8 (n - 255 * (pairsOfRun n - 1))]

/-- R77: the RLE stream of a list of (value, length) pairs. -/
def pairStream (ps : List (Byte × Byte)) : Block := ps.flatMap fun q => [q.1, q.2]

/-- R181: no run of a block is longer than `k`. -/
def RunsAtMost (k : Nat) (x : Block) : Prop := ∀ v : Byte, ¬ List.replicate (k + 1) v <:+: x

/-- R150, R151, R241: the dictionary decode of `y` fails with cause `c`: after the bytes `pre` the table holds `table`,
and the next code is an index not below its length. -/
def IndexFailsAt (p : Params) (y : Block) (c : Cause) : Prop :=
  ∃ pre e post table out, y = pre ++ e :: post ∧ dictDecMachine p pre = .running table pre.length out ∧
    e.toNat < 128 ∧ table.length ≤ e.toNat ∧ c = ⟨2, pre.length, e, BitVec.ofNat 9 table.length⟩

/-! ### The invariant -/

/-- R233, R241: a cause recorded for a failing dictionary index. -/
def IndexCauseOk (p : Params) (c : Cause) : Prop :=
  c.kind = 2 ∧ c.idx.toNat < 128 ∧ c.dlen.toNat ≤ c.idx.toNat ∧ c.dlen.toNat ≤ p.dictCap ∧ fitsSize p c.pos = true

/-- R231, R241: the causes that each error code leaves. -/
def CausesOk (p : Params) (err : Byte) (a b : Cause) : Prop :=
  (err = 1 ∧ a = Cause.zero ∧ b = Cause.zero) ∨
  (err = 2 ∧ IndexCauseOk p a ∧ b = Cause.zero) ∨
  (err = 3 ∧ IndexCauseOk p a ∧ IndexCauseOk p b) ∨
  (err = 4 ∧ (∃ t : Byte, 5 ≤ t.toNat ∧ a = ⟨4, 0, t, 0⟩) ∧ b = Cause.zero) ∨
  (err = 5 ∧ (∃ c : Byte, (decode c).toOption = none ∧ a = ⟨5, 0, c, 0⟩) ∧ b = Cause.zero)

/-- R29, R240 to R242: `ST`, `ERR`, the cause registers and `OUT_LEN` agree; `BUSY` is never seen. -/
def StatusOk (s : State) : Prop :=
  (s.st = 0 ∧ s.err = 0 ∧ s.causeA = Cause.zero ∧ s.causeB = Cause.zero ∧ s.outBuf = []) ∨
  (s.st = 2 ∧ s.err = 0 ∧ s.causeA = Cause.zero ∧ s.causeB = Cause.zero) ∨
  (s.st = 3 ∧ s.outBuf = [] ∧ CausesOk s.cfg s.err s.causeA s.causeB)

/-- What holds of the block at reset and after every step: the parameters are those of a specified block (R8, R9), the
status is coherent, an unloaded `IN` is empty (R25), every space is within its capacity (R50) and every register within
its width (R24, R36 to R38, R46). `REC_STRATEGY` never exceeds 255, since `host_set_tag` takes no more (R42). -/
structure Inv (s : State) : Prop where
  legal : Params.legal s.cfg = true
  status : StatusOk s
  unloaded : s.inValid = false → s.inBuf = []
  spaces : ∀ k : Space, atMost (capacityOf s.cfg k) (s.space k).length = true
  tagFits : fitsTag s.cfg s.recStrategy = true
  tagByte : s.recStrategy ≤ 255
  origFits : fitsSize s.cfg s.recOrigSize = true
  compFits : fitsSize s.cfg s.recCompSize = true
  rdFits : fitsSize s.cfg s.callScoped.rd = true
  bestTagFits : fitsTag s.cfg s.callScoped.selector.bestTag = true
  savedPosFits : fitsSize s.cfg s.callScoped.hybrid.savedCause.pos = true

/-! ### The external estimator's contract -/

/-- R192: `Entropy(x)`, in bits per symbol: the sum over the byte values that occur of `- p log2 p`. -/
noncomputable def entropy (x : Block) : ℝ :=
  ((List.range 256).map fun v =>
    - ((x.count (BitVec.ofNat 8 v) : ℝ) / x.length) *
      Real.logb 2 ((x.count (BitVec.ofNat 8 v) : ℝ) / x.length)).sum

/-- R28, R193: `H_IN` holds the entropy of the block in `IN`, within a tolerance. -/
def EstimatorHonest (tolerance : ℝ) (s : State) : Prop :=
  s.hInCurrent = true ∧ 0 ≤ s.hIn ∧ s.hIn ≤ 8 ∧ |(s.hIn : ℝ) - entropy s.inBuf| ≤ tolerance

/-! ### The laws of R285 -/

/-- R285: what the rules support, for every legal value of the parameters. -/
structure SupportedLaws : Prop where
  rle : ∀ x : Block, rleDec (rleEnc x) = x
  deltaSelf : ∀ (x : Block) (i : Nat) (b : Byte), x[i]? = some b →
    (deltaDec (deltaEnc .self x))[i]? = some (b - x.headD 0)
  deltaLiteral : ∀ x : Block, deltaDec (deltaEnc .literal x) = x
  dict : ∀ (p : Params) (x : Block), Params.legal p = true → (dictDec p (dictEnc p x) = .ok x ↔ SevenBit x)
  hybrid : ∀ (p : Params) (x : Block), Params.legal p = true → SevenBit x → RunsAtMost 127 x →
    hybDec p (hybEnc p x) = .ok x
  record : ∀ (s t : State) (hyb acc : Bool), exec (.compress hyb acc) s = .next t → t.st = 2 →
    (t.recStrategy = 0 ∨ t.recStrategy = 1 ∨ t.recStrategy = 4) ∧
    t.recCompSize = t.outLen ∧ t.outLen ≤ t.recOrigSize ∧ t.recOrigSize = s.inLen
  recordIndependent : ∀ (s : State) (hyb acc acc' : Bool) (h : Rat) (current : Bool),
    answerOf (.compress hyb acc) (exec (.compress hyb acc') { s with hIn := h, hInCurrent := current }) =
      answerOf (.compress hyb acc) (exec (.compress hyb acc) s)
  comesBack : ∀ (s t : State) (hyb acc : Bool), exec (.compress hyb acc) s = .next t → t.st = 2 →
    (t.recStrategy = 0 ∨ t.recStrategy = 1 ∨ hyb = false) →
    ∃ u, exec .decompress (loadBlock t.outBuf t) = .next u ∧ u.st = 2 ∧ u.outBuf = s.inBuf
  terminates : ∀ (i : Instr) (s : State), (∃ t, exec i s = .next t) ∨ ∃ r, exec i s = .refused r
  independent : ∀ (i : Instr) (s s' : State), s.cfg = s'.cfg → s.inBuf = s'.inBuf → s.inValid = s'.inValid →
    (i = .decompress → s.recStrategy = s'.recStrategy) → answerOf i (exec i s) = answerOf i (exec i s')

end Sys2Proof.Safety
end

