-- ==== Sys2Proof/Certificates/Slice0/Obligations.lean ====
section
/-! DEFINITION. The statements for the provers. Each docstring names the rule of spec/ that it formalises. Statements
about a codec function `F(x)` (R12) reach the machine through the completion statements, which say that the command
answers with exactly that function's value. -/

open Sys2Proof Sys2Proof.Machine Sys2Proof.Safety

/-! ### Encodings -/

/-- R74, R71, R213: each of the fifteen legal words decodes to its command, one word of each kind of illegality is
rejected, and the tag values 0 to 4 name the five strategies and the others none. -/
def Obligations.CommandWordsAndTagsAsTabled : Prop :=
  decode 0b00000000 = .command .rawEnc ∧ decode 0b00000001 = .command .rleEnc ∧
  decode 0b00000010 = .command .dictEnc ∧ decode 0b00000011 = .command .deltaEnc ∧
  decode 0b00000100 = .command .hybEnc ∧ decode 0b00000111 = .command (.compress false false) ∧
  decode 0b00010111 = .command (.compress true false) ∧ decode 0b00100111 = .command (.compress false true) ∧
  decode 0b00110111 = .command (.compress true true) ∧ decode 0b00001000 = .command .rawDec ∧
  decode 0b00001001 = .command .rleDec ∧ decode 0b00001010 = .command .dictDec ∧
  decode 0b00001011 = .command .deltaDec ∧ decode 0b00001100 = .command .hybDec ∧
  decode 0b00001111 = .command .decompress ∧
  decode 0b01000111 = .illegal .reservedBits ∧ decode 0b00000101 = .illegal .reservedSelector ∧
  decode 0b00011111 = .illegal .flagOutsideCompress ∧
  strategyOf 0 = some .raw ∧ strategyOf 1 = some .rle ∧ strategyOf 2 = some .dict ∧
  strategyOf 3 = some .delta ∧ strategyOf 4 = some .hybrid ∧
  (∀ t : Nat, strategyOf t = none ↔ 5 ≤ t) ∧ ∀ k : Strategy, strategyOf (tagOf k) = some k

/-- R73, R74: every command is well formed and its word decodes to it, and a word that decodes is its command's word. -/
def Obligations.DecodeAndEncodeAgree : Prop :=
  (∀ i : Instr, i.wf = true ∧ decode (encode i) = .command i) ∧
  ∀ (c : Byte) (i : Instr), decode c = .command i → encode i = c

/-- R76, R236: fifteen words are legal and 241 are not; a write of an illegal word executes nothing and writes only
`ST`, `ERR`, the cause registers and `OUT_LEN`. That `CMD` keeps the word is the model's reading
(notes/assumptions/13.md), and that the step takes the move from `program` is its choice (notes/assumptions/1.md). -/
def Obligations.IllegalWordRaisesIllegalCommand : Prop :=
  (∀ c : Byte, (∃ i, decode c = .command i) ↔
    c ∈ ([0x00, 0x01, 0x02, 0x03, 0x04, 0x07, 0x17, 0x27, 0x37, 0x08, 0x09, 0x0A, 0x0B, 0x0C, 0x0F] : List Byte)) ∧
  ((List.range 256).filter fun n => (decode (BitVec.ofNat 8 n)).toOption.isNone).length = 241 ∧
  ∀ (s : State) (c : Byte) (rest : List HostMove) (why : DecodeError),
    Params.legal s.cfg = true → s.program = .issue c :: rest → decode c = .illegal why →
    step s = .next { s with
      program := rest, cmd := c, outBuf := [], st := 3, err := 5, causeA := ⟨5, 0, c, 0⟩, causeB := ⟨0, 0, 0, 0⟩ }

/-! ### The step, the host's moves and reset -/

/-- R27, R45: when the host's next move writes a legal word to `CMD`, the step is the meaning of its command. That a step
takes the host's next move from `program` is the model's choice (notes/assumptions/1.md). -/
def Obligations.StepRunsIssuedCommand : Prop :=
  ∀ (s : State) (c : Byte) (rest : List HostMove) (i : Instr),
    Params.legal s.cfg = true → s.program = .issue c :: rest → decode c = .command i →
    step s = exec i { s with program := rest, cmd := c }

/-- R42, R88: each host move has the effect of its row, and only that one; `hInCurrent` is the model's own bit that
says whether `H_IN` was presented for the block in `IN` (notes/assumptions/3.md), a step with no move pending changes
nothing (the model's choice, notes/assumptions/1.md), and a tag or a size that its register cannot hold leaves there some
value that it can hold (the model's choice of a free value, notes/assumptions/6.md). `draws` counts the free values. -/
def Obligations.HostMovesHaveTheirEffects : Prop :=
  ∀ (s : State) (rest : List HostMove), Params.legal s.cfg = true →
    (∀ x, s.program = .load x :: rest → fitsIn s.cfg x = true →
      step s = .next { s with program := rest, inBuf := x, inValid := true, hInCurrent := false }) ∧
    (∀ t, s.program = .setTag t :: rest → ∃ v d,
      step s = .next { s with program := rest, recStrategy := v, draws := d } ∧ fitsTag s.cfg v = true ∧ v ≤ 255 ∧
      (fitsTag s.cfg t.toNat = true → v = t.toNat)) ∧
    (∀ o c, s.program = .setSizes o c :: rest → ∃ v w d,
      step s = .next { s with program := rest, recOrigSize := v, recCompSize := w, draws := d } ∧
      fitsSize s.cfg v = true ∧ fitsSize s.cfg w = true ∧
      (fitsSize s.cfg o = true → v = o) ∧ (fitsSize s.cfg c = true → w = c)) ∧
    (∀ h, s.program = .setEntropy h :: rest →
      step s = .next { s with program := rest, hIn := h, hInCurrent := true }) ∧
    (s.program = .read :: rest → step s = .next { s with program := rest }) ∧
    (s.program = .moveOutToIn :: rest → s.st = 2 → fitsIn s.cfg s.outBuf = true →
      step s = .next { s with program := rest, inBuf := s.outBuf, inValid := true, hInCurrent := false }) ∧
    (s.program = [] → step s = .next s)

/-- R9, R64, R88 and the model's choice of notes/assumptions/7.md: a move that the rules do not allow the host gives no
result: an over-long load, a `MOVE` before `ST` = `DONE`, and any command or move of a block whose parameters are outside
their legal range. -/
def Obligations.IllegalHostMovesAreRefused : Prop :=
  (∀ (s : State) (rest : List HostMove), Params.legal s.cfg = true →
    (∀ x, s.program = .load x :: rest → fitsIn s.cfg x = false → step s = .refused .loadOverNMax) ∧
    (s.program = .moveOutToIn :: rest → s.st ≠ 2 → step s = .refused .moveBeforeDone) ∧
    (s.program = .moveOutToIn :: rest → s.st = 2 → fitsIn s.cfg s.outBuf = false →
      step s = .refused .loadOverNMax)) ∧
  ∀ s : State, Params.legal s.cfg = false →
    (∀ i, exec i s = .refused .illegalParameters) ∧
    ∀ m rest, s.program = m :: rest → step s = .refused .illegalParameters

/-- R41, R260: `host_reset` from any state gives every register the value the rule states, and leaves the parameters
(R261) and the host's remaining moves (the model's choice, notes/assumptions/1.md); the state after reset has those values
too, and the default parameters (R8; that they stand in the state is the model's choice, notes/assumptions/2.md). -/
def Obligations.ResetGivesTheStatedValues : Prop :=
  (∀ (s : State) (rest : List HostMove), Params.legal s.cfg = true → s.program = .reset :: rest →
    ∃ t, step s = .next t ∧ t.program = rest ∧ t.cfg = s.cfg ∧
      t.st = 0 ∧ t.err = 0 ∧ t.causeA = ⟨0, 0, 0, 0⟩ ∧ t.causeB = ⟨0, 0, 0, 0⟩ ∧ t.inLen = 0 ∧ t.inValid = false ∧
      t.outLen = 0 ∧ t.recStrategy = 0 ∧ t.recOrigSize = 0 ∧ t.recCompSize = 0) ∧
  State.reset.st = 0 ∧ State.reset.err = 0 ∧ State.reset.causeA = ⟨0, 0, 0, 0⟩ ∧
  State.reset.causeB = ⟨0, 0, 0, 0⟩ ∧ State.reset.inLen = 0 ∧ State.reset.inValid = false ∧ State.reset.outLen = 0 ∧
  State.reset.recStrategy = 0 ∧ State.reset.recOrigSize = 0 ∧ State.reset.recCompSize = 0 ∧
  State.reset.cfg = ⟨.self, .eager, 256, none, none, none, 8, none⟩

/-- R263: the four examples of first commands after reset. -/
def Obligations.FirstCommandsAfterReset : Prop :=
  (∃ t, Host.Core.run core 1 { State.reset with program := [.issue 0x01] } = .next t ∧ t.st = 3 ∧ t.err = 1) ∧
  (∃ t, Host.Core.run core 1 { State.reset with program := [.issue 0x0F] } = .next t ∧ t.st = 3 ∧ t.err = 1) ∧
  (∃ t, Host.Core.run core 2 { State.reset with program := [.setTag 9, .issue 0x0F] } = .next t ∧
    t.st = 3 ∧ t.err = 4) ∧
  ∀ hyb acc, ∃ t,
    Host.Core.run core 2 { State.reset with program := [.load [], .issue (encode (.compress hyb acc))] } = .next t ∧
    t.st = 2 ∧ t.recStrategy = 0 ∧ t.recOrigSize = 0 ∧ t.recCompSize = 0 ∧ t.outLen = 0

/-- R60: the state after a sequence of host moves is the composition of the moves' effects in order, whatever moves
follow it in the host's program, which the model holds as a queue (notes/assumptions/1.md). -/
def Obligations.ProgramIsCompositionOfMoves : Prop :=
  ∀ (ms rest : List HostMove) (s : State),
    Host.Core.run core ms.length (withProgram (ms ++ rest) s) = performAll ms (withProgram rest s)

/-! ### The invariant -/

/-- The invariant holds right after reset: R41 for the values the rule states, and the model's choice of an empty table
among the call-scoped registers (notes/assumptions/4.md). -/
def Obligations.ResetSatisfiesInvariant : Prop := Inv State.reset

/-- R22, R24 to R26, R29 to R32, R46, R240 to R242: every step keeps the invariant: legal parameters, `ST` never `BUSY`,
`ERR` 0 to 5 with exactly the causes its code leaves, no output after an error, every space within its capacity (R50) and
every register within its width (R36 to R38). -/
def Obligations.EveryStepKeepsTheInvariant : Prop :=
  ∀ s t : State, Inv s → step s = .next t → Inv t

/-! ### Errors -/

/-- R232: with no block loaded since reset every command ends in `InvalidInput` with both causes cleared, `DECOMPRESS`
only when its tag is one of the five; nothing else changes. That the call-scoped registers, which no function has used,
stay as they are is the model's reading (notes/assumptions/5.md). -/
def Obligations.NoBlockRaisesInvalidInput : Prop :=
  ∀ (i : Instr) (s : State), Params.legal s.cfg = true → s.inValid = false →
    (i = .decompress → s.recStrategy ≤ 4) →
    exec i s = .next { s with
      outBuf := [], st := 3, err := 1, causeA := ⟨0, 0, 0, 0⟩, causeB := ⟨0, 0, 0, 0⟩ }

/-- R235: `DECOMPRESS` with a tag from 5 to 255 raises `UnknownStrategy` whether or not a block is loaded; no other
command raises it, and a record that `COMPRESS` wrote has a tag from 0 to 4. That the call-scoped registers stay as they
are is the model's reading (notes/assumptions/5.md). -/
def Obligations.UnknownTagRaisesUnknownStrategy : Prop :=
  (∀ s : State, Params.legal s.cfg = true → 5 ≤ s.recStrategy →
    exec .decompress s = .next { s with
      outBuf := [], st := 3, err := 4, causeA := ⟨4, 0, BitVec.ofNat 8 s.recStrategy, 0⟩,
      causeB := ⟨0, 0, 0, 0⟩ }) ∧
  (∀ (i : Instr) (s t : State), exec i s = .next t → t.err = 4 → i = .decompress ∧ 5 ≤ s.recStrategy) ∧
  ∀ (hyb acc : Bool) (s t : State), exec (.compress hyb acc) s = .next t → t.st = 2 → t.recStrategy ≤ 4

/-- R231, R233, R234: which commands end in which error, and exactly when. -/
def Obligations.ErrorsHaveTheirCauses : Prop :=
  ∀ (i : Instr) (s t : State), exec i s = .next t →
    (t.err = 0 ∨ t.err = 1 ∨ t.err = 2 ∨ t.err = 3 ∨ t.err = 4) ∧
    (t.err = 1 ↔ s.inValid = false ∧ ¬ (i = .decompress ∧ 5 ≤ s.recStrategy)) ∧
    (t.err = 2 ↔ s.inValid = true ∧ (i = .dictDec ∨ (i = .decompress ∧ s.recStrategy = 2)) ∧
      ∃ c, dictDec s.cfg s.inBuf = .raised c) ∧
    (t.err = 3 ↔ s.inValid = true ∧ (i = .hybDec ∨ (i = .decompress ∧ s.recStrategy = 4)) ∧
      (∃ a, dictDec s.cfg s.inBuf = .raised a) ∧ ∃ b, dictDec s.cfg (rleDec s.inBuf) = .raised b) ∧
    (t.err = 4 ↔ i = .decompress ∧ 5 ≤ s.recStrategy)

/-- R240: what an error does to the state: no output, `ST` = `ERROR`, the call-scoped state discarded, every register
the rule names unchanged; a `COMPRESS` can end in no other error than `InvalidInput`. That `CMD` keeps the word is the
model's reading (notes/assumptions/13.md), and that the step takes the move from `program` its choice
(notes/assumptions/1.md). -/
def Obligations.ErrorEntryChangesOnlyWhatItNames : Prop :=
  ∀ (s t : State) (c : Byte) (rest : List HostMove), s.program = .issue c :: rest → step s = .next t → t.err ≠ 0 →
    t = { s with
      program := rest, cmd := c, outBuf := [], st := 3, err := t.err, causeA := t.causeA, causeB := t.causeB,
      callScoped := t.callScoped, draws := t.draws } ∧
    ∀ hyb acc, decode c = .command (.compress hyb acc) → t.err = 1

/-- R242, R44: what a command that completes writes: `ERR` 0, both causes 0, `ST` = `DONE`, the output, and for
`COMPRESS` only the record registers; nothing else but the call-scoped state. That `CMD` keeps the word is the model's
reading (notes/assumptions/13.md), and that the step takes the move from `program` its choice (notes/assumptions/1.md). -/
def Obligations.SuccessExitChangesOnlyWhatItNames : Prop :=
  ∀ (s t : State) (c : Byte) (rest : List HostMove), s.program = .issue c :: rest → step s = .next t → t.err = 0 →
    t = { s with
      program := rest, cmd := c, outBuf := t.outBuf, st := 2, err := 0, causeA := ⟨0, 0, 0, 0⟩,
      causeB := ⟨0, 0, 0, 0⟩, recStrategy := t.recStrategy, recOrigSize := t.recOrigSize,
      recCompSize := t.recCompSize, callScoped := t.callScoped, draws := t.draws } ∧
    ((¬ ∃ hyb acc, decode c = .command (.compress hyb acc)) →
      t.recStrategy = s.recStrategy ∧ t.recOrigSize = s.recOrigSize ∧ t.recCompSize = s.recCompSize)

/-- R241: the contents of the cause registers, by the error that the command ended in. -/
def Obligations.CauseRegistersByError : Prop :=
  ∀ (s t : State) (c : Byte) (rest : List HostMove), s.program = .issue c :: rest → step s = .next t →
    (t.err = 0 → t.causeA = ⟨0, 0, 0, 0⟩ ∧ t.causeB = ⟨0, 0, 0, 0⟩) ∧
    (t.err = 1 → t.causeA = ⟨0, 0, 0, 0⟩ ∧ t.causeB = ⟨0, 0, 0, 0⟩) ∧
    (t.err = 2 → IndexFailsAt s.cfg s.inBuf t.causeA ∧ t.causeB = ⟨0, 0, 0, 0⟩) ∧
    (t.err = 3 → IndexFailsAt s.cfg s.inBuf t.causeA ∧ IndexFailsAt s.cfg (rleDec s.inBuf) t.causeB) ∧
    (t.err = 4 → t.causeA = ⟨4, 0, BitVec.ofNat 8 s.recStrategy, 0⟩ ∧ t.causeB = ⟨0, 0, 0, 0⟩) ∧
    (t.err = 5 → t.causeA = ⟨5, 0, c, 0⟩ ∧ t.causeB = ⟨0, 0, 0, 0⟩) ∧
    t.err.toNat ≤ 5

/-- R243: on a write of word `c` the first of the four conditions, in the rule's order, decides the error. -/
def Obligations.ChecksAreMadeInOrder : Prop :=
  ∀ (s : State) (c : Byte) (rest : List HostMove), Params.legal s.cfg = true → s.program = .issue c :: rest →
    (∀ why, decode c = .illegal why → ∃ t, step s = .next t ∧ t.err = 5) ∧
    ∀ i, decode c = .command i →
      (i = .decompress → 5 ≤ s.recStrategy → ∃ t, step s = .next t ∧ t.err = 4) ∧
      (¬ (i = .decompress ∧ 5 ≤ s.recStrategy) → s.inValid = false → ∃ t, step s = .next t ∧ t.err = 1) ∧
      (¬ (i = .decompress ∧ 5 ≤ s.recStrategy) → s.inValid = true →
        ∀ t, step s = .next t → t.err = 0 ∨ t.err = 2 ∨ t.err = 3)

/-- R40: the answer of a command is a function of the command, `IN`, `IN_VALID` and for `DECOMPRESS` the tag (with the
build-time parameters): it depends on no other register, on nothing an earlier command did, and not even on `H_IN`
(R205); the same command issued twice answers the same twice. -/
def Obligations.AnswersDependOnOperandsOnly : Prop :=
  (∀ (i : Instr) (s s' : State), s.cfg = s'.cfg → s.inBuf = s'.inBuf → s.inValid = s'.inValid →
    (i = .decompress → s.recStrategy = s'.recStrategy) →
    answerOf i (exec i s) = answerOf i (exec i s')) ∧
  ∀ (i : Instr) (s t : State), exec i s = .next t → answerOf i (exec i t) = answerOf i (exec i s)

/-- R64: with a finite `M_MAX`, a command whose output or one of whose intermediate streams would be longer gives no
result at all, rather than a truncated output or an error; for the trial decode this holds in attempt (a) too, and a
decode that raises counts with the bytes it had written. Which streams count is read by inference
(notes/assumptions/8.md). -/
def Obligations.StreamOverMMaxIsRefused : Prop :=
  ∀ s : State, Ready s →
    (fitsOut s.cfg s.inBuf = false →
      exec .rawEnc s = .refused .outputOverMMax ∧ exec .rawDec s = .refused .outputOverMMax ∧
      exec .deltaEnc s = .refused .outputOverMMax ∧ exec .deltaDec s = .refused .outputOverMMax ∧
      exec .dictEnc s = .refused .outputOverMMax ∧ exec .hybEnc s = .refused .outputOverMMax ∧
      ∀ hyb acc, exec (.compress hyb acc) s = .refused .outputOverMMax) ∧
    (fitsOut s.cfg (rleEnc s.inBuf) = false →
      exec .rleEnc s = .refused .outputOverMMax ∧ exec .hybEnc s = .refused .outputOverMMax ∧
      ∀ hyb acc, exec (.compress hyb acc) s = .refused .outputOverMMax) ∧
    (fitsOut s.cfg (rleEnc (dictEnc s.cfg s.inBuf)) = false → exec .hybEnc s = .refused .outputOverMMax ∧
      ∀ acc, exec (.compress true acc) s = .refused .outputOverMMax) ∧
    (fitsOut s.cfg (rleDec s.inBuf) = false → exec .rleDec s = .refused .outputOverMMax) ∧
    (∀ out, dictDec s.cfg s.inBuf = .ok out → fitsOut s.cfg out = false →
      exec .dictDec s = .refused .outputOverMMax ∧ exec .hybDec s = .refused .outputOverMMax) ∧
    (∀ out, dictDec s.cfg s.inBuf = .ok out → fitsOut s.cfg (rleDec out) = false →
      exec .hybDec s = .refused .outputOverMMax) ∧
    (∀ a, dictDec s.cfg s.inBuf = .raised a → atMost s.cfg.mMax a.pos = false →
      exec .dictDec s = .refused .outputOverMMax ∧ exec .hybDec s = .refused .outputOverMMax) ∧
    (∀ a, dictDec s.cfg s.inBuf = .raised a → fitsOut s.cfg (rleDec s.inBuf) = false →
      exec .hybDec s = .refused .outputOverMMax)

/-! ### RAW and RLE -/

/-- R190, R191: `RAW.ENC` and `RAW.DEC` are the identity on any loaded block, and `InvalidInput` without one. -/
def Obligations.RawCommandsAreIdentity : Prop :=
  encode .rawEnc = 0x00 ∧ encode .rawDec = 0x08 ∧
  (∀ s : State, Ready s → fitsOut s.cfg s.inBuf = true →
    CompletesWith .rawEnc s s.inBuf ∧ CompletesWith .rawDec s s.inBuf) ∧
  ∀ s : State, Params.legal s.cfg = true → s.inValid = false →
    FailsWith .rawEnc s 1 ⟨0, 0, 0, 0⟩ ⟨0, 0, 0, 0⟩ ∧ FailsWith .rawDec s 1 ⟨0, 0, 0, 0⟩ ⟨0, 0, 0, 0⟩

/-- R101: `RLE.ENC` completes with the run-length coding of the block: a first run of `n` equal bytes, stopped by 255, by
a different byte or by the end of the block, gives the pair (value, `n`) and the coding goes on after it. -/
def Obligations.RleEncCutsRuns : Prop :=
  encode .rleEnc = 0x01 ∧
  (∀ s : State, Ready s → fitsOut s.cfg (rleEnc s.inBuf) = true → CompletesWith .rleEnc s (rleEnc s.inBuf)) ∧
  (∀ s : State, Params.legal s.cfg = true → s.inValid = false →
    FailsWith .rleEnc s 1 ⟨0, 0, 0, 0⟩ ⟨0, 0, 0, 0⟩) ∧
  rleEnc [] = [] ∧
  ∀ (v : Byte) (n : Nat) (rest : Block), 1 ≤ n → n ≤ 255 → (n = 255 ∨ rest.head? ≠ some v) →
    rleEnc (List.replicate n v ++ rest) = [v, BitVec.ofNat 8 n] ++ rleEnc rest

/-- R102, R107: the per-symbol RLE encoder emits `RLE.ENC(x)` and the per-symbol RLE decoder `RLE.DEC(y)`, whatever
their registers held before the block; the encoder's counter stays between 1 and 255 while a run is open, and the end of
the block leaves no run open and no value byte pending. -/
def Obligations.RleMachinesRefine : Prop :=
  (∀ (r : RunRegs) (x : Block), (rleEncMachine r x).2 = rleEnc x ∧ (rleEncMachine r x).1.active = false ∧
    ((feed rleEncByte (rleEncStart r) x).1.active = true →
      1 ≤ (feed rleEncByte (rleEncStart r) x).1.cnt.toNat ∧ (feed rleEncByte (rleEncStart r) x).1.cnt.toNat ≤ 255)) ∧
  ∀ (r : PairRegs) (y : Block), (rleDecMachine r y).2 = rleDec y ∧ (rleDecMachine r y).1.phase = false

/-- R103: each maximal run is split greedily: a run of length `L` yields `ceil(L / 255)` pairs, every pair but the last
carries 255, and the last carries the remainder, between 1 and 255. -/
def Obligations.RleEncSplitsRunsGreedily : Prop :=
  (∀ x : Block, rleEnc x = (maximalRuns x).flatMap fun r => greedyPairs (r.headD 0) r.length) ∧
  ∀ (v : Byte) (n : Nat), 1 ≤ n →
    (greedyPairs v n).length = 2 * pairsOfRun n ∧
    1 ≤ n - 255 * (pairsOfRun n - 1) ∧ n - 255 * (pairsOfRun n - 1) ≤ 255

/-- R108 (and R104): the output of `RLE.ENC` has twice as many bytes as there are capped runs; for a non-empty block
between `2 * ceil(n / 255)`, which one value throughout gives, and `2n`, which no two adjacent equal bytes give; it is
shorter than the block exactly when `P(x) < n / 2`. -/
def Obligations.RleEncLength : Prop :=
  ∀ x : Block,
    (rleEnc x).length = 2 * pairCount x ∧
    (x ≠ [] → 2 * pairsOfRun x.length ≤ (rleEnc x).length ∧ (rleEnc x).length ≤ 2 * x.length) ∧
    (∀ v : Byte, ∀ n : Nat, x = List.replicate n v → (rleEnc x).length = 2 * pairsOfRun n) ∧
    (x.IsChain (· ≠ ·) → (rleEnc x).length = 2 * x.length) ∧
    ((rleEnc x).length < x.length ↔ 2 * pairCount x < x.length)

/-- R105, R106: `RLE.DEC` completes with the replay of the complete pairs; a zero length contributes nothing and an
unpaired last byte is ignored. -/
def Obligations.RleDecReplaysPairs : Prop :=
  encode .rleDec = 0x09 ∧
  (∀ s : State, Ready s → fitsOut s.cfg (rleDec s.inBuf) = true → CompletesWith .rleDec s (rleDec s.inBuf)) ∧
  (∀ s : State, Params.legal s.cfg = true → s.inValid = false →
    FailsWith .rleDec s 1 ⟨0, 0, 0, 0⟩ ⟨0, 0, 0, 0⟩) ∧
  ∀ (ps : List (Byte × Byte)) (tail : Block), tail.length ≤ 1 →
    rleDec (pairStream ps ++ tail) = ps.flatMap fun q => List.replicate q.2.toNat q.1

/-- R110: `RLE.DEC(RLE.ENC(x)) = x` for every byte sequence, and so when the two commands are issued one after the other
with the output moved to `IN` between them. -/
def Obligations.RleRoundTrip : Prop :=
  (∀ x : Block, rleDec (rleEnc x) = x) ∧
  ∀ s : State, Ready s → s.cfg.mMax = none →
    ∃ t u, exec .rleEnc s = .next t ∧ exec .rleDec (loadBlock t.outBuf t) = .next u ∧ u.st = 2 ∧ u.outBuf = s.inBuf

/-- R78, R111: the streams `RLE.ENC` produces are exactly the sequences of pairs with lengths 1 to 255 in which two
consecutive pairs have the same value only if the first has length 255; re-encoding a decoded stream gives it back
exactly for these; an odd tail disappears, and `RLE.DEC` is not injective. -/
def Obligations.RleEncStreamsAndReencoding : Prop :=
  (∀ y : Block, (∃ x, y = rleEnc x) ↔ ∃ ps : List (Byte × Byte), y = pairStream ps ∧
    (∀ q ∈ ps, 1 ≤ q.2.toNat ∧ q.2.toNat ≤ 255) ∧ ps.IsChain fun q r => q.1 = r.1 → q.2 = 255) ∧
  (∀ y : Block, rleEnc (rleDec y) = y ↔ ∃ x, y = rleEnc x) ∧
  (∀ (y : Block) (b : Byte), y.length % 2 = 0 → rleDec (y ++ [b]) = rleDec y) ∧
  rleEnc (rleDec [0x41, 0x02, 0x41, 0x03]) = [0x41, 0x05] ∧ rleEnc (rleDec [0x41, 0x00]) = [] ∧
  ∃ y z : Block, y ≠ z ∧ rleDec y = rleDec z

/-! ### Delta -/

/-- R121: `DELTA.ENC` completes with one byte per input byte: position 0 by `DELTA_FIRST`, every later position the
difference from the input byte before it, modulo 256. -/
def Obligations.DeltaEncDifferences : Prop :=
  encode .deltaEnc = 0x03 ∧
  (∀ s : State, Ready s → fitsOut s.cfg s.inBuf = true →
    CompletesWith .deltaEnc s (deltaEnc s.cfg.deltaFirst s.inBuf)) ∧
  (∀ s : State, Params.legal s.cfg = true → s.inValid = false →
    FailsWith .deltaEnc s 1 ⟨0, 0, 0, 0⟩ ⟨0, 0, 0, 0⟩) ∧
  ∀ (d : DeltaFirst) (x : Block), (deltaEnc d x).length = x.length ∧
    (∀ b, x[0]? = some b → (deltaEnc d x)[0]? = some (match d with | .self => 0 | .literal => b)) ∧
    ∀ (i : Nat) (a b : Byte), x[i]? = some a → x[i + 1]? = some b →
      (deltaEnc d x)[i + 1]? = some (BitVec.ofNat 8 ((b.toNat + 256 - a.toNat) % 256))

/-- R125: `DELTA.DEC` completes with one byte per input byte: output byte `i` is the sum of the input bytes 0 to `i`
modulo 256. -/
def Obligations.DeltaDecSums : Prop :=
  encode .deltaDec = 0x0B ∧
  (∀ s : State, Ready s → fitsOut s.cfg s.inBuf = true → CompletesWith .deltaDec s (deltaDec s.inBuf)) ∧
  (∀ s : State, Params.legal s.cfg = true → s.inValid = false →
    FailsWith .deltaDec s 1 ⟨0, 0, 0, 0⟩ ⟨0, 0, 0, 0⟩) ∧
  ∀ y : Block, (deltaDec y).length = y.length ∧
    ∀ i < y.length, (deltaDec y)[i]? = some (BitVec.ofNat 8 (((y.take (i + 1)).map (·.toNat)).sum % 256))

/-- R123, R126: the per-symbol delta machines emit `DELTA.ENC(x)` and `DELTA.DEC(y)`, whatever their registers held
before the block. -/
def Obligations.DeltaMachinesRefine : Prop :=
  (∀ (d : DeltaFirst) (r : DeltaRegs) (x : Block), deltaEncMachine d r x = deltaEnc d x) ∧
  ∀ (r : DeltaRegs) (y : Block), deltaDecMachine r y = deltaDec y

/-- R129, R130: the delta round trip: under `SELF` every byte comes back lowered by the first one, exact only for an
empty block or one that starts with 0; under `LITERAL` it is exact. -/
def Obligations.DeltaRoundTrips : Prop :=
  (∀ x : Block, deltaDec (deltaEnc .self x) = x.map fun b => b - x.headD 0) ∧
  (∀ x : Block, deltaDec (deltaEnc .self x) = x ↔ (x = [] ∨ x.head? = some 0)) ∧
  ∀ x : Block, deltaDec (deltaEnc .literal x) = x

/-- R131: `DELTA.DEC` is a bijection on the byte sequences of each length; re-encoding a decoded stream gives it back,
with its first byte replaced by 0 under `SELF`. -/
def Obligations.DeltaDecIsBijective : Prop :=
  (∀ y z : Block, deltaDec y = deltaDec z → y = z) ∧
  (∀ x : Block, ∃ y : Block, y.length = x.length ∧ deltaDec y = x) ∧
  (∀ y : Block, deltaEnc .self (deltaDec y) = y.set 0 0) ∧
  ∀ y : Block, deltaEnc .literal (deltaDec y) = y

/-! ### Dictionary -/

/-- R143, R33: `APPEND` in the terms of the three dictionary states: a value goes to the slot after those in use, the
table is cleared by the append that fills it under `EAGER` and by the next append under `LAZY`; under `EAGER` the state
full-pending-reset is never seen between two symbols. -/
def Obligations.AppendAndClear : Prop :=
  ∀ (p : Params) (v : Byte) (table : Block), Params.legal p = true → table.length ≤ p.dictCap →
    (p.dictClear = .eager → table.length < p.dictCap →
      append p v table = if table.length + 1 = p.dictCap then [] else table ++ [v]) ∧
    (p.dictClear = .lazy → dictState p table ≠ .fullPendingReset → append p v table = table ++ [v]) ∧
    (p.dictClear = .lazy → dictState p table = .fullPendingReset → append p v table = [v]) ∧
    (p.dictClear = .eager → ∀ x, dictState p (encTable p x) ≠ .fullPendingReset)

/-- R144, R146: between two symbols the table holds at most `C - 1` entries under `EAGER` and at most `C` under `LAZY`,
in the encoder and in the decoder; the encoder's entries are distinct; with `C` = 1 under `EAGER` the table is empty; an
index the encoder emits is at most `C - 2` under `EAGER` and `C - 1` under `LAZY`. -/
def Obligations.TableInvariants : Prop :=
  ∀ p : Params, Params.legal p = true →
    (∀ x, (encTable p x).length ≤ p.dictCap ∧ (p.dictClear = .eager → (encTable p x).length + 1 ≤ p.dictCap)) ∧
    (∀ x, (encTable p x).Nodup) ∧
    (∀ y table rd out, dictDecMachine p y = .running table rd out →
      table.length ≤ p.dictCap ∧ (p.dictClear = .eager → table.length + 1 ≤ p.dictCap)) ∧
    (p.dictCap = 1 → p.dictClear = .eager → ∀ x, encTable p x = []) ∧
    ∀ x b i, lookup b (encTable p x) = some i → i + 1 ≤ p.dictCap ∧ (p.dictClear = .eager → i + 2 ≤ p.dictCap)

/-- R145: `DICT.ENC` completes with one code per byte: after the bytes `pre`, a byte in the table gives its index
unmodified and leaves the table, a novel byte gives `0x80 | b` and is appended; the first code is a literal. -/
def Obligations.DictEncCodes : Prop :=
  encode .dictEnc = 0x02 ∧
  (∀ s : State, Ready s → fitsOut s.cfg s.inBuf = true → CompletesWith .dictEnc s (dictEnc s.cfg s.inBuf)) ∧
  (∀ s : State, Params.legal s.cfg = true → s.inValid = false →
    FailsWith .dictEnc s 1 ⟨0, 0, 0, 0⟩ ⟨0, 0, 0, 0⟩) ∧
  (∀ (p : Params) (pre post : Block) (b : Byte),
    (∀ i : Nat, (encTable p pre)[i]? = some b → (∀ j < i, (encTable p pre)[j]? ≠ some b) →
      (dictEnc p (pre ++ b :: post))[pre.length]? = some (BitVec.ofNat 8 i) ∧
      encTable p (pre ++ [b]) = encTable p pre) ∧
    (b ∉ encTable p pre →
      (dictEnc p (pre ++ b :: post))[pre.length]? = some (0x80 ||| b) ∧
      encTable p (pre ++ [b]) = append p b (encTable p pre))) ∧
  (∀ p : Params, encTable p [] = []) ∧
  ∀ (p : Params) (b : Byte) (x : Block), ∃ e rest, dictEnc p (b :: x) = e :: rest ∧ 128 ≤ e.toNat

/-- R149, R233: `DICT.DEC` completes with the decoded bytes, or ends in `InvalidDictionaryIndex` with the cause of the
failing code in `CAUSE_A`; under a finite `M_MAX`, when the bytes it wrote fit (notes/assumptions/8.md). -/
def Obligations.DictDecCompletesOrFails : Prop :=
  encode .dictDec = 0x0A ∧
  (∀ s : State, Ready s → ∀ out, dictDec s.cfg s.inBuf = .ok out → fitsOut s.cfg s.inBuf = true →
    CompletesWith .dictDec s out) ∧
  (∀ s : State, Ready s → ∀ c, dictDec s.cfg s.inBuf = .raised c → atMost s.cfg.mMax c.pos = true →
    FailsWith .dictDec s 2 c ⟨0, 0, 0, 0⟩) ∧
  ∀ s : State, Params.legal s.cfg = true → s.inValid = false →
    FailsWith .dictDec s 1 ⟨0, 0, 0, 0⟩ ⟨0, 0, 0, 0⟩

/-- R147, R151: the per-symbol dictionary machines emit `DICT.ENC(x)` and `DICT.DEC(y)`, or raise at the same position
with the same cause. -/
def Obligations.DictMachinesRefine : Prop :=
  (∀ (p : Params) (x : Block), dictEncMachine p x = dictEnc p x) ∧
  (∀ (p : Params) (y out : Block),
    dictDec p y = .ok out ↔ ∃ table, dictDecMachine p y = .running table y.length out) ∧
  ∀ (p : Params) (y : Block) (c : Cause), dictDec p y = .raised c ↔ dictDecMachine p y = .raised c

/-- R150, R152: a dictionary decode raises exactly when some code is an index not below the table's length at that
moment, and it reports the first such code. -/
def Obligations.FailingIndexIsReported : Prop :=
  ∀ (p : Params) (y : Block) (c : Cause),
    (dictDec p y = .raised c ↔ IndexFailsAt p y c) ∧ ∀ c', IndexFailsAt p y c → IndexFailsAt p y c' → c = c'

/-- R157: the literal truncation: no byte of 0x80 or more is ever decoded, so every one the encoder was given comes back
wrong, and no error is raised by a literal: a novel byte's code decodes to the byte less 128. -/
def Obligations.LiteralsLoseTheTopBit : Prop :=
  (∀ (p : Params) (y out : Block), dictDec p y = .ok out → SevenBit out) ∧
  (∀ b : Byte, 128 ≤ b.toNat →
    literalCode b = b ∧ isLiteral b = true ∧ (literalValue b).toNat = b.toNat - 128) ∧
  ∀ (p : Params) (x out : Block) (j : Nat) (b : Byte),
    dictDec p (dictEnc p x) = .ok out → x[j]? = some b → 128 ≤ b.toNat → out[j]? ≠ some b

/-- R159: for every legal capacity and both clear policies, dictionary coding is lossless exactly on 7-bit blocks; on any
other block the decode returns a wrong block of the same length or fails. -/
def Obligations.DictLosslessIffSevenBit : Prop :=
  ∀ (p : Params) (x : Block), Params.legal p = true →
    (dictDec p (dictEnc p x) = .ok x ↔ SevenBit x) ∧
    (¬ SevenBit x → (∃ out, dictDec p (dictEnc p x) = .ok out ∧ out ≠ x ∧ out.length = x.length) ∨
      ∃ c, dictDec p (dictEnc p x) = .raised c)

/-- R160: on a 7-bit block the decoder's table equals the encoder's after every prefix. -/
def Obligations.LockStepOnSevenBit : Prop :=
  ∀ (p : Params) (pre post : Block), Params.legal p = true → SevenBit (pre ++ post) →
    dictDecMachine p ((dictEnc p (pre ++ post)).take pre.length) = .running (encTable p pre) pre.length pre

/-- R161: the encoder never emits an index of 128 or more, on any input, exactly when `DICT_CAP` is at most 129 under
`EAGER` or at most 128 under `LAZY`; on a 7-bit input it never does. -/
def Obligations.IndexNeverCollidesIff : Prop :=
  (∀ p : Params, Params.legal p = true →
    ((∀ x b i, lookup b (encTable p x) = some i → i < 128) ↔
      (p.dictClear = .eager ∧ p.dictCap ≤ 129) ∨ (p.dictClear = .lazy ∧ p.dictCap ≤ 128))) ∧
  ∀ (p : Params) (x : Block), Params.legal p = true → SevenBit x →
    ∀ b i, lookup b (encTable p x) = some i → i < 128

/-! ### Hybrid -/

/-- R171, R173: `HYB.ENC` completes with the not-longer of the two pipelines, ties to pipeline (a). -/
def Obligations.HybEncKeepsTheNotLonger : Prop :=
  encode .hybEnc = 0x04 ∧
  (∀ s : State, Ready s → fitsOut s.cfg s.inBuf = true → fitsOut s.cfg (rleEnc s.inBuf) = true →
    fitsOut s.cfg (rleEnc (dictEnc s.cfg s.inBuf)) = true →
    CompletesWith .hybEnc s
      (if (dictEnc s.cfg (rleEnc s.inBuf)).length ≤ (rleEnc (dictEnc s.cfg s.inBuf)).length
        then dictEnc s.cfg (rleEnc s.inBuf) else rleEnc (dictEnc s.cfg s.inBuf))) ∧
  ∀ s : State, Params.legal s.cfg = true → s.inValid = false →
    FailsWith .hybEnc s 1 ⟨0, 0, 0, 0⟩ ⟨0, 0, 0, 0⟩

/-- R174: the lengths of the pipelines and of `HYB.ENC`: even, at most `2n`, never above the plain RLE coding. -/
def Obligations.HybEncLength : Prop :=
  ∀ (p : Params) (x : Block),
    (pipeA p x).length = (rleEnc x).length ∧
    (pipeB p x).length = 2 * pairCount (dictEnc p x) ∧ (pipeB p x).length ≤ 2 * x.length ∧
    (hybEnc p x).length = min (rleEnc x).length (pipeB p x).length ∧
    (hybEnc p x).length % 2 = 0 ∧ (hybEnc p x).length ≤ 2 * x.length ∧ (hybEnc p x).length ≤ (rleEnc x).length

/-- R175: pipeline (b) is strictly shorter only when two adjacent different bytes got the same code, which happens on no
7-bit block; on a 7-bit block `HYB.ENC` returns pipeline (a). -/
def Obligations.PipelineBNeedsMergedCodes : Prop :=
  ∀ (p : Params) (x : Block), Params.legal p = true →
    ((pipeB p x).length < (pipeA p x).length →
      (∃ (i : Nat) (a b c : Byte), x[i]? = some a ∧ x[i + 1]? = some b ∧ a ≠ b ∧
        (dictEnc p x)[i]? = some c ∧ (dictEnc p x)[i + 1]? = some c) ∧ ¬ SevenBit x) ∧
    (SevenBit x → hybEnc p x = pipeA p x)

/-- R176, R180: `HYB.DEC`: attempt (a); only on `InvalidDictionaryIndex` attempt (b), from the same payload; only when
both raise, `HybridDecodeFailure` with both causes. Under a finite `M_MAX` this holds when every stream fits, the bytes
that a raising attempt wrote among them (notes/assumptions/8.md). -/
def Obligations.HybDecTriesBothOrders : Prop :=
  encode .hybDec = 0x0C ∧
  (∀ s : State, Ready s → ∀ t, dictDec s.cfg s.inBuf = .ok t → fitsOut s.cfg t = true →
    fitsOut s.cfg (rleDec t) = true → CompletesWith .hybDec s (rleDec t)) ∧
  (∀ s : State, Ready s → ∀ a out, dictDec s.cfg s.inBuf = .raised a → atMost s.cfg.mMax a.pos = true →
    fitsOut s.cfg (rleDec s.inBuf) = true → dictDec s.cfg (rleDec s.inBuf) = .ok out → CompletesWith .hybDec s out) ∧
  (∀ s : State, Ready s → ∀ a b, dictDec s.cfg s.inBuf = .raised a → atMost s.cfg.mMax a.pos = true →
    fitsOut s.cfg (rleDec s.inBuf) = true → dictDec s.cfg (rleDec s.inBuf) = .raised b → FailsWith .hybDec s 3 a b) ∧
  ∀ s : State, Params.legal s.cfg = true → s.inValid = false →
    FailsWith .hybDec s 1 ⟨0, 0, 0, 0⟩ ⟨0, 0, 0, 0⟩

/-- R181: the hybrid round trip holds on 7-bit blocks whose runs are at most 127 long, for every legal capacity and both
clear policies. -/
def Obligations.HybRoundTrip : Prop :=
  ∀ (p : Params) (x : Block), Params.legal p = true → SevenBit x → RunsAtMost 127 x →
    hybDec p (hybEnc p x) = .ok x

/-- R182: a pipeline-(b) payload of a non-empty block fails attempt (a) at position 1, on index 1 or 2 with one slot in
use, when `DICT_CAP` is at least 3; attempt (b) then undoes the RLE stage exactly. -/
def Obligations.PipelineBPayloadFailsAttemptA : Prop :=
  ∀ (p : Params) (x : Block), Params.legal p = true → 3 ≤ p.dictCap → x ≠ [] →
    (dictDec p (pipeB p x) = .raised ⟨2, 1, 1, 1⟩ ∨ dictDec p (pipeB p x) = .raised ⟨2, 1, 2, 1⟩) ∧
    rleDec (pipeB p x) = dictEnc p x

/-! ### Selector -/

/-- R194, R28: for an estimator that presents the block's entropy within a tolerance, the gate is open exactly when the
entropy is below 4.0, for every block whose entropy is further than the tolerance from 4.0. `hInCurrent` and a rational
`H_IN` are the model's choices (notes/assumptions/3.md). -/
def Obligations.GateFollowsTheEntropy : Prop :=
  (∀ s : State, s.hInCurrent = true → 0 ≤ s.hIn → s.hIn ≤ 8 → (gateOperand s = true ↔ s.hIn < 4)) ∧
  ∀ (s : State) (tolerance : ℝ), EstimatorHonest tolerance s → tolerance < |entropy s.inBuf - 4| →
    (gateOperand s = true ↔ entropy s.inBuf < 4)

/-- R198, R202: `COMPRESS` writes the record of the smallest candidate: its tag, the two sizes and the payload. It
completes whenever every candidate and intermediate stream fits `M_MAX`. -/
def Obligations.CompressWritesTheRecord : Prop :=
  (∀ hyb acc, encode (.compress hyb acc) = (if acc then 0x20 else 0) ||| (if hyb then 0x10 else 0) ||| 0x07) ∧
  (∀ (s : State) (hyb acc : Bool), Ready s → fitsOut s.cfg s.inBuf = true → fitsOut s.cfg (rleEnc s.inBuf) = true →
    (hyb = true → fitsOut s.cfg (rleEnc (dictEnc s.cfg s.inBuf)) = true) →
    CompletesWithRecord (.compress hyb acc) s (tagOf (select s.cfg hyb (gateOperand s) s.inBuf).strategy)
      (select s.cfg hyb (gateOperand s) s.inBuf).payload) ∧
  ∀ (s : State) (hyb acc : Bool), Params.legal s.cfg = true → s.inValid = false →
    FailsWith (.compress hyb acc) s 1 ⟨0, 0, 0, 0⟩ ⟨0, 0, 0, 0⟩

/-- R201, R199: the winner is the first candidate, in the order RAW, RLE, DELTA (when gated in), DICT, HYBRID (when
asked for), whose length is the least. -/
def Obligations.WinnerIsFirstSmallest : Prop :=
  (∀ (p : Params) (hyb gate : Bool) (x : Block), candidates p hyb gate x =
    [⟨.raw, x⟩, ⟨.rle, rleEnc x⟩] ++ (if gate then [⟨.delta, deltaEnc p.deltaFirst x⟩] else []) ++
      [⟨.dict, dictEnc p x⟩] ++ (if hyb then [⟨.hybrid, hybEnc p x⟩] else [])) ∧
  ∀ (p : Params) (hyb gate : Bool) (x : Block), ∃ before after,
    candidates p hyb gate x = before ++ select p hyb gate x :: after ∧
    (∀ c ∈ before, (select p hyb gate x).payload.length < c.payload.length) ∧
    ∀ c ∈ after, (select p hyb gate x).payload.length ≤ c.payload.length

/-- R22: the invariants of a record that `COMPRESS` produces. -/
def Obligations.RecordInvariants : Prop :=
  ∀ (s t : State) (hyb acc : Bool), exec (.compress hyb acc) s = .next t → t.st = 2 →
    t.recCompSize = t.outLen ∧ t.recOrigSize = s.inLen ∧ t.recCompSize ≤ t.recOrigSize ∧
    ∃ k : Strategy, t.recStrategy = tagOf k

/-- R128, R158, R203: delta and dictionary coding keep the length, in both directions, so their candidates are as long
as RAW: neither ever wins and no record carries tag 2 or 3, for every value of the parameters. -/
def Obligations.DeltaAndDictNeverWin : Prop :=
  (∀ (p : Params) (x : Block), (deltaEnc p.deltaFirst x).length = x.length ∧ (deltaDec x).length = x.length ∧
    (dictEnc p x).length = x.length ∧ ∀ out, dictDec p x = .ok out → out.length = x.length) ∧
  (∀ (p : Params) (hyb gate : Bool) (x : Block),
    (select p hyb gate x).strategy ≠ .delta ∧ (select p hyb gate x).strategy ≠ .dict) ∧
  ∀ (s t : State) (hyb acc : Bool), exec (.compress hyb acc) s = .next t → t.st = 2 →
    t.recStrategy ≠ 2 ∧ t.recStrategy ≠ 3

/-- R204: which strategies can win, and when; HYBRID wins only by pipeline (b), and on no 7-bit block. -/
def Obligations.WhichStrategyWins : Prop :=
  ∀ (p : Params) (hyb gate : Bool) (x : Block), Params.legal p = true →
    ((select p hyb gate x).strategy = .hybrid ↔
      hyb = true ∧ (hybEnc p x).length < x.length ∧ (hybEnc p x).length < (rleEnc x).length) ∧
    ((select p hyb gate x).strategy = .rle ↔ (rleEnc x).length < x.length ∧
      ¬ (hyb = true ∧ (hybEnc p x).length < (rleEnc x).length)) ∧
    ((select p hyb gate x).strategy = .raw ↔ x.length ≤ (rleEnc x).length ∧
      ¬ (hyb = true ∧ (hybEnc p x).length < x.length)) ∧
    ((select p hyb gate x).strategy = .hybrid → (select p hyb gate x).payload = pipeB p x ∧
      (pipeB p x).length < x.length ∧ (pipeB p x).length < (rleEnc x).length ∧ ¬ SevenBit x)

/-- R205: neither the gate nor the acceleration flag can change what `COMPRESS` gives. -/
def Obligations.GateAndAccelerationAreIrrelevant : Prop :=
  (∀ (p : Params) (hyb : Bool) (x : Block),
    select p hyb true x = select p hyb false x ∧ compressResult p hyb true x = compressResult p hyb false x) ∧
  (∀ (s : State) (hyb acc acc' : Bool), exec (.compress hyb acc) s = exec (.compress hyb acc') s) ∧
  ∀ (s : State) (hyb acc : Bool) (h : Rat) (current : Bool),
    answerOf (.compress hyb acc) (exec (.compress hyb acc) { s with hIn := h, hInCurrent := current }) =
      answerOf (.compress hyb acc) (exec (.compress hyb acc) s)

/-- R206: with `DICT_CAP` at least 3, a record that `COMPRESS` tagged HYBRID never decompresses to its block: the result
is `HybridDecodeFailure` or a different block. -/
def Obligations.HybridRecordNeverDecompresses : Prop :=
  ∀ (s t : State) (hyb acc : Bool), 3 ≤ s.cfg.dictCap → exec (.compress hyb acc) s = .next t → t.st = 2 →
    t.recStrategy = 4 →
    ¬ SevenBit s.inBuf ∧ t.outBuf = pipeB s.cfg s.inBuf ∧
    ∃ u, exec .decompress (loadBlock t.outBuf t) = .next u ∧
      ((u.st = 3 ∧ u.err = 3) ∨ (u.st = 2 ∧ u.outBuf ≠ s.inBuf))

/-- R207: the round trip through `COMPRESS` and `DECOMPRESS`, the record unchanged and its payload moved to `IN`: exact
for every block with `hyb` = 0, where the winner is RAW or RLE; with `hyb` = 1 exact when the winner is not HYBRID (R285),
and only then (`DICT_CAP` at least 3), in particular on every 7-bit block; RAW is kept whenever nothing is strictly
smaller. -/
def Obligations.CompressDecompressRoundTrip : Prop :=
  ∀ (s t : State) (hyb acc : Bool), exec (.compress hyb acc) s = .next t → t.st = 2 →
    (hyb = false → (t.recStrategy = 0 ∨ t.recStrategy = 1) ∧
      ∃ u, exec .decompress (loadBlock t.outBuf t) = .next u ∧ u.st = 2 ∧ u.outBuf = s.inBuf) ∧
    (t.recStrategy ≠ 4 →
      ∃ u, exec .decompress (loadBlock t.outBuf t) = .next u ∧ u.st = 2 ∧ u.outBuf = s.inBuf) ∧
    (3 ≤ s.cfg.dictCap →
      ((∃ u, exec .decompress (loadBlock t.outBuf t) = .next u ∧ u.st = 2 ∧ u.outBuf = s.inBuf) ↔
        t.recStrategy ≠ 4)) ∧
    (SevenBit s.inBuf → ∃ u, exec .decompress (loadBlock t.outBuf t) = .next u ∧ u.st = 2 ∧ u.outBuf = s.inBuf) ∧
    ((∀ c ∈ candidates s.cfg hyb (gateOperand s) s.inBuf, s.inBuf.length ≤ c.payload.length) →
      t.recStrategy = 0 ∧ t.outBuf = s.inBuf)

/-- R210, R211: `DECOMPRESS` dispatches on the tag alone and decodes the whole of `IN`: the output of each decoder, with
the record registers unchanged and the size registers not read. -/
def Obligations.DecompressDispatches : Prop :=
  encode .decompress = 0x0F ∧
  ∀ s : State, Ready s →
    (s.recStrategy = 0 → fitsOut s.cfg s.inBuf = true → CompletesWith .decompress s s.inBuf) ∧
    (s.recStrategy = 1 → fitsOut s.cfg (rleDec s.inBuf) = true → CompletesWith .decompress s (rleDec s.inBuf)) ∧
    (s.recStrategy = 2 → fitsOut s.cfg s.inBuf = true → ∀ out, dictDec s.cfg s.inBuf = .ok out →
      CompletesWith .decompress s out) ∧
    (s.recStrategy = 3 → fitsOut s.cfg s.inBuf = true → CompletesWith .decompress s (deltaDec s.inBuf)) ∧
    (s.recStrategy = 4 → s.cfg.mMax = none → ∀ out, hybDec s.cfg s.inBuf = .ok out →
      CompletesWith .decompress s out)

/-- R214: for a tag from 0 to 4 `DECOMPRESS` gives exactly what the codec command of word `0x08 | t` gives on the same
state; only `DECOMPRESS` raises `UnknownStrategy`. -/
def Obligations.DecompressEqualsCodecCommand : Prop :=
  (∀ (s : State) (i : Instr), s.recStrategy ≤ 4 → decode (0x08 ||| BitVec.ofNat 8 s.recStrategy) = .command i →
    exec .decompress s = exec i s) ∧
  ∀ (s t : State) (i : Instr), i ≠ .decompress → exec i s = .next t → t.err ≠ 4
end

