-- ==== Sys2Proof/Laws/Memory.lean ====
section
/-! SUPPORT. The byte spaces (R50, R66): a read after a write, the canonical form of a space's cells, and that every
write keeps it. -/

namespace Sys2Proof.Machine

/-- R66: the byte just written is read back, and every other index reads as before. -/
theorem memWrite_read {capacity : Option Nat} {space space' : Block} {a : Nat} {v : Byte}
    (h : memWrite capacity space a v = some space') :
    memRead space' a = some v ∧ ∀ i, i ≠ a → memRead space' i = memRead space i := by
  unfold memWrite at h
  split at h
  · split at h
    · rename_i lt
      cases h
      refine ⟨by simp [memRead, lt], fun i hi => ?_⟩
      simp [memRead, Ne.symm hi]
    · split at h
      · rename_i nlt eq
        cases h
        refine ⟨by simp [memRead, eq], fun i hi => ?_⟩
        rcases Nat.lt_or_ge i space.length with lt | ge
        · simp [memRead, List.getElem?_append_left lt]
        · have : space.length < i := by omega
          simp only [memRead]
          rw [List.getElem?_eq_none (by simp; omega), List.getElem?_eq_none ge]
      · cases h
  · cases h

/-- R66: a write is defined exactly at the indices up to the length that are below the capacity. -/
theorem memWrite_isSome {capacity : Option Nat} {space : Block} {a : Nat} {v : Byte} :
    (memWrite capacity space a v).isSome = true ↔ a ≤ space.length ∧ belowCapacity capacity a = true := by
  unfold memWrite
  split
  · rename_i hc
    split
    · simp [hc]; omega
    · split <;> simp [hc] <;> omega
  · simp_all

/-- R66: a write keeps a space within its capacity. -/
theorem memWrite_atMost {capacity : Option Nat} {space space' : Block} {a : Nat} {v : Byte}
    (h : memWrite capacity space a v = some space') (hs : atMost capacity space.length = true) :
    atMost capacity space'.length = true := by
  unfold memWrite at h
  split at h
  · rename_i hc
    split at h
    · cases h; simpa using hs
    · split at h
      · rename_i eq
        cases h
        cases capacity with
        | none => rfl
        | some c => simp_all [belowCapacity, atMost]
      · cases h
  · cases h

/-- The cells of a space from an index on are in canonical form. -/
theorem cellsFrom_wf (a : Nat) (space : Block) : Memory.wf (cellsFrom a space) = true := by
  induction space generalizing a with
  | nil => rfl
  | cons b bs ih =>
    cases bs with
    | nil => rfl
    | cons c cs => simpa [cellsFrom, Memory.wf] using ih (a + 1)

/-- Every space is in canonical form, so every operation on spaces keeps it. -/
theorem cells_wf (space : Block) : Memory.wf (cells space) = true := cellsFrom_wf 0 space

/-- R66: a write keeps the canonical form. -/
theorem memWrite_keeps_wf {capacity : Option Nat} {space space' : Block} {a : Nat} {v : Byte}
    (_ : memWrite capacity space a v = some space') :
    Memory.wf (cells space') = true := cells_wf space'

/-- The spaces after reset are in canonical form. -/
theorem reset_cells_wf :
    Memory.wf (cells State.reset.inBuf) = true ∧ Memory.wf (cells State.reset.outBuf) = true := ⟨rfl, rfl⟩

/-- Equal cells are equal spaces. -/
theorem cells_injective {x y : Block} (h : cells x = cells y) : x = y := by
  have key : ∀ a (x y : Block), cellsFrom a x = cellsFrom a y → x = y := by
    intro a x
    induction x generalizing a with
    | nil => intro y h; cases y <;> simp_all [cellsFrom]
    | cons b bs ih =>
      intro y h
      cases y with
      | nil => simp [cellsFrom] at h
      | cons c cs =>
        simp only [cellsFrom, List.cons.injEq, Prod.mk.injEq, true_and] at h
        exact congr (congrArg _ h.1) (ih _ _ h.2)
  exact key 0 x y h

end Sys2Proof.Machine
end

