-- ==== Sys2Proof/Laws/State.lean ====
section
/-! SUPPORT. What each update of the state does to each field: one lemma per field per update, so that no later proof
unfolds a record update. -/

namespace Sys2Proof.Machine

/-! `errorEntry` (R240) -/

@[simp] theorem errorEntry_cfg (k : ErrorKind) (a b : Cause) (s : State) : (errorEntry k a b s).cfg = s.cfg := rfl
@[simp] theorem errorEntry_program (k : ErrorKind) (a b : Cause) (s : State) : (errorEntry k a b s).program = s.program := rfl
@[simp] theorem errorEntry_draws (k : ErrorKind) (a b : Cause) (s : State) : (errorEntry k a b s).draws = s.draws := rfl
@[simp] theorem errorEntry_cmd (k : ErrorKind) (a b : Cause) (s : State) : (errorEntry k a b s).cmd = s.cmd := rfl
@[simp] theorem errorEntry_inBuf (k : ErrorKind) (a b : Cause) (s : State) : (errorEntry k a b s).inBuf = s.inBuf := rfl
@[simp] theorem errorEntry_inValid (k : ErrorKind) (a b : Cause) (s : State) : (errorEntry k a b s).inValid = s.inValid := rfl
@[simp] theorem errorEntry_outBuf (k : ErrorKind) (a b : Cause) (s : State) : (errorEntry k a b s).outBuf = [] := rfl
@[simp] theorem errorEntry_hIn (k : ErrorKind) (a b : Cause) (s : State) : (errorEntry k a b s).hIn = s.hIn := rfl
@[simp] theorem errorEntry_hInCurrent (k : ErrorKind) (a b : Cause) (s : State) : (errorEntry k a b s).hInCurrent = s.hInCurrent := rfl
@[simp] theorem errorEntry_st (k : ErrorKind) (a b : Cause) (s : State) : (errorEntry k a b s).st = stError := rfl
@[simp] theorem errorEntry_err (k : ErrorKind) (a b : Cause) (s : State) : (errorEntry k a b s).err = errorCode k := rfl
@[simp] theorem errorEntry_causeA (k : ErrorKind) (a b : Cause) (s : State) : (errorEntry k a b s).causeA = a := rfl
@[simp] theorem errorEntry_causeB (k : ErrorKind) (a b : Cause) (s : State) : (errorEntry k a b s).causeB = b := rfl
@[simp] theorem errorEntry_recStrategy (k : ErrorKind) (a b : Cause) (s : State) : (errorEntry k a b s).recStrategy = s.recStrategy := rfl
@[simp] theorem errorEntry_recOrigSize (k : ErrorKind) (a b : Cause) (s : State) : (errorEntry k a b s).recOrigSize = s.recOrigSize := rfl
@[simp] theorem errorEntry_recCompSize (k : ErrorKind) (a b : Cause) (s : State) : (errorEntry k a b s).recCompSize = s.recCompSize := rfl
@[simp] theorem errorEntry_callScoped (k : ErrorKind) (a b : Cause) (s : State) : (errorEntry k a b s).callScoped = s.callScoped := rfl

/-! `successExit` (R242) -/

@[simp] theorem successExit_cfg (out : Block) (s : State) : (successExit out s).cfg = s.cfg := rfl
@[simp] theorem successExit_program (out : Block) (s : State) : (successExit out s).program = s.program := rfl
@[simp] theorem successExit_draws (out : Block) (s : State) : (successExit out s).draws = s.draws := rfl
@[simp] theorem successExit_cmd (out : Block) (s : State) : (successExit out s).cmd = s.cmd := rfl
@[simp] theorem successExit_inBuf (out : Block) (s : State) : (successExit out s).inBuf = s.inBuf := rfl
@[simp] theorem successExit_inValid (out : Block) (s : State) : (successExit out s).inValid = s.inValid := rfl
@[simp] theorem successExit_outBuf (out : Block) (s : State) : (successExit out s).outBuf = out := rfl
@[simp] theorem successExit_hIn (out : Block) (s : State) : (successExit out s).hIn = s.hIn := rfl
@[simp] theorem successExit_hInCurrent (out : Block) (s : State) : (successExit out s).hInCurrent = s.hInCurrent := rfl
@[simp] theorem successExit_st (out : Block) (s : State) : (successExit out s).st = stDone := rfl
@[simp] theorem successExit_err (out : Block) (s : State) : (successExit out s).err = 0 := rfl
@[simp] theorem successExit_causeA (out : Block) (s : State) : (successExit out s).causeA = Cause.zero := rfl
@[simp] theorem successExit_causeB (out : Block) (s : State) : (successExit out s).causeB = Cause.zero := rfl
@[simp] theorem successExit_recStrategy (out : Block) (s : State) : (successExit out s).recStrategy = s.recStrategy := rfl
@[simp] theorem successExit_recOrigSize (out : Block) (s : State) : (successExit out s).recOrigSize = s.recOrigSize := rfl
@[simp] theorem successExit_recCompSize (out : Block) (s : State) : (successExit out s).recCompSize = s.recCompSize := rfl
@[simp] theorem successExit_callScoped (out : Block) (s : State) : (successExit out s).callScoped = s.callScoped := rfl

/-! `writeRecord` (R202) -/

@[simp] theorem writeRecord_cfg (k : Strategy) (o c : Nat) (s : State) : (writeRecord k o c s).cfg = s.cfg := rfl
@[simp] theorem writeRecord_program (k : Strategy) (o c : Nat) (s : State) : (writeRecord k o c s).program = s.program := rfl
@[simp] theorem writeRecord_draws (k : Strategy) (o c : Nat) (s : State) : (writeRecord k o c s).draws = s.draws := rfl
@[simp] theorem writeRecord_cmd (k : Strategy) (o c : Nat) (s : State) : (writeRecord k o c s).cmd = s.cmd := rfl
@[simp] theorem writeRecord_inBuf (k : Strategy) (o c : Nat) (s : State) : (writeRecord k o c s).inBuf = s.inBuf := rfl
@[simp] theorem writeRecord_inValid (k : Strategy) (o c : Nat) (s : State) : (writeRecord k o c s).inValid = s.inValid := rfl
@[simp] theorem writeRecord_outBuf (k : Strategy) (o c : Nat) (s : State) : (writeRecord k o c s).outBuf = s.outBuf := rfl
@[simp] theorem writeRecord_hIn (k : Strategy) (o c : Nat) (s : State) : (writeRecord k o c s).hIn = s.hIn := rfl
@[simp] theorem writeRecord_hInCurrent (k : Strategy) (o c : Nat) (s : State) : (writeRecord k o c s).hInCurrent = s.hInCurrent := rfl
@[simp] theorem writeRecord_st (k : Strategy) (o c : Nat) (s : State) : (writeRecord k o c s).st = s.st := rfl
@[simp] theorem writeRecord_err (k : Strategy) (o c : Nat) (s : State) : (writeRecord k o c s).err = s.err := rfl
@[simp] theorem writeRecord_causeA (k : Strategy) (o c : Nat) (s : State) : (writeRecord k o c s).causeA = s.causeA := rfl
@[simp] theorem writeRecord_causeB (k : Strategy) (o c : Nat) (s : State) : (writeRecord k o c s).causeB = s.causeB := rfl
@[simp] theorem writeRecord_recStrategy (k : Strategy) (o c : Nat) (s : State) : (writeRecord k o c s).recStrategy = tagOf k := rfl
@[simp] theorem writeRecord_recOrigSize (k : Strategy) (o c : Nat) (s : State) : (writeRecord k o c s).recOrigSize = o := rfl
@[simp] theorem writeRecord_recCompSize (k : Strategy) (o c : Nat) (s : State) : (writeRecord k o c s).recCompSize = c := rfl
@[simp] theorem writeRecord_callScoped (k : Strategy) (o c : Nat) (s : State) : (writeRecord k o c s).callScoped = s.callScoped := rfl

/-! `discardCallScoped` (R34, R240) -/

@[simp] theorem discardCallScoped_cfg (s : State) : (discardCallScoped s).cfg = s.cfg := rfl
@[simp] theorem discardCallScoped_program (s : State) : (discardCallScoped s).program = s.program := rfl
@[simp] theorem discardCallScoped_draws (s : State) : (discardCallScoped s).draws = s.draws + 24 := rfl
@[simp] theorem discardCallScoped_cmd (s : State) : (discardCallScoped s).cmd = s.cmd := rfl
@[simp] theorem discardCallScoped_inBuf (s : State) : (discardCallScoped s).inBuf = s.inBuf := rfl
@[simp] theorem discardCallScoped_inValid (s : State) : (discardCallScoped s).inValid = s.inValid := rfl
@[simp] theorem discardCallScoped_outBuf (s : State) : (discardCallScoped s).outBuf = s.outBuf := rfl
@[simp] theorem discardCallScoped_hIn (s : State) : (discardCallScoped s).hIn = s.hIn := rfl
@[simp] theorem discardCallScoped_hInCurrent (s : State) : (discardCallScoped s).hInCurrent = s.hInCurrent := rfl
@[simp] theorem discardCallScoped_st (s : State) : (discardCallScoped s).st = s.st := rfl
@[simp] theorem discardCallScoped_err (s : State) : (discardCallScoped s).err = s.err := rfl
@[simp] theorem discardCallScoped_causeA (s : State) : (discardCallScoped s).causeA = s.causeA := rfl
@[simp] theorem discardCallScoped_causeB (s : State) : (discardCallScoped s).causeB = s.causeB := rfl
@[simp] theorem discardCallScoped_recStrategy (s : State) : (discardCallScoped s).recStrategy = s.recStrategy := rfl
@[simp] theorem discardCallScoped_recOrigSize (s : State) : (discardCallScoped s).recOrigSize = s.recOrigSize := rfl
@[simp] theorem discardCallScoped_recCompSize (s : State) : (discardCallScoped s).recCompSize = s.recCompSize := rfl
@[simp] theorem discardCallScoped_callScoped (s : State) : (discardCallScoped s).callScoped = freeCallScoped s.cfg (s.draws + 1) := rfl

/-! `loadBlock` (R42) -/

@[simp] theorem loadBlock_cfg (x : Block) (s : State) : (loadBlock x s).cfg = s.cfg := rfl
@[simp] theorem loadBlock_program (x : Block) (s : State) : (loadBlock x s).program = s.program := rfl
@[simp] theorem loadBlock_draws (x : Block) (s : State) : (loadBlock x s).draws = s.draws := rfl
@[simp] theorem loadBlock_cmd (x : Block) (s : State) : (loadBlock x s).cmd = s.cmd := rfl
@[simp] theorem loadBlock_inBuf (x : Block) (s : State) : (loadBlock x s).inBuf = x := rfl
@[simp] theorem loadBlock_inValid (x : Block) (s : State) : (loadBlock x s).inValid = true := rfl
@[simp] theorem loadBlock_outBuf (x : Block) (s : State) : (loadBlock x s).outBuf = s.outBuf := rfl
@[simp] theorem loadBlock_hIn (x : Block) (s : State) : (loadBlock x s).hIn = s.hIn := rfl
@[simp] theorem loadBlock_hInCurrent (x : Block) (s : State) : (loadBlock x s).hInCurrent = false := rfl
@[simp] theorem loadBlock_st (x : Block) (s : State) : (loadBlock x s).st = s.st := rfl
@[simp] theorem loadBlock_err (x : Block) (s : State) : (loadBlock x s).err = s.err := rfl
@[simp] theorem loadBlock_causeA (x : Block) (s : State) : (loadBlock x s).causeA = s.causeA := rfl
@[simp] theorem loadBlock_causeB (x : Block) (s : State) : (loadBlock x s).causeB = s.causeB := rfl
@[simp] theorem loadBlock_recStrategy (x : Block) (s : State) : (loadBlock x s).recStrategy = s.recStrategy := rfl
@[simp] theorem loadBlock_recOrigSize (x : Block) (s : State) : (loadBlock x s).recOrigSize = s.recOrigSize := rfl
@[simp] theorem loadBlock_recCompSize (x : Block) (s : State) : (loadBlock x s).recCompSize = s.recCompSize := rfl
@[simp] theorem loadBlock_callScoped (x : Block) (s : State) : (loadBlock x s).callScoped = s.callScoped := rfl

/-! `setTag` (R42) -/

@[simp] theorem setTag_cfg (t : Byte) (s : State) : (setTag t s).cfg = s.cfg := rfl
@[simp] theorem setTag_program (t : Byte) (s : State) : (setTag t s).program = s.program := rfl
@[simp] theorem setTag_draws (t : Byte) (s : State) : (setTag t s).draws = s.draws + 1 := rfl
@[simp] theorem setTag_cmd (t : Byte) (s : State) : (setTag t s).cmd = s.cmd := rfl
@[simp] theorem setTag_inBuf (t : Byte) (s : State) : (setTag t s).inBuf = s.inBuf := rfl
@[simp] theorem setTag_inValid (t : Byte) (s : State) : (setTag t s).inValid = s.inValid := rfl
@[simp] theorem setTag_outBuf (t : Byte) (s : State) : (setTag t s).outBuf = s.outBuf := rfl
@[simp] theorem setTag_hIn (t : Byte) (s : State) : (setTag t s).hIn = s.hIn := rfl
@[simp] theorem setTag_hInCurrent (t : Byte) (s : State) : (setTag t s).hInCurrent = s.hInCurrent := rfl
@[simp] theorem setTag_st (t : Byte) (s : State) : (setTag t s).st = s.st := rfl
@[simp] theorem setTag_err (t : Byte) (s : State) : (setTag t s).err = s.err := rfl
@[simp] theorem setTag_causeA (t : Byte) (s : State) : (setTag t s).causeA = s.causeA := rfl
@[simp] theorem setTag_causeB (t : Byte) (s : State) : (setTag t s).causeB = s.causeB := rfl
@[simp] theorem setTag_recStrategy (t : Byte) (s : State) : (setTag t s).recStrategy = tagValue s.cfg s.draws t := rfl
@[simp] theorem setTag_recOrigSize (t : Byte) (s : State) : (setTag t s).recOrigSize = s.recOrigSize := rfl
@[simp] theorem setTag_recCompSize (t : Byte) (s : State) : (setTag t s).recCompSize = s.recCompSize := rfl
@[simp] theorem setTag_callScoped (t : Byte) (s : State) : (setTag t s).callScoped = s.callScoped := rfl

/-! `setSizes` (R42) -/

@[simp] theorem setSizes_cfg (o c : Nat) (s : State) : (setSizes o c s).cfg = s.cfg := rfl
@[simp] theorem setSizes_program (o c : Nat) (s : State) : (setSizes o c s).program = s.program := rfl
@[simp] theorem setSizes_draws (o c : Nat) (s : State) : (setSizes o c s).draws = s.draws + 2 := rfl
@[simp] theorem setSizes_cmd (o c : Nat) (s : State) : (setSizes o c s).cmd = s.cmd := rfl
@[simp] theorem setSizes_inBuf (o c : Nat) (s : State) : (setSizes o c s).inBuf = s.inBuf := rfl
@[simp] theorem setSizes_inValid (o c : Nat) (s : State) : (setSizes o c s).inValid = s.inValid := rfl
@[simp] theorem setSizes_outBuf (o c : Nat) (s : State) : (setSizes o c s).outBuf = s.outBuf := rfl
@[simp] theorem setSizes_hIn (o c : Nat) (s : State) : (setSizes o c s).hIn = s.hIn := rfl
@[simp] theorem setSizes_hInCurrent (o c : Nat) (s : State) : (setSizes o c s).hInCurrent = s.hInCurrent := rfl
@[simp] theorem setSizes_st (o c : Nat) (s : State) : (setSizes o c s).st = s.st := rfl
@[simp] theorem setSizes_err (o c : Nat) (s : State) : (setSizes o c s).err = s.err := rfl
@[simp] theorem setSizes_causeA (o c : Nat) (s : State) : (setSizes o c s).causeA = s.causeA := rfl
@[simp] theorem setSizes_causeB (o c : Nat) (s : State) : (setSizes o c s).causeB = s.causeB := rfl
@[simp] theorem setSizes_recStrategy (o c : Nat) (s : State) : (setSizes o c s).recStrategy = s.recStrategy := rfl
@[simp] theorem setSizes_recOrigSize (o c : Nat) (s : State) : (setSizes o c s).recOrigSize = sizeValue s.cfg s.draws o := rfl
@[simp] theorem setSizes_recCompSize (o c : Nat) (s : State) : (setSizes o c s).recCompSize = sizeValue s.cfg (s.draws + 1) c := rfl
@[simp] theorem setSizes_callScoped (o c : Nat) (s : State) : (setSizes o c s).callScoped = s.callScoped := rfl

/-! `setEntropy` (R42) -/

@[simp] theorem setEntropy_cfg (h : Rat) (s : State) : (setEntropy h s).cfg = s.cfg := rfl
@[simp] theorem setEntropy_program (h : Rat) (s : State) : (setEntropy h s).program = s.program := rfl
@[simp] theorem setEntropy_draws (h : Rat) (s : State) : (setEntropy h s).draws = s.draws := rfl
@[simp] theorem setEntropy_cmd (h : Rat) (s : State) : (setEntropy h s).cmd = s.cmd := rfl
@[simp] theorem setEntropy_inBuf (h : Rat) (s : State) : (setEntropy h s).inBuf = s.inBuf := rfl
@[simp] theorem setEntropy_inValid (h : Rat) (s : State) : (setEntropy h s).inValid = s.inValid := rfl
@[simp] theorem setEntropy_outBuf (h : Rat) (s : State) : (setEntropy h s).outBuf = s.outBuf := rfl
@[simp] theorem setEntropy_hIn (h : Rat) (s : State) : (setEntropy h s).hIn = h := rfl
@[simp] theorem setEntropy_hInCurrent (h : Rat) (s : State) : (setEntropy h s).hInCurrent = true := rfl
@[simp] theorem setEntropy_st (h : Rat) (s : State) : (setEntropy h s).st = s.st := rfl
@[simp] theorem setEntropy_err (h : Rat) (s : State) : (setEntropy h s).err = s.err := rfl
@[simp] theorem setEntropy_causeA (h : Rat) (s : State) : (setEntropy h s).causeA = s.causeA := rfl
@[simp] theorem setEntropy_causeB (h : Rat) (s : State) : (setEntropy h s).causeB = s.causeB := rfl
@[simp] theorem setEntropy_recStrategy (h : Rat) (s : State) : (setEntropy h s).recStrategy = s.recStrategy := rfl
@[simp] theorem setEntropy_recOrigSize (h : Rat) (s : State) : (setEntropy h s).recOrigSize = s.recOrigSize := rfl
@[simp] theorem setEntropy_recCompSize (h : Rat) (s : State) : (setEntropy h s).recCompSize = s.recCompSize := rfl
@[simp] theorem setEntropy_callScoped (h : Rat) (s : State) : (setEntropy h s).callScoped = s.callScoped := rfl

/-! `writeCmd` (R27) -/

@[simp] theorem writeCmd_cfg (c : Byte) (s : State) : (writeCmd c s).cfg = s.cfg := rfl
@[simp] theorem writeCmd_program (c : Byte) (s : State) : (writeCmd c s).program = s.program := rfl
@[simp] theorem writeCmd_draws (c : Byte) (s : State) : (writeCmd c s).draws = s.draws := rfl
@[simp] theorem writeCmd_cmd (c : Byte) (s : State) : (writeCmd c s).cmd = c := rfl
@[simp] theorem writeCmd_inBuf (c : Byte) (s : State) : (writeCmd c s).inBuf = s.inBuf := rfl
@[simp] theorem writeCmd_inValid (c : Byte) (s : State) : (writeCmd c s).inValid = s.inValid := rfl
@[simp] theorem writeCmd_outBuf (c : Byte) (s : State) : (writeCmd c s).outBuf = s.outBuf := rfl
@[simp] theorem writeCmd_hIn (c : Byte) (s : State) : (writeCmd c s).hIn = s.hIn := rfl
@[simp] theorem writeCmd_hInCurrent (c : Byte) (s : State) : (writeCmd c s).hInCurrent = s.hInCurrent := rfl
@[simp] theorem writeCmd_st (c : Byte) (s : State) : (writeCmd c s).st = s.st := rfl
@[simp] theorem writeCmd_err (c : Byte) (s : State) : (writeCmd c s).err = s.err := rfl
@[simp] theorem writeCmd_causeA (c : Byte) (s : State) : (writeCmd c s).causeA = s.causeA := rfl
@[simp] theorem writeCmd_causeB (c : Byte) (s : State) : (writeCmd c s).causeB = s.causeB := rfl
@[simp] theorem writeCmd_recStrategy (c : Byte) (s : State) : (writeCmd c s).recStrategy = s.recStrategy := rfl
@[simp] theorem writeCmd_recOrigSize (c : Byte) (s : State) : (writeCmd c s).recOrigSize = s.recOrigSize := rfl
@[simp] theorem writeCmd_recCompSize (c : Byte) (s : State) : (writeCmd c s).recCompSize = s.recCompSize := rfl
@[simp] theorem writeCmd_callScoped (c : Byte) (s : State) : (writeCmd c s).callScoped = s.callScoped := rfl

/-! `withProgram` (R60) -/

@[simp] theorem withProgram_cfg (ms : List HostMove) (s : State) : (withProgram ms s).cfg = s.cfg := rfl
@[simp] theorem withProgram_program (ms : List HostMove) (s : State) : (withProgram ms s).program = ms := rfl
@[simp] theorem withProgram_draws (ms : List HostMove) (s : State) : (withProgram ms s).draws = s.draws := rfl
@[simp] theorem withProgram_cmd (ms : List HostMove) (s : State) : (withProgram ms s).cmd = s.cmd := rfl
@[simp] theorem withProgram_inBuf (ms : List HostMove) (s : State) : (withProgram ms s).inBuf = s.inBuf := rfl
@[simp] theorem withProgram_inValid (ms : List HostMove) (s : State) : (withProgram ms s).inValid = s.inValid := rfl
@[simp] theorem withProgram_outBuf (ms : List HostMove) (s : State) : (withProgram ms s).outBuf = s.outBuf := rfl
@[simp] theorem withProgram_hIn (ms : List HostMove) (s : State) : (withProgram ms s).hIn = s.hIn := rfl
@[simp] theorem withProgram_hInCurrent (ms : List HostMove) (s : State) : (withProgram ms s).hInCurrent = s.hInCurrent := rfl
@[simp] theorem withProgram_st (ms : List HostMove) (s : State) : (withProgram ms s).st = s.st := rfl
@[simp] theorem withProgram_err (ms : List HostMove) (s : State) : (withProgram ms s).err = s.err := rfl
@[simp] theorem withProgram_causeA (ms : List HostMove) (s : State) : (withProgram ms s).causeA = s.causeA := rfl
@[simp] theorem withProgram_causeB (ms : List HostMove) (s : State) : (withProgram ms s).causeB = s.causeB := rfl
@[simp] theorem withProgram_recStrategy (ms : List HostMove) (s : State) : (withProgram ms s).recStrategy = s.recStrategy := rfl
@[simp] theorem withProgram_recOrigSize (ms : List HostMove) (s : State) : (withProgram ms s).recOrigSize = s.recOrigSize := rfl
@[simp] theorem withProgram_recCompSize (ms : List HostMove) (s : State) : (withProgram ms s).recCompSize = s.recCompSize := rfl
@[simp] theorem withProgram_callScoped (ms : List HostMove) (s : State) : (withProgram ms s).callScoped = s.callScoped := rfl

/-! `hostReset` (R260) -/

@[simp] theorem hostReset_cfg (s : State) : (hostReset s).cfg = s.cfg := rfl
@[simp] theorem hostReset_program (s : State) : (hostReset s).program = s.program := rfl
@[simp] theorem hostReset_draws (s : State) : (hostReset s).draws = s.draws := rfl
@[simp] theorem hostReset_cmd (s : State) : (hostReset s).cmd = State.reset.cmd := rfl
@[simp] theorem hostReset_inBuf (s : State) : (hostReset s).inBuf = State.reset.inBuf := rfl
@[simp] theorem hostReset_inValid (s : State) : (hostReset s).inValid = State.reset.inValid := rfl
@[simp] theorem hostReset_outBuf (s : State) : (hostReset s).outBuf = State.reset.outBuf := rfl
@[simp] theorem hostReset_hIn (s : State) : (hostReset s).hIn = State.reset.hIn := rfl
@[simp] theorem hostReset_hInCurrent (s : State) : (hostReset s).hInCurrent = State.reset.hInCurrent := rfl
@[simp] theorem hostReset_st (s : State) : (hostReset s).st = State.reset.st := rfl
@[simp] theorem hostReset_err (s : State) : (hostReset s).err = State.reset.err := rfl
@[simp] theorem hostReset_causeA (s : State) : (hostReset s).causeA = State.reset.causeA := rfl
@[simp] theorem hostReset_causeB (s : State) : (hostReset s).causeB = State.reset.causeB := rfl
@[simp] theorem hostReset_recStrategy (s : State) : (hostReset s).recStrategy = State.reset.recStrategy := rfl
@[simp] theorem hostReset_recOrigSize (s : State) : (hostReset s).recOrigSize = State.reset.recOrigSize := rfl
@[simp] theorem hostReset_recCompSize (s : State) : (hostReset s).recCompSize = State.reset.recCompSize := rfl
@[simp] theorem hostReset_callScoped (s : State) : (hostReset s).callScoped = State.reset.callScoped := rfl

end Sys2Proof.Machine
end

