-- ==== Sys2Proof/Laws/Ops.lean ====
section
/-! SUPPORT. What each shared operation can do, said once: the end of a command, the running of a command on its input,
the meaning of each command, the host's moves and the step, and the symbol operations of the dictionary. -/

namespace Sys2Proof.Machine

open Host (Outcome)

/-! ### Ending and running a command -/

/-- R64: a bounded result is the result when every stream fits, and `tooLong` otherwise. -/
theorem bounded_eq (p : Params) (lengths : List Nat) (r : CommandResult) :
    (bounded p lengths r = r ∧ ∀ n ∈ lengths, atMost p.mMax n = true) ∨
    (bounded p lengths r = .tooLong ∧ ∃ n ∈ lengths, atMost p.mMax n = false) := by
  unfold bounded
  split
  · rename_i h; exact .inl ⟨rfl, by simpa using h⟩
  · rename_i h; exact .inr ⟨rfl, by simpa using h⟩

/-- R64: when every stream fits. -/
theorem bounded_of_fits {p : Params} {lengths : List Nat} {r : CommandResult}
    (h : ∀ n ∈ lengths, atMost p.mMax n = true) : bounded p lengths r = r := by
  simp [bounded, List.all_eq_true.mpr h]

/-- R64: when some stream does not fit. -/
theorem bounded_of_not_fits {p : Params} {lengths : List Nat} {r : CommandResult} {n : Nat}
    (hn : n ∈ lengths) (h : atMost p.mMax n = false) : bounded p lengths r = .tooLong := by
  have : lengths.all (atMost p.mMax) = false := by
    simp only [List.all_eq_false]
    exact ⟨n, hn, by simp [h]⟩
  simp [bounded, this]

/-- R50: free contents of a space are within its capacity. -/
theorem freeSpace_atMost (p : Params) (k : Space) (n : Nat) :
    atMost (capacityOf p k) (freeSpace p k n).length = true := by
  unfold freeSpace
  cases capacityOf p k <;> simp [atMost]

/-- A free number for a size register fits it. -/
theorem freeSize_fits (p : Params) (n : Nat) : fitsSize p (freeSize p n) = true := by
  cases h : p.sizeW with
  | none => simp [fitsSize, h]
  | some w => simpa [fitsSize, freeSize, h] using Nat.mod_lt _ (Nat.two_pow_pos w)

/-- A free tag fits its register. -/
theorem freeTag_fits (p : Params) (n : Nat) : fitsTag p (freeTag p n) = true := by
  exact decide_eq_true (Nat.mod_lt _ (Nat.two_pow_pos p.tagW))

/-- R24: the value that a size register takes fits it, and is the one given when that fits. -/
theorem sizeValue_spec (p : Params) (n size : Nat) :
    fitsSize p (sizeValue p n size) = true ∧ (fitsSize p size = true → sizeValue p n size = size) := by
  unfold sizeValue
  split
  · simp_all
  · exact ⟨freeSize_fits p n, by simp_all⟩

/-- R24: the value that the tag register takes fits it and 8 bits, and is the one given when that fits. -/
theorem tagValue_spec (p : Params) (n : Nat) (t : Byte) :
    fitsTag p (tagValue p n t) = true ∧ tagValue p n t ≤ 255 ∧
    (fitsTag p t.toNat = true → tagValue p n t = t.toNat) := by
  have ht := t.isLt
  have hm : freeTag p n < 2 ^ p.tagW := Nat.mod_lt _ (Nat.two_pow_pos _)
  unfold tagValue fitsTag
  split
  · rename_i h; exact ⟨h, by omega, fun _ => rfl⟩
  · rename_i h
    simp only [decide_eq_true_eq] at h ⊢
    exact ⟨hm, by omega, fun g => absurd g h⟩

/-- R240, R242: a command that ends in a next state took the success exit, with a record or not, or the error entry. -/
theorem finish_next {r : CommandResult} {s t : State} (h : finish r s = .next t) :
    (∃ out, r = .output out ∧ t = successExit out s) ∨
    (∃ k orig payload, r = .record k orig payload ∧
      t = writeRecord k orig payload.length (successExit payload s)) ∨
    (∃ k a b, r = .failed k a b ∧ t = errorEntry k a b s) := by
  cases r with
  | output out => exact .inl ⟨out, rfl, by simpa [finish] using h.symm⟩
  | record k orig payload => exact .inr (.inl ⟨k, orig, payload, rfl, by simpa [finish] using h.symm⟩)
  | failed k a b => exact .inr (.inr ⟨k, a, b, rfl, by simpa [finish] using h.symm⟩)
  | tooLong => cases h

/-- R232: a command with no block loaded. -/
theorem runCommand_unloaded {f : Block → CommandResult} {s : State} (hl : Params.legal s.cfg = true)
    (hv : s.inValid = false) :
    runCommand f s = .next (errorEntry .invalidInput Cause.zero Cause.zero s) := by
  simp [runCommand, inputBlock, hl, hv]

/-- R243 step 4: a command with a block loaded runs its function on it. -/
theorem runCommand_loaded {f : Block → CommandResult} {s : State} (hl : Params.legal s.cfg = true)
    (hv : s.inValid = true) : runCommand f s = finish (f s.inBuf) (discardCallScoped s) := by
  simp [runCommand, inputBlock, hl, hv]

/-- R9: a command of a block that is not specified. -/
theorem runCommand_illegal {f : Block → CommandResult} {s : State} (hl : Params.legal s.cfg = false) :
    runCommand f s = .refused .illegalParameters := by
  simp [runCommand, hl]

/-- R243: what running a command can do when it answers a next state. -/
theorem runCommand_next {f : Block → CommandResult} {s t : State} (h : runCommand f s = .next t) :
    Params.legal s.cfg = true ∧
    ((s.inValid = false ∧ t = errorEntry .invalidInput Cause.zero Cause.zero s) ∨
     (s.inValid = true ∧ finish (f s.inBuf) (discardCallScoped s) = .next t)) := by
  cases hl : Params.legal s.cfg with
  | false => rw [runCommand_illegal hl] at h; cases h
  | true =>
    refine ⟨rfl, ?_⟩
    cases hv : s.inValid with
    | false => rw [runCommand_unloaded hl hv] at h; exact .inl ⟨rfl, by simpa using h.symm⟩
    | true => rw [runCommand_loaded hl hv] at h; exact .inr ⟨rfl, h⟩

/-! ### The meanings -/

/-- The function that a command runs on its input block; for `DECOMPRESS`, the decoder its tag names (RAW's where it
names none: that case never runs a function). -/
def resultFn (i : Instr) (s : State) : Block → CommandResult :=
  match i with
  | .rawEnc => rawEncResult s.cfg
  | .rleEnc => rleEncResult s.cfg
  | .dictEnc => dictEncResult s.cfg
  | .deltaEnc => deltaEncResult s.cfg
  | .hybEnc => hybEncResult s.cfg
  | .compress hyb _ => compressResult s.cfg hyb (gateOperand s)
  | .rawDec => rawDecResult s.cfg
  | .rleDec => rleDecResult s.cfg
  | .dictDec => dictDecResult s.cfg
  | .deltaDec => deltaDecResult s.cfg
  | .hybDec => hybDecResult s.cfg
  | .decompress => decoderResult s.cfg ((strategyOperand s).getD .raw)

/-- R71: a tag names a strategy exactly when it is at most 4. -/
theorem strategyOf_eq_none_iff (t : Nat) : strategyOf t = none ↔ 5 ≤ t := by
  match t with
  | 0 | 1 | 2 | 3 | 4 => simp [strategyOf]
  | n + 5 => simp [strategyOf]

/-- R243 step 2: `DECOMPRESS` with an unknown tag. -/
theorem exec_decompress_unknown {s : State} (hl : Params.legal s.cfg = true) (ht : 5 ≤ s.recStrategy) :
    exec .decompress s = .next (errorEntry .unknownStrategy (tagCause s.recStrategy) Cause.zero s) := by
  have : strategyOperand s = none := (strategyOf_eq_none_iff _).mpr ht
  simp [exec, execDecompress, hl, this]

/-- R243 steps 3 and 4: every other command runs its function on its input. -/
theorem exec_eq_runCommand {i : Instr} {s : State} (h : i = .decompress → s.recStrategy ≤ 4) :
    exec i s = runCommand (resultFn i s) s := by
  cases i with
  | decompress =>
    have : strategyOperand s ≠ none := fun e => by
      have := (strategyOf_eq_none_iff _).mp e
      have := h rfl
      omega
    obtain ⟨k, hk⟩ := Option.ne_none_iff_exists'.mp this
    cases hl : Params.legal s.cfg with
    | false => rw [runCommand_illegal hl]; simp [exec, execDecompress, hl]
    | true => simp [exec, execDecompress, resultFn, hk, hl]
  | _ => rfl

/-- R243: what a command can do when it answers a next state. -/
theorem exec_next {i : Instr} {s t : State} (h : exec i s = .next t) :
    Params.legal s.cfg = true ∧
    ((i = .decompress ∧ 5 ≤ s.recStrategy ∧
        t = errorEntry .unknownStrategy (tagCause s.recStrategy) Cause.zero s) ∨
     ((i = .decompress → s.recStrategy ≤ 4) ∧ s.inValid = false ∧
        t = errorEntry .invalidInput Cause.zero Cause.zero s) ∨
     ((i = .decompress → s.recStrategy ≤ 4) ∧ s.inValid = true ∧
        finish (resultFn i s s.inBuf) (discardCallScoped s) = .next t)) := by
  by_cases hd : i = .decompress ∧ 5 ≤ s.recStrategy
  · obtain ⟨rfl, ht⟩ := hd
    cases hl : Params.legal s.cfg with
    | false => simp [exec, execDecompress, hl] at h
    | true =>
      rw [exec_decompress_unknown hl ht] at h
      exact ⟨rfl, .inl ⟨rfl, ht, by simpa using h.symm⟩⟩
  · have hd' : i = .decompress → s.recStrategy ≤ 4 := fun e => by
      have : ¬ 5 ≤ s.recStrategy := fun h => hd ⟨e, h⟩
      omega
    rw [exec_eq_runCommand hd'] at h
    obtain ⟨hl, h⟩ := runCommand_next h
    exact ⟨hl, .inr (h.imp (fun g => ⟨hd', g⟩) (fun g => ⟨hd', g⟩))⟩

/-! ### Host moves and the step -/

/-- R42: what a host move can do when it answers a next state. -/
theorem perform_next {m : HostMove} {s t : State} (h : perform m s = .next t) :
    Params.legal s.cfg = true ∧
    ((∃ x, m = .load x ∧ fitsIn s.cfg x = true ∧ t = loadBlock x s) ∨
     (∃ k, m = .setTag k ∧ t = setTag k s) ∨
     (∃ o c, m = .setSizes o c ∧ t = setSizes o c s) ∨
     (∃ r, m = .setEntropy r ∧ t = setEntropy r s) ∨
     (∃ c i, m = .issue c ∧ decode c = .command i ∧ exec i (writeCmd c s) = .next t) ∨
     (∃ c why, m = .issue c ∧ decode c = .illegal why ∧
        t = errorEntry .illegalCommand (wordCause c) Cause.zero (writeCmd c s)) ∨
     (m = .read ∧ t = s) ∨
     (m = .reset ∧ t = hostReset s) ∨
     (m = .moveOutToIn ∧ s.st = stDone ∧ fitsIn s.cfg s.outBuf = true ∧ t = loadBlock s.outBuf s)) := by
  unfold perform at h
  split at h
  · rename_i hl
    refine ⟨hl, ?_⟩
    cases m with
    | load x =>
      simp only [performLegal, hostLoad] at h
      split at h
      · rename_i hf; exact .inl ⟨x, rfl, hf, by simpa using h.symm⟩
      · cases h
    | setTag k => exact .inr (.inl ⟨k, rfl, by simpa [performLegal] using h.symm⟩)
    | setSizes o c => exact .inr (.inr (.inl ⟨o, c, rfl, by simpa [performLegal] using h.symm⟩))
    | setEntropy r => exact .inr (.inr (.inr (.inl ⟨r, rfl, by simpa [performLegal] using h.symm⟩)))
    | issue c =>
      simp only [performLegal, hostIssue] at h
      split at h
      · rename_i i hd; exact .inr (.inr (.inr (.inr (.inl ⟨c, i, rfl, hd, h⟩))))
      · rename_i why hd
        exact .inr (.inr (.inr (.inr (.inr (.inl ⟨c, why, rfl, hd, by simpa [illegalWord] using h.symm⟩)))))
    | read => exact .inr (.inr (.inr (.inr (.inr (.inr (.inl ⟨rfl, by simpa [performLegal] using h.symm⟩))))))
    | reset =>
      exact .inr (.inr (.inr (.inr (.inr (.inr (.inr (.inl ⟨rfl, by simpa [performLegal] using h.symm⟩)))))))
    | moveOutToIn =>
      simp only [performLegal, hostLoad] at h
      split at h
      · rename_i hst
        split at h
        · rename_i hf
          exact .inr (.inr (.inr (.inr (.inr (.inr (.inr (.inr ⟨rfl, hst, hf, by simpa using h.symm⟩)))))))
        · cases h
      · cases h
  · cases h

/-- With no move pending a step changes nothing. -/
theorem step_idle {s : State} (h : s.program = []) : step s = .next s := by
  simp [step, nextMove, h]

/-- R60: a step performs the host's next move on the state with that move taken. -/
theorem step_move {s : State} {m : HostMove} {rest : List HostMove} (h : s.program = m :: rest) :
    step s = perform m (withProgram rest s) := by
  simp [step, nextMove, h]

/-! ### The per-symbol operations -/

@[simp] theorem feed_nil {ρ : Type} (f : ρ → Byte → ρ × Block) (r : ρ) : feed f r [] = (r, []) := rfl

@[simp] theorem feed_cons {ρ : Type} (f : ρ → Byte → ρ × Block) (r : ρ) (b : Byte) (bs : Block) :
    feed f r (b :: bs) = ((feed f (f r b).1 bs).1, (f r b).2 ++ (feed f (f r b).1 bs).2) := rfl

/-- A machine fed two parts in turn. -/
theorem feed_append {ρ : Type} (f : ρ → Byte → ρ × Block) (r : ρ) (x y : Block) :
    feed f r (x ++ y) = ((feed f (feed f r x).1 y).1, (feed f r x).2 ++ (feed f (feed f r x).1 y).2) := by
  induction x generalizing r with
  | nil => simp
  | cons b bs ih => simp [ih, List.append_assoc]

/-- R141: lookup finds the lowest index that holds the byte. -/
theorem lookup_eq_some_iff {b : Byte} {table : Block} {i : Nat} :
    lookup b table = some i ↔ table[i]? = some b ∧ ∀ j < i, table[j]? ≠ some b := by
  induction table generalizing i with
  | nil => simp [lookup]
  | cons c cs ih =>
    unfold lookup at ih ⊢
    rw [List.idxOf?_cons]
    by_cases h : c = b
    · subst h
      cases i with
      | zero => simp
      | succ i => simp only [beq_self_eq_true, if_true, Option.some.injEq]
                  exact ⟨fun e => by omega, fun e => absurd (by simp) (e.2 0 (by omega))⟩
    · have hb : (c == b) = false := by simpa using h
      rw [hb]
      cases i with
      | zero => simp [h]
      | succ i =>
        simp only [Bool.false_eq_true, if_false, Option.map_eq_some_iff, Nat.add_right_cancel_iff,
          exists_eq_right, ih, List.getElem?_cons_succ]
        refine and_congr_right fun _ => ⟨fun g j hj => ?_, fun g j hj => ?_⟩
        · cases j with
          | zero => simpa using h
          | succ j => simpa using g j (by omega)
        · simpa using g (j + 1) (by omega)

/-- R141: lookup is absent exactly on a byte the table does not hold. -/
theorem lookup_eq_none_iff {b : Byte} {table : Block} : lookup b table = none ↔ b ∉ table := by
  simp [lookup, List.idxOf?_eq_none_iff]

/-- R142, R150: fetch reads a slot in use and is absent beyond them. -/
theorem fetch_eq_none_iff {i : Nat} {table : Block} : fetch i table = none ↔ table.length ≤ i := by
  simp [fetch, memRead]

/-- R143: what an append can leave: the table with the value at its end, that value alone after a `LAZY` clear, or the
empty table after an `EAGER` one. -/
theorem append_cases (p : Params) (v : Byte) (table : Block) :
    (p.dictClear = .eager ∧ table.length + 1 = p.dictCap ∧ append p v table = []) ∨
    (p.dictClear = .eager ∧ table.length + 1 ≠ p.dictCap ∧ append p v table = table ++ [v]) ∨
    (p.dictClear = .lazy ∧ table.length = p.dictCap ∧ append p v table = [v]) ∨
    (p.dictClear = .lazy ∧ table.length ≠ p.dictCap ∧ append p v table = table ++ [v]) := by
  cases hc : p.dictClear with
  | eager =>
    by_cases h : table.length + 1 = p.dictCap
    · exact .inl ⟨rfl, h, by simp [append, clearBefore, clearAfter, hc, h]⟩
    · exact .inr (.inl ⟨rfl, h, by simp [append, clearBefore, clearAfter, hc, h]⟩)
  | lazy =>
    by_cases h : table.length = p.dictCap
    · exact .inr (.inr (.inl ⟨rfl, h, by simp [append, clearBefore, clearAfter, hc, h]⟩))
    · exact .inr (.inr (.inr ⟨rfl, h, by simp [append, clearBefore, clearAfter, hc, h]⟩))

/-- R149: what one symbol of the decoder can do. -/
theorem dictDecSymbol_cases (p : Params) (table : Block) (e : Byte) :
    (isLiteral e = true ∧ dictDecSymbol p table e = some (literalValue e, append p (literalValue e) table)) ∨
    (isLiteral e = false ∧ ∃ v, table[e.toNat]? = some v ∧ dictDecSymbol p table e = some (v, table)) ∨
    (isLiteral e = false ∧ table.length ≤ e.toNat ∧ dictDecSymbol p table e = none) := by
  cases hl : isLiteral e with
  | true => exact .inl ⟨rfl, by simp [dictDecSymbol, hl]⟩
  | false =>
    cases hf : table[e.toNat]? with
    | none => exact .inr (.inr ⟨rfl, by simpa using hf, by simp [dictDecSymbol, hl, fetch, memRead, hf]⟩)
    | some v => exact .inr (.inl ⟨rfl, v, rfl, by simp [dictDecSymbol, hl, fetch, memRead, hf]⟩)

/-- R81: the literal flag is set exactly on the codes from 0x80 on. -/
theorem isLiteral_iff (e : Byte) : isLiteral e = true ↔ 128 ≤ e.toNat := by
  revert e; decide

/-- R152: an emission in front of a decode raises exactly when the decode does. -/
theorem emit_eq_raised_iff {v : Byte} {d : Decoded} {c : Cause} : d.emit v = .raised c ↔ d = .raised c := by
  cases d <;> simp [Decoded.emit]

/-- An emission in front of a decode that succeeds. -/
theorem emit_eq_ok_iff {v : Byte} {d : Decoded} {out : Block} :
    d.emit v = .ok out ↔ ∃ rest, d = .ok rest ∧ out = v :: rest := by
  cases d <;> simp [Decoded.emit, eq_comm]

/-- R201: the running best after one candidate is the candidate when strictly smaller, and the best otherwise. -/
theorem keepSmaller_cases (best c : Choice) :
    (c.payload.length < best.payload.length ∧ keepSmaller best c = c) ∨
    (best.payload.length ≤ c.payload.length ∧ keepSmaller best c = best) := by
  by_cases h : c.payload.length < best.payload.length
  · exact .inl ⟨h, by simp [keepSmaller, h]⟩
  · exact .inr ⟨by omega, by simp [keepSmaller, h]⟩

end Sys2Proof.Machine
end

