-- ==== Sys2Proof/Laws/PerInstr.lean ====
section
/-! SUPPORT. The family `WordFields`: the fields that the decoder extracts from a command's word are those of the command
(R73, R74), one lemma per constructor of `Instr`. -/

namespace Sys2Proof.Laws.WordFields

/-- The fields extracted from the word of `i` are the fields of `i`, and the word is a table word of eight bits. -/
def Statement (i : Instr) : Prop :=
  fieldsOf (encode i) = i.fields ∧ decodeTableWord 8 (encode i).toNat = some i

theorem rawEnc : Statement .rawEnc := by unfold Statement; decide
theorem rleEnc : Statement .rleEnc := by unfold Statement; decide
theorem dictEnc : Statement .dictEnc := by unfold Statement; decide
theorem deltaEnc : Statement .deltaEnc := by unfold Statement; decide
theorem hybEnc : Statement .hybEnc := by unfold Statement; decide
theorem compress (hyb acc : Bool) : Statement (.compress hyb acc) := by
  unfold Statement; revert hyb acc; decide
theorem rawDec : Statement .rawDec := by unfold Statement; decide
theorem rleDec : Statement .rleDec := by unfold Statement; decide
theorem dictDec : Statement .dictDec := by unfold Statement; decide
theorem deltaDec : Statement .deltaDec := by unfold Statement; decide
theorem hybDec : Statement .hybDec := by unfold Statement; decide
theorem decompress : Statement .decompress := by unfold Statement; decide

end Sys2Proof.Laws.WordFields
end

