-- ==== Sys2Proof/Laws/Supported.lean ====
section
/-! SUPPORT. The laws of R285 follow from the statements for the provers. -/

namespace Sys2Proof.Laws

open Sys2Proof.Machine Sys2Proof.Safety

/-- R285: a command ends in a next state or gives no result; nothing else can happen. -/
theorem exec_terminates (i : Instr) (s : State) : (∃ t, exec i s = .next t) ∨ ∃ r, exec i s = .refused r := by
  cases exec i s with
  | next t => exact .inl ⟨t, rfl⟩
  | fault f => exact nomatch f
  | refused r => exact .inr ⟨r, rfl⟩

/-- R285, from the rules it names. -/
theorem supportedLaws_of_statements
    (rle : Obligations.RleRoundTrip) (delta : Obligations.DeltaRoundTrips)
    (dict : Obligations.DictLosslessIffSevenBit) (hybrid : Obligations.HybRoundTrip)
    (record : Obligations.RecordInvariants) (never : Obligations.DeltaAndDictNeverWin)
    (gate : Obligations.GateAndAccelerationAreIrrelevant) (back : Obligations.CompressDecompressRoundTrip)
    (operands : Obligations.AnswersDependOnOperandsOnly) : SupportedLaws where
  rle := rle.1
  deltaSelf x i b h := by rw [delta.1 x, List.getElem?_map, h]; rfl
  deltaLiteral := delta.2.2
  dict p x hp := (dict p x hp).1
  hybrid := hybrid
  record s t hyb acc h hst := by
    obtain ⟨hc, ho, hle, k, hk⟩ := record s t hyb acc h hst
    obtain ⟨n2, n3⟩ := never.2.2 s t hyb acc h hst
    refine ⟨?_, hc, hc ▸ hle, ho⟩
    cases k <;> simp_all [tagOf]
  recordIndependent s hyb acc acc' h current := by
    rw [gate.2.1 _ hyb acc' acc]
    exact gate.2.2 s hyb acc h current
  comesBack s t hyb acc h hst hk := by
    have hb := back s t hyb acc h hst
    rcases hk with hk | hk | hk
    · exact hb.2.1 (by omega)
    · exact hb.2.1 (by omega)
    · exact (hb.1 hk).2
  terminates := exec_terminates
  independent := operands.1

end Sys2Proof.Laws
end

