-- ==== Sys2Proof/Machine/Assembler.lean ====
section
/-! DEFINITION. The notation of host programs (R88), one move a line, read from characters. -/

namespace Sys2Proof.Machine

/-- R88: a `;` starts a comment. -/
def stripComment (line : List Char) : List Char := line.takeWhile (· != ';')

/-- The words of a line, separated by spaces. -/
def lineWords (line : List Char) : List (List Char) := (line.splitOnP (· == ' ')).filter (!·.isEmpty)

/-- The digits of R88's hexadecimal bytes and decimal numbers, each at the index it stands for. -/
def digits : List Char := "0123456789ABCDEF".toList

/-- The value of a digit in base `base`. -/
def digitValue (base : Nat) (c : Char) : Option Nat := (digits.take base).idxOf? c.toUpper

/-- R88: a two-digit hexadecimal byte. -/
def hexByte (w : List Char) : Option Byte :=
  match w with
  | [h, l] => do return BitVec.ofNat 8 (16 * (← digitValue 16 h) + (← digitValue 16 l))
  | _ => none

/-- A run of decimal digits, most significant first. -/
def decimalDigits (w : List Char) : Option Nat :=
  w.foldl (fun acc c => do return 10 * (← acc) + (← digitValue 10 c)) (some 0)

/-- R88: a decimal number. -/
def decimal (w : List Char) : Option Nat := if w.isEmpty then none else decimalDigits w

/-- R88: a decimal number with or without a fraction. -/
def decimalRat (w : List Char) : Option Rat :=
  match w.splitOnP (· == '.') with
  | [whole] => do return mkRat (← decimal whole) 1
  | [whole, frac] => do
    return mkRat ((← decimal whole) * 10 ^ frac.length + (← decimal frac)) (10 ^ frac.length)
  | _ => none

/-- R88: the flags written after `COMPRESS`; an omitted flag takes the source's default. -/
def compressFlags : List (List Char) → Option (Bool × Bool)
  | [] => some (Config.hybDefault, Config.accDefault)
  | ['h', 'y', 'b', '=', '0'] :: ws => (compressFlags ws).map fun f => (false, f.2)
  | ['h', 'y', 'b', '=', '1'] :: ws => (compressFlags ws).map fun f => (true, f.2)
  | ['a', 'c', 'c', '=', '0'] :: ws => (compressFlags ws).map fun f => (f.1, false)
  | ['a', 'c', 'c', '=', '1'] :: ws => (compressFlags ws).map fun f => (f.1, true)
  | _ => none

/-- R74: the commands without operands, by mnemonic. -/
def plainMnemonics : List (List Char × Instr) :=
  [("RAW.ENC".toList, .rawEnc), ("RLE.ENC".toList, .rleEnc), ("DICT.ENC".toList, .dictEnc),
   ("DELTA.ENC".toList, .deltaEnc), ("HYB.ENC".toList, .hybEnc), ("RAW.DEC".toList, .rawDec),
   ("RLE.DEC".toList, .rleDec), ("DICT.DEC".toList, .dictDec), ("DELTA.DEC".toList, .deltaDec),
   ("HYB.DEC".toList, .hybDec), ("DECOMPRESS".toList, .decompress)]

/-- R88: the move that a line's words write. -/
def moveOfWords (words : List (List Char)) : Option HostMove :=
  match words with
  | [] => none
  | w :: ws =>
    if w = "LOAD".toList then (ws.mapM hexByte).map .load
    else if w = "COMPRESS".toList then (compressFlags ws).map fun f => .issue (encode (.compress f.1 f.2))
    else match ws with
      | [] =>
        if w = "MOVE".toList then some .moveOutToIn
        else if w = "RESET".toList then some .reset
        else (plainMnemonics.lookup w).map fun i => .issue (encode i)
      | [a] =>
        if w = "TAG".toList then
          (decimal a).bind fun t => if t < 256 then some (.setTag (BitVec.ofNat 8 t)) else none
        else if w = "ENTROPY".toList then (decimalRat a).map .setEntropy
        else if w = ".word".toList then
          match a with
          | '0' :: 'x' :: h => (hexByte h).map .issue
          | _ => none
        else none
      | [a, b] => if w = "SIZES".toList then do return .setSizes (← decimal a) (← decimal b) else none
      | _ => none

/-- R88: a program, one move a line; a line that is empty or only a comment writes none. -/
def assemble : List (List Char) → Option (List HostMove)
  | [] => some []
  | line :: rest =>
    match lineWords (stripComment line) with
    | [] => assemble rest
    | words => do return (← moveOfWords words) :: (← assemble rest)

end Sys2Proof.Machine
end

