-- ==== Sys2Proof/Tests/Slice0.lean ====
section
/-! SUPPORT. Tests: the refused word fields, a word written out for every command, the worked vectors of
spec/95_test_vectors.md (their ids are in the docstrings), and for every statement with hypotheses a concrete state and
operands that meet them. -/

namespace Sys2Proof.Tests

open Sys2Proof.Machine Sys2Proof.Safety
open Host (Outcome)

/-! ### Well-formedness and decoding -/

/-- Reserved bits set. -/
theorem test_reserved_bits_ill_formed :
    (CmdFields.mk 1 false false false 7).wf = false ∧ (CmdFields.mk 1 false false false 7).reservedOk = false := by decide

/-- `sel` 5 and 6. -/
theorem test_reserved_selector_ill_formed :
    (CmdFields.mk 0 false false true 5).wf = false ∧ (CmdFields.mk 0 false false true 5).selectorOk = false ∧
    (CmdFields.mk 0 false false false 6).selectorOk = false := by decide

/-- A flag on a command that is not `COMPRESS`. -/
theorem test_flag_outside_compress_ill_formed :
    (CmdFields.mk 0 false true true 7).wf = false ∧ (CmdFields.mk 0 false true true 7).flagsOk = false ∧
    (CmdFields.mk 0 true false false 0).flagsOk = false := by decide

theorem test_decode_raw_enc : decode 0b00000000 = .command .rawEnc := by decide
theorem test_decode_rle_enc : decode 0b00000001 = .command .rleEnc := by decide
theorem test_decode_dict_enc : decode 0b00000010 = .command .dictEnc := by decide
theorem test_decode_delta_enc : decode 0b00000011 = .command .deltaEnc := by decide
theorem test_decode_hyb_enc : decode 0b00000100 = .command .hybEnc := by decide
theorem test_decode_compress : decode 0b00000111 = .command (.compress false false) ∧
    decode 0b00010111 = .command (.compress true false) ∧ decode 0b00100111 = .command (.compress false true) ∧
    decode 0b00110111 = .command (.compress true true) := by decide
theorem test_decode_raw_dec : decode 0b00001000 = .command .rawDec := by decide
theorem test_decode_rle_dec : decode 0b00001001 = .command .rleDec := by decide
theorem test_decode_dict_dec : decode 0b00001010 = .command .dictDec := by decide
theorem test_decode_delta_dec : decode 0b00001011 = .command .deltaDec := by decide
theorem test_decode_hyb_dec : decode 0b00001100 = .command .hybDec := by decide
theorem test_decode_decompress : decode 0b00001111 = .command .decompress := by decide

/-- The illegal words of 95_test_vectors.md 2.15. -/
theorem test_decode_illegal :
    ([0x05, 0x06, 0x0D, 0x0E, 0x10, 0x11, 0x1F, 0x2F, 0x3F, 0x40, 0x47, 0x80, 0xFF] : List Byte).all
      (fun c => (decode c).toOption.isNone) = true := by decide

/-! ### Vectors -/

/-- A state right after reset in which the block `x` has been loaded and an entropy of 0 presented for it. -/
def loaded (x : Block) : State := { State.reset with inBuf := x, inValid := true, hInCurrent := true }

/-- The same with a tag. -/
def tagged (t : Nat) (x : Block) : State := { loaded x with recStrategy := t }

/-- A completed command other than `COMPRESS`. -/
def answers (out : Block) : Answer ⊕ Refusal := .inl ⟨out, 2, 0, Cause.zero, Cause.zero, none⟩

/-- A failed command. -/
def fails (k : Byte) (a b : Cause) : Answer ⊕ Refusal := .inl ⟨[], 3, k, a, b, none⟩

/-- What command `i` answers on the block `x`. -/
def run (i : Instr) (x : Block) : Answer ⊕ Refusal := answerOf i (exec i (loaded x))

/-- 2.14. -/
theorem test_raw_enc : run .rawEnc [1, 2, 3] = answers [1, 2, 3] := by decide
/-- 2.14. -/
theorem test_raw_dec : run .rawDec [1, 2, 3] = answers [1, 2, 3] := by decide

/-- RE10. -/
theorem test_rle_enc_300 : run .rleEnc (List.replicate 300 0x41) = answers [0x41, 0xFF, 0x41, 0x2D] := by
  decide +kernel
/-- RE13. -/
theorem test_rle_enc_runs :
    run .rleEnc (List.replicate 255 0x41 ++ [0x42, 0x41, 0x41]) = answers [0x41, 0xFF, 0x42, 0x01, 0x41, 0x02] := by
  decide +kernel

/-- RD5. -/
theorem test_rle_dec_zero_pair : run .rleDec [0x41, 0x00, 0x42, 0x02] = answers [0x42, 0x42] := by decide
/-- RD6. -/
theorem test_rle_dec_odd_tail : run .rleDec [0x41, 0x02, 0x42] = answers [0x41, 0x41] := by decide

/-- DE5. -/
theorem test_delta_enc_self : run .deltaEnc [0x0A, 0x07, 0xFF, 0x00] = answers [0x00, 0xFD, 0xF8, 0x01] := by
  decide
/-- DL3. -/
theorem test_delta_enc_literal : deltaEnc .literal [0x0A, 0x07, 0xFF, 0x00] = [0x0A, 0xFD, 0xF8, 0x01] := by decide

/-- DD8. -/
theorem test_delta_dec : run .deltaDec [0x0A, 0xFD, 0xF8, 0x01] = answers [0x0A, 0x07, 0xFF, 0x00] := by decide
/-- DD5. -/
theorem test_delta_dec_wraps : run .deltaDec [0x80, 0x80, 0x80] = answers [0x80, 0x00, 0x80] := by decide

/-- XE10. -/
theorem test_dict_enc : run .dictEnc [0x41, 0xC1, 0x41, 0xC1] = answers [0xC1, 0xC1, 0x00, 0x01] := by decide

/-- 2.10: SC1 to SC8, each with its table after the last symbol. -/
theorem test_dict_enc_capacities :
    let x : Block := [0x41, 0x42, 0x41, 0x42, 0x43, 0x43, 0x41]
    let at_ := fun c k => let p : Params := { dictCap := c, dictClear := k }; (dictEnc p x, encTable p x)
    at_ 1 .eager = ([0xC1, 0xC2, 0xC1, 0xC2, 0xC3, 0xC3, 0xC1], []) ∧
    at_ 2 .eager = ([0xC1, 0xC2, 0xC1, 0xC2, 0xC3, 0x00, 0xC1], []) ∧
    at_ 3 .eager = ([0xC1, 0xC2, 0x00, 0x01, 0xC3, 0xC3, 0xC1], [0x43, 0x41]) ∧
    at_ 4 .eager = ([0xC1, 0xC2, 0x00, 0x01, 0xC3, 0x02, 0x00], [0x41, 0x42, 0x43]) ∧
    at_ 1 .lazy = ([0xC1, 0xC2, 0xC1, 0xC2, 0xC3, 0x00, 0xC1], [0x41]) ∧
    at_ 2 .lazy = ([0xC1, 0xC2, 0x00, 0x01, 0xC3, 0x00, 0xC1], [0x43, 0x41]) ∧
    at_ 3 .lazy = ([0xC1, 0xC2, 0x00, 0x01, 0xC3, 0x02, 0x00], [0x41, 0x42, 0x43]) ∧
    at_ 4 .lazy = ([0xC1, 0xC2, 0x00, 0x01, 0xC3, 0x02, 0x00], [0x41, 0x42, 0x43]) := by decide

/-- XD9: a duplicate literal makes index 1 valid. -/
theorem test_dict_dec : run .dictDec [0x81, 0x81, 0x00, 0x01] = answers [1, 1, 1, 1] := by decide
/-- XD10, EV10. -/
theorem test_dict_dec_fails : run .dictDec [0x85, 0x86, 0x01, 0x00, 0x02] = fails 2 ⟨2, 4, 2, 2⟩ Cause.zero := by
  decide

/-- DI1: the code stream of the bytes 0x00 to 0x81, then 0x80, 0x81, 0x00. -/
theorem test_dict_collision :
    let x : Block := (List.range 130).map (BitVec.ofNat 8) ++ [0x80, 0x81, 0x00]
    (dictEnc {} x).drop 124 = [0xFC, 0xFD, 0xFE, 0xFF, 0x80, 0x81, 0x80, 0x81, 0x00] ∧
    (match dictDec {} (dictEnc {} x) with | .ok out => out.drop 124 | .raised _ => []) =
      [0x7C, 0x7D, 0x7E, 0x7F, 0x00, 0x01, 0x00, 0x01, 0x00] := by decide +kernel

/-- HE5: the tie keeps pipeline (a). -/
theorem test_hyb_enc_tie : run .hybEnc [0x41, 0x42, 0x43] = answers [0xC1, 0x81, 0xC2, 0x01, 0xC3, 0x01] := by
  decide
/-- HE6: pipeline (b). -/
theorem test_hyb_enc_b :
    run .hybEnc [0x01, 0x81, 0x02, 0x82, 0x01, 0x01, 0x01, 0x01] = answers [0x81, 0x02, 0x82, 0x02, 0x00, 0x04] := by
  decide

/-- HD10, EV12: attempt (b), the causes cleared. -/
theorem test_hyb_dec_b : run .hybDec [0x81, 0x01, 0x00, 0x03] = answers [1, 1, 1, 1] := by decide
/-- HD8, EV18. -/
theorem test_hyb_dec_fails : run .hybDec [0x00, 0x02, 0x01, 0x01] = fails 3 ⟨2, 0, 0, 0⟩ ⟨2, 0, 0, 0⟩ := by
  decide

/-- CO10: the hybrid win. -/
theorem test_compress_hybrid :
    run (.compress true false) [0x01, 0x81, 0x02, 0x82, 0x01, 0x01, 0x01, 0x01] =
      .inl ⟨[0x81, 0x02, 0x82, 0x02, 0x00, 0x04], 2, 0, Cause.zero, Cause.zero, some (4, 8, 6)⟩ := by decide
/-- CO5: the tie between RLE and HYBRID. -/
theorem test_compress_rle :
    run (.compress true true) [0x41, 0x41, 0x41, 0x41, 0x42, 0x42, 0x42, 0x42] =
      .inl ⟨[0x41, 0x04, 0x42, 0x04], 2, 0, Cause.zero, Cause.zero, some (1, 8, 4)⟩ := by decide

/-- DC2 and DC4. -/
theorem test_decompress :
    answerOf .decompress (exec .decompress (tagged 1 [0x41, 0x02, 0x42, 0x03])) =
      answers [0x41, 0x41, 0x42, 0x42, 0x42] ∧
    answerOf .decompress (exec .decompress (tagged 3 [0x05, 0x01, 0x01])) = answers [0x05, 0x06, 0x07] := by
  decide
/-- DC8 and DC10. -/
theorem test_decompress_fails :
    answerOf .decompress (exec .decompress (tagged 4 [0x05, 0x01])) = fails 3 ⟨2, 0, 5, 0⟩ ⟨2, 0, 5, 0⟩ ∧
    answerOf .decompress (exec .decompress (tagged 7 [0x41, 0x02])) = fails 4 ⟨4, 0, 7, 0⟩ Cause.zero := by
  decide

/-- 1.2: scenario S1. -/
def scenario1 : Block :=
  (List.replicate 3 ([1, 1, 1, 1, 2, 2, 3, 3, 3, 3, 3, 3, 4, 5, 6, 7] : Block)).flatten ++
    [9, 9, 9, 9, 9, 9, 8, 8, 8, 7, 6, 5, 4, 3, 2, 1]

/-- 1.2: the lengths of S1's candidates, the winner and the round trip. -/
theorem test_scenario1 :
    (candidates {} true true scenario1).map (fun c => c.payload.length) = [64, 60, 64, 64, 60] ∧
    (select {} true true scenario1).strategy = .rle ∧ (pipeB {} scenario1).length = 70 ∧
    rleDec (select {} true true scenario1).payload = scenario1 := by decide

/-- 3.1 and 3.4: the registers of the RLE encoder after `07 07 07 08 07 07` and of the delta decoder after
`00 FD F8 01`. -/
theorem test_datapath_registers :
    (feed rleEncByte (rleEncStart ⟨true, 9, 9⟩) [7, 7, 7, 8, 7, 7]).1 = ⟨true, 7, 2⟩ ∧
    (feed deltaDecByte (deltaStart ⟨false, 1, 2⟩) [0x00, 0xFD, 0xF8, 0x01]).1.acc = 0xF6 := by decide

/-- R66: a write at the length appends below the capacity and is undefined at it. -/
theorem test_mem_write_capacity :
    memWrite (capacityOf { dictCap := 2 } .dictMem) [7] 1 8 = some [7, 8] ∧
    memWrite (capacityOf { dictCap := 2 } .dictMem) [7, 8] 2 9 = none ∧
    memWrite (capacityOf {} .outBuf) [7] 2 8 = none := by decide

/-! ### Host programs -/

/-- 3.2, R88: a program of section 5's notation, read and run from reset. -/
def runText (lines : List String) : Option (Byte × BitVec 2 × Cause × Block) :=
  match assemble (lines.map String.toList) with
  | none => none
  | some ms =>
    match performAll ms State.reset with
    | .next t => some (t.err, t.st, t.causeA, t.outBuf)
    | .fault r => nomatch r
    | .refused _ => none

/-- EV6, EV14, EV16: the order of checks, and an error after a success. -/
theorem test_programs_errors :
    runText ["TAG 9", ".word 0x1F"] = some (5, 3, ⟨5, 0, 31, 0⟩, []) ∧
    runText ["LOAD 41 03", "RLE.DEC", ".word 0x06"] = some (5, 3, ⟨5, 0, 6, 0⟩, []) ∧
    runText ["LOAD 41 03", "TAG 200", "DECOMPRESS"] = some (4, 3, ⟨4, 0, 200, 0⟩, []) := by decide

/-- P2, first half: the hybrid record comes back wrong. -/
theorem test_program_hybrid_win :
    runText ["LOAD 01 81 02 82 01 01 01 01", "ENTROPY 1.5488", "COMPRESS hyb=1 acc=0    ; CMD <- 0x17", "MOVE",
      "DECOMPRESS              ; CMD <- 0x0F"] =
      some (0, 2, Cause.zero, [0x01, 0x01, 0x02, 0x02, 0x01, 0x01, 0x01, 0x01]) := by decide

/-- R88: `COMPRESS` with no flags is the word 0x17. -/
theorem test_compress_default : encode Instr.compressDefault = 0x17 ∧
    assemble [("COMPRESS").toList] = some [.issue 0x17] := by decide

/-- The first instruction after reset, placed by `withFetchWord`: EV2. -/
theorem test_fetch_word : ∃ t, step (State.reset.withFetchWord 8 0x01) = .next t ∧ t.err = 1 ∧ t.cmd = 1 :=
  ⟨_, rfl, by decide⟩

/-! ### Witnesses

One theorem for each statement with hypotheses: a concrete state and operands that meet them, clause by clause, at
boundary values of their ranges. -/

/-- A block built with `N_MAX` = 2, `M_MAX` = 3 and `SIZE_W` = 2, the least width that holds both. -/
def smallBlock : Params := { nMax := some 2, mMax := some 3, sizeW := some 2 }

/-- A state with a program and a block built with the parameters `p`. -/
def driven (p : Params) (ms : List HostMove) (s : State) : State := { s with cfg := p, program := ms }

theorem test_witness_decode : decode 0x37 = .command (.compress true true) ∧ decode 0x00 = .command .rawEnc := by decide

theorem test_witness_illegal_word :
    let s := driven {} [.issue 0x05] State.reset
    Params.legal s.cfg = true ∧ s.program = .issue 0x05 :: [] ∧ decode 0x05 = .illegal .reservedSelector ∧
    decode 0xFF = .illegal .reservedBits ∧ decode 0x38 = .illegal .flagOutsideCompress := by decide

theorem test_witness_issue :
    let s := driven {} [.issue 0x0F, .read] State.reset
    Params.legal s.cfg = true ∧ s.program = .issue 0x0F :: [.read] ∧ decode 0x0F = .command .decompress := by decide

theorem test_witness_host_moves :
    Params.legal smallBlock = true ∧
    (driven smallBlock [.load [1, 2]] State.reset).program = .load [1, 2] :: [] ∧ fitsIn smallBlock [1, 2] = true ∧
    (driven smallBlock [.setTag 255] State.reset).program = .setTag 255 :: [] ∧
    fitsTag smallBlock (255 : Byte).toNat = true ∧
    fitsTag { tagW := 3 } (7 : Byte).toNat = true ∧ fitsTag { tagW := 3 } (8 : Byte).toNat = false ∧
    (driven smallBlock [.setSizes 3 4] State.reset).program = .setSizes 3 4 :: [] ∧
    fitsSize smallBlock 3 = true ∧ fitsSize smallBlock 0 = true ∧ fitsSize smallBlock 4 = false ∧
    (driven smallBlock [.setEntropy 8] State.reset).program = .setEntropy 8 :: [] ∧
    (driven smallBlock [.read] State.reset).program = .read :: [] ∧
    (driven smallBlock [.moveOutToIn] (successExit [1, 2] State.reset)).program = .moveOutToIn :: [] ∧
    (successExit [1, 2] State.reset).st = 2 ∧ fitsIn smallBlock (successExit [1, 2] State.reset).outBuf = true ∧
    (driven smallBlock [] State.reset).program = [] := by decide

theorem test_witness_illegal_host_moves :
    Params.legal smallBlock = true ∧
    (driven smallBlock [.load [1, 2, 3]] State.reset).program = .load [1, 2, 3] :: [] ∧
    fitsIn smallBlock [1, 2, 3] = false ∧
    (driven smallBlock [.moveOutToIn] State.reset).program = .moveOutToIn :: [] ∧ State.reset.st ≠ 2 ∧
    (driven smallBlock [.moveOutToIn] (successExit [1, 2, 3] State.reset)).program = .moveOutToIn :: [] ∧
    (successExit [1, 2, 3] State.reset).st = 2 ∧ fitsIn smallBlock (successExit [1, 2, 3] State.reset).outBuf = false ∧
    Params.legal { dictCap := 0 } = false ∧ Params.legal { dictCap := 257 } = false ∧
    Params.legal { nMax := some 2, mMax := some 4, sizeW := some 2 } = false ∧ Params.legal { tagW := 2 } = false ∧
    (driven { dictCap := 0 } [.read] State.reset).program = .read :: [] := by decide

theorem test_witness_reset :
    let s := driven smallBlock [.reset] (loaded [1, 2])
    Params.legal s.cfg = true ∧ s.program = .reset :: [] := by decide

/-- A state other than reset that meets the invariant and takes a step. -/
theorem test_witness_invariant :
    Inv (driven smallBlock [.issue 0x09] (loaded [7, 2])) ∧
    ∃ t, step (driven smallBlock [.issue 0x09] (loaded [7, 2])) = .next t ∧ t.outBuf = [7, 7] :=
  ⟨{ legal := by decide
     status := .inl ⟨rfl, rfl, rfl, rfl, rfl⟩
     unloaded := by decide
     spaces := fun k => by cases k <;> decide
     tagFits := by decide
     tagByte := by decide
     origFits := by decide
     compFits := by decide
     rdFits := by decide
     bestTagFits := by decide
     savedPosFits := by decide }, _, rfl, by decide⟩

/-- The value of `ERR` in the next state, none where there is no next state. -/
def errOf : Outcome State Fault Refusal → Option Byte
  | .next t => some t.err
  | .fault r => nomatch r
  | .refused _ => none

/-- An outcome with a value of `ERR` is a next state with that value. -/
theorem errOf_eq_some {o : Outcome State Fault Refusal} {k : Byte} :
    errOf o = some k ↔ ∃ t, o = .next t ∧ t.err = k := by
  cases o with
  | next t => simp [errOf]
  | fault r => exact nomatch r
  | refused r => simp [errOf]

theorem test_witness_no_block :
    Params.legal State.reset.cfg = true ∧ State.reset.inValid = false ∧
    ({ State.reset with recStrategy := 4 } : State).recStrategy ≤ 4 := by decide

theorem test_witness_unknown_tag :
    (5 ≤ (tagged 5 []).recStrategy ∧ 5 ≤ (tagged 255 []).recStrategy ∧
      Params.legal (tagged 5 []).cfg = true) ∧
    (∃ t, exec .decompress (tagged 5 []) = .next t ∧ t.err = 4) ∧
    ∃ t, exec (.compress true false) (loaded []) = .next t ∧ t.st = 2 :=
  ⟨by decide, ⟨_, rfl, by decide⟩, ⟨_, rfl, by decide⟩⟩

/-- A command that ends in each error, and one that completes. -/
theorem test_witness_errors :
    (∃ t, exec .rawEnc (loaded []) = .next t ∧ t.err = 0) ∧
    (∃ t, exec .rawEnc State.reset = .next t ∧ t.err = 1) ∧
    (∃ t, exec .dictDec (loaded [0x00]) = .next t ∧ t.err = 2) ∧
    (∃ t, exec .decompress (tagged 2 [0x7F]) = .next t ∧ t.err = 2) ∧
    (∃ t, exec .hybDec (loaded [0x05, 0x01]) = .next t ∧ t.err = 3) ∧
    (∃ t, exec .decompress (tagged 4 [0x05, 0x01]) = .next t ∧ t.err = 3) ∧
    (∃ t, exec .decompress (tagged 255 []) = .next t ∧ t.err = 4) := by
  simp only [← errOf_eq_some]; decide

theorem test_witness_error_entry :
    let s := driven {} [.issue 0x0A] (loaded [0x81, 0x01])
    (s.program = .issue 0x0A :: [] ∧ ∃ t, step s = .next t ∧ t.err ≠ 0) ∧
    decode 0x17 = .command (.compress true false) ∧
    ∃ t, step (driven {} [.issue 0x17] State.reset) = .next t ∧ t.err ≠ 0 :=
  ⟨⟨rfl, _, rfl, by decide⟩, by decide, _, rfl, by decide⟩

theorem test_witness_success_exit :
    let s := driven {} [.issue 0x0A] (loaded [0x81, 0x00])
    s.program = .issue 0x0A :: [] ∧ (∃ t, step s = .next t ∧ t.err = 0) ∧
    ¬ ∃ hyb acc, decode 0x0A = .command (.compress hyb acc) :=
  ⟨rfl, ⟨_, rfl, by decide⟩, by decide⟩

/-- One step for every value of `ERR`. -/
theorem test_witness_causes :
    (∃ t, step (driven {} [.issue 0x00] (loaded [])) = .next t ∧ t.err = 0) ∧
    (∃ t, step (driven {} [.issue 0x00] State.reset) = .next t ∧ t.err = 1) ∧
    (∃ t, step (driven {} [.issue 0x0A] (loaded [0x7F])) = .next t ∧ t.err = 2) ∧
    (∃ t, step (driven {} [.issue 0x0C] (loaded [0x03, 0x02])) = .next t ∧ t.err = 3) ∧
    (∃ t, step (driven {} [.issue 0x0F] (tagged 5 [])) = .next t ∧ t.err = 4) ∧
    (∃ t, step (driven {} [.issue 0xFF] State.reset) = .next t ∧ t.err = 5) := by
  simp only [← errOf_eq_some]; decide

/-- The four conditions of R243, where they meet: an illegal word with a bad tag and no block; a bad tag with no block;
no block; a block whose decode fails. -/
theorem test_witness_checks :
    let s := driven {} [.issue 0x1F] { State.reset with recStrategy := 9 }
    let t := driven {} [.issue 0x0F] { State.reset with recStrategy := 5 }
    let u := driven {} [.issue 0x0F] { State.reset with recStrategy := 4 }
    let v := driven {} [.issue 0x0F] (tagged 2 [0x00])
    Params.legal s.cfg = true ∧ s.program = .issue 0x1F :: [] ∧ decode 0x1F = .illegal .flagOutsideCompress ∧
    t.program = .issue 0x0F :: [] ∧ decode 0x0F = .command .decompress ∧ 5 ≤ t.recStrategy ∧
    u.inValid = false ∧ ¬ 5 ≤ u.recStrategy ∧ v.inValid = true ∧ ¬ 5 ≤ v.recStrategy ∧
    ∃ r, step v = .next r := ⟨rfl, rfl, by decide, rfl, by decide, by decide, rfl, by decide, rfl, by decide, _, rfl⟩

/-- Two states that agree on the operands of `DECOMPRESS` and differ elsewhere. -/
theorem test_witness_operands :
    let s := tagged 1 [7, 2]
    let s' := { errorEntry .illegalCommand (wordCause 5) Cause.zero s with hIn := 9, recOrigSize := 3, draws := 1 }
    s ≠ s' ∧ s.cfg = s'.cfg ∧ s.inBuf = s'.inBuf ∧ s.inValid = s'.inValid ∧ s.recStrategy = s'.recStrategy ∧
    ∃ t, exec .decompress s = .next t := ⟨by decide, rfl, rfl, rfl, rfl, _, rfl⟩

/-- A state whose block is built with `M_MAX` = `m`. -/
def outLimit (m : Nat) (x : Block) : State := { loaded x with cfg := { mMax := some m } }

/-- Each clause one byte over the limit, and the completions with the streams exactly at it. -/
theorem test_witness_capacity :
    (Ready (outLimit 1 [7, 7]) ∧ fitsOut (outLimit 1 [7, 7]).cfg (outLimit 1 [7, 7]).inBuf = false) ∧
    fitsOut (outLimit 1 [7]).cfg (rleEnc [7]) = false ∧
    fitsOut (outLimit 3 [7, 7]).cfg (rleEnc (dictEnc (outLimit 3 [7, 7]).cfg [7, 7])) = false ∧
    fitsOut (outLimit 2 [7, 3]).cfg (rleDec [7, 3]) = false ∧
    (dictDec (outLimit 1 [0x81, 0x81]).cfg [0x81, 0x81] = .ok [1, 1] ∧
      fitsOut (outLimit 1 [0x81, 0x81]).cfg [1, 1] = false) ∧
    (dictDec (outLimit 2 [0x87, 0x83]).cfg [0x87, 0x83] = .ok [7, 3] ∧
      fitsOut (outLimit 2 [0x87, 0x83]).cfg (rleDec [7, 3]) = false) ∧
    (dictDec (outLimit 1 [0x87, 0x88, 3]).cfg [0x87, 0x88, 3] = .raised ⟨2, 2, 3, 2⟩ ∧
      atMost (outLimit 1 [0x87, 0x88, 3]).cfg.mMax 2 = false) ∧
    (dictDec (outLimit 2 [7, 3]).cfg [7, 3] = .raised ⟨2, 0, 7, 0⟩ ∧
      fitsOut (outLimit 2 [7, 3]).cfg (rleDec [7, 3]) = false) ∧
    (Ready (outLimit 4 [7, 7]) ∧ fitsOut (outLimit 4 [7, 7]).cfg [7, 7] = true ∧
      fitsOut (outLimit 4 [7, 7]).cfg (rleEnc [7, 7]) = true ∧
      fitsOut (outLimit 4 [7, 7]).cfg (rleEnc (dictEnc (outLimit 4 [7, 7]).cfg [7, 7])) = true) := by
  unfold Ready; decide

/-- For the completion statements of `RAW`, `RLE`, `DELTA`, `DICT.ENC`, `HYB.ENC` and `COMPRESS`: every stream at
`M_MAX`; for their `InvalidInput` clauses, the state after reset. -/
theorem test_witness_completions :
    (Ready (outLimit 2 [7, 7]) ∧ fitsOut (outLimit 2 [7, 7]).cfg [7, 7] = true ∧
      fitsOut (outLimit 2 [7, 7]).cfg (rleEnc [7, 7]) = true) ∧
    (Ready (outLimit 3 [7, 3]) ∧ fitsOut (outLimit 3 [7, 3]).cfg (rleDec [7, 3]) = true) ∧
    Params.legal State.reset.cfg = true ∧ State.reset.inValid = false := by unfold Ready; decide

theorem test_witness_rle_runs :
    (1 ≤ 1 ∧ 1 ≤ 255 ∧ ([] : Block).head? ≠ some 0x41) ∧ (1 ≤ 255 ∧ 255 ≤ 255 ∧ ([0x41] : Block).head? = some 0x41) ∧
    (1 ≤ 254 ∧ 254 ≤ 255 ∧ ([0x42] : Block).head? ≠ some 0x41) := by decide

/-- The encoder with a run open, its counter at both ends of its range. -/
theorem test_witness_rle_machine :
    (feed rleEncByte (rleEncStart ⟨false, 0, 0⟩) [0x41]).1 = ⟨true, 0x41, 1⟩ ∧
    (feed rleEncByte (rleEncStart ⟨true, 1, 1⟩) (List.replicate 255 0x41)).1 = ⟨true, 0x41, 255⟩ ∧
    (rleEncMachine ⟨true, 1, 1⟩ [0x41]).1.active = false ∧
    rleDecMachine ⟨true, 1⟩ [0x41, 2, 0x42] = (⟨false, 0x42⟩, [0x41, 0x41]) := by
  decide +kernel

/-- R103 at its boundaries: one, two and three pairs. -/
theorem test_witness_greedy :
    greedyPairs 0x41 1 = [0x41, 1] ∧ greedyPairs 0x41 255 = [0x41, 0xFF] ∧ greedyPairs 0x41 256 = [0x41, 0xFF, 0x41, 1] ∧
    greedyPairs 0x41 510 = [0x41, 0xFF, 0x41, 0xFF] ∧
    greedyPairs 0x41 511 = [0x41, 0xFF, 0x41, 0xFF, 0x41, 1] := by decide

theorem test_witness_rle_length :
    ([7, 7, 8] : Block) ≠ [] ∧ ([7, 7] : Block) = List.replicate 2 7 ∧ ([7, 8, 7] : Block).IsChain (· ≠ ·) ∧
    pairCount [7, 7, 8] = 2 ∧ pairsOfRun 3 = 1 := by decide

theorem test_witness_pair_stream :
    ([] : Block).length ≤ 1 ∧ ([5] : Block).length ≤ 1 ∧ pairStream [(7, 0), (8, 255)] = [7, 0, 8, 255] ∧
    ([7, 2] : Block).length % 2 = 0 ∧ ([] : Block).length % 2 = 0 := by decide

theorem test_witness_rle_round_trip : Ready (loaded [7, 7]) ∧ (loaded [7, 7]).cfg.mMax = none := by
  unfold Ready; decide

theorem test_witness_rle_stream :
    [7, 255, 7, 1] = rleEnc (List.replicate 256 7) ∧ rleEnc (rleDec [7, 255, 7, 1]) = [7, 255, 7, 1] := by decide +kernel

theorem test_witness_delta :
    let x : Block := [5, 3, 3]
    x[0]? = some 5 ∧ x[0]? = some 5 ∧ x[0 + 1]? = some 3 ∧ x[1]? = some 3 ∧ x[1 + 1]? = some 3 ∧ 0 < x.length ∧
    2 < x.length ∧ deltaDec x = deltaDec [5, 3, 3] := by decide

/-- Tables empty, one short of full and full, of a block with `DICT_CAP` = 2, and `DICT_CAP` = 1. -/
theorem test_witness_append :
    let e : Params := { dictCap := 2 }
    let l : Params := { dictCap := 2, dictClear := .lazy }
    Params.legal e = true ∧ Params.legal l = true ∧ e.dictClear = .eager ∧ l.dictClear = .lazy ∧
    ([] : Block).length ≤ 2 ∧ ([7] : Block).length < 2 ∧ dictState l [7] ≠ .fullPendingReset ∧
    ([7, 8] : Block).length ≤ l.dictCap ∧ dictState l [7, 8] = .fullPendingReset ∧
    Params.legal { dictCap := 1 } = true := by decide

theorem test_witness_tables :
    let l : Params := { dictCap := 2, dictClear := .lazy }
    dictDecMachine l [0x87, 0x88, 0x01] = .running [7, 8] 3 [7, 8, 8] ∧
    (({ dictCap := 1 } : Params).dictCap = 1 ∧ Params.legal { dictCap := 1 } = true) ∧
    lookup 8 (encTable l [7, 8]) = some 1 ∧ lookup 7 (encTable { dictCap := 2 } [7]) = some 0 := by decide

theorem test_witness_dict_enc :
    (encTable {} [7, 8])[1]? = some 8 ∧ (∀ j < 1, (encTable {} [7, 8])[j]? ≠ some 8) ∧ 9 ∉ encTable {} [7, 8] := by
  decide

theorem test_witness_dict_dec :
    Ready (outLimit 2 [0x87, 0x00]) ∧ dictDec (outLimit 2 [0x87, 0x00]).cfg [0x87, 0x00] = .ok [7, 7] ∧
    fitsOut (outLimit 2 [0x87, 0x00]).cfg [0x87, 0x00] = true ∧
    Ready (outLimit 1 [0x81, 0x01]) ∧ dictDec (outLimit 1 [0x81, 0x01]).cfg [0x81, 0x01] = .raised ⟨2, 1, 1, 1⟩ ∧
    atMost (outLimit 1 [0x81, 0x01]).cfg.mMax 1 = true ∧
    dictDecMachine {} [0x87, 0x00] = .running [7] 2 [7, 7] ∧
    dictDecMachine {} [0x81, 0x01] = .raised ⟨2, 1, 1, 1⟩ := by unfold Ready; decide

/-- The failing index equal to the table length, and the largest one. -/
theorem test_witness_failing_index :
    IndexFailsAt {} [0x81, 0x01] ⟨2, 1, 1, 1⟩ ∧ IndexFailsAt {} [0x7F] ⟨2, 0, 127, 0⟩ :=
  ⟨⟨[0x81], 1, [], [1], [1], rfl, by decide, by decide, by decide, by decide⟩,
    ⟨[], 0x7F, [], [], [], rfl, by decide, by decide, by decide, by decide⟩⟩

theorem test_witness_literals :
    dictDec {} (dictEnc {} [0x80, 0xFF]) = .ok [0x00, 0x7F] ∧ ([0x80, 0xFF] : Block)[1]? = some 0xFF ∧
    128 ≤ (0x80 : Byte).toNat ∧ 128 ≤ (0xFF : Byte).toNat := by decide

theorem test_witness_seven_bit :
    SevenBit [0x00, 0x7F] ∧ ¬ SevenBit [0x80] ∧ SevenBit ([0x7F] ++ [0x00]) ∧ Params.legal { dictCap := 1 } = true ∧
    Params.legal { dictCap := 256, dictClear := .lazy } = true := by unfold SevenBit; decide

/-- On both sides of R161's limits. -/
theorem test_witness_collision :
    Params.legal { dictCap := 129 } = true ∧ Params.legal { dictCap := 130 } = true ∧
    Params.legal { dictCap := 128, dictClear := .lazy } = true ∧
    lookup 128 (encTable { dictCap := 130 } ((List.range 129).map (BitVec.ofNat 8))) = some 128 ∧
    lookup 7 (encTable {} [7]) = some 0 ∧ SevenBit [7] := by unfold SevenBit; decide +kernel

/-- `x` whose pipeline (b) is strictly shorter, and one that is 7-bit. -/
theorem test_witness_hybrid_enc :
    Params.legal {} = true ∧ (pipeB {} [0x01, 0x81]).length < (pipeA {} [0x01, 0x81]).length ∧ SevenBit [0x01] := by
  unfold SevenBit; decide

theorem test_witness_hybrid_dec :
    (Ready (outLimit 4 [0x85, 0x84]) ∧ dictDec (outLimit 4 [0x85, 0x84]).cfg [0x85, 0x84] = .ok [5, 4] ∧
      fitsOut (outLimit 4 [0x85, 0x84]).cfg [5, 4] = true ∧
      fitsOut (outLimit 4 [0x85, 0x84]).cfg (rleDec [5, 4]) = true) ∧
    (dictDec (outLimit 2 [0x81, 0x02]).cfg [0x81, 0x02] = .raised ⟨2, 1, 2, 1⟩ ∧
      atMost (outLimit 2 [0x81, 0x02]).cfg.mMax 1 = true ∧
      fitsOut (outLimit 2 [0x81, 0x02]).cfg (rleDec [0x81, 0x02]) = true ∧
      dictDec (outLimit 2 [0x81, 0x02]).cfg (rleDec [0x81, 0x02]) = .ok [1, 1]) ∧
    (dictDec (outLimit 1 [0x05, 0x01]).cfg [0x05, 0x01] = .raised ⟨2, 0, 5, 0⟩ ∧
      atMost (outLimit 1 [0x05, 0x01]).cfg.mMax 0 = true ∧
      fitsOut (outLimit 1 [0x05, 0x01]).cfg (rleDec [0x05, 0x01]) = true ∧
      dictDec (outLimit 1 [0x05, 0x01]).cfg (rleDec [0x05, 0x01]) = .raised ⟨2, 0, 5, 0⟩) ∧
    Ready (outLimit 2 [0x81, 0x02]) ∧ Ready (outLimit 1 [0x05, 0x01]) := by unfold Ready; decide

/-- A run of 127, the longest that R181 allows. -/
theorem test_witness_runs : SevenBit (List.replicate 127 5) ∧ RunsAtMost 127 (List.replicate 127 5) := by
  refine ⟨by unfold SevenBit; decide, fun v h => ?_⟩
  have := h.length_le
  simp only [List.length_replicate] at this
  omega

theorem test_witness_pipe_b : Params.legal { dictCap := 3 } = true ∧ 3 ≤ ({ dictCap := 3 } : Params).dictCap ∧
    ([0x41] : Block) ≠ [] := by decide

/-- An honest estimator and a block away from the gate; both sides of 4.0. -/
theorem test_witness_gate :
    let s : State := { loaded [] with hIn := 4 }
    s.hInCurrent = true ∧ 0 ≤ s.hIn ∧ s.hIn ≤ 8 ∧ (loaded []).hIn < 4 ∧ ¬ s.hIn < 4 ∧ gateOperand s = false ∧
    gateOperand (loaded []) = true := by decide

theorem test_witness_estimator :
    EstimatorHonest 1 (loaded []) ∧ (1 : ℝ) < |entropy (loaded []).inBuf - 4| := by
  have h : entropy ([] : Block) = 0 := by
    unfold entropy
    refine List.sum_eq_zero fun r hr => ?_
    obtain ⟨v, -, rfl⟩ := List.mem_map.mp hr
    simp
  refine ⟨⟨rfl, le_refl _, by decide, ?_⟩, ?_⟩ <;> simp [loaded, State.reset, h]

/-- A completed `COMPRESS`; a record tagged HYBRID, under `DICT_CAP` = 3; one that is not, with `hyb` = 0. -/
theorem test_witness_records :
    (∃ t, exec (.compress false false) (loaded [7, 7, 7]) = .next t ∧ t.st = 2 ∧ t.recStrategy ≠ 4) ∧
    (∃ t, exec (.compress true false)
        { loaded [2, 1, 0x81, 1, 0x81, 2, 2, 2, 2, 2] with cfg := { dictCap := 3 } } = .next t ∧
      t.st = 2 ∧ t.recStrategy = 4) ∧
    (∃ t, exec (.compress true false) (loaded [0x01, 0x81, 0x02, 0x82, 0x01, 0x01, 0x01, 0x01]) = .next t ∧
      t.st = 2 ∧ t.recStrategy = 4 ∧ 3 ≤ t.cfg.dictCap) ∧
    SevenBit (loaded [7, 7, 7]).inBuf ∧
    ∀ c ∈ candidates {} true (gateOperand (loaded [1, 2])) [1, 2], 2 ≤ c.payload.length := by
  refine ⟨⟨_, rfl, ?_⟩, ⟨_, rfl, ?_⟩, ⟨_, rfl, ?_⟩, ?_, ?_⟩ <;> (try unfold SevenBit) <;> decide

/-- Which strategy wins: each of the three. -/
theorem test_witness_winners :
    (select {} true false [0x01, 0x81, 0x02, 0x82, 0x01, 0x01, 0x01, 0x01]).strategy = .hybrid ∧
    (select {} true true [7, 7, 7]).strategy = .rle ∧ (select {} true true [7, 7]).strategy = .raw ∧
    dictDec {} [0x87, 0x00] = .ok [7, 7] := by decide

theorem test_witness_decompress :
    (Ready (tagged 0 [7]) ∧ (tagged 0 [7]).recStrategy = 0 ∧ fitsOut (tagged 0 [7]).cfg [7] = true) ∧
    (Ready (tagged 1 [7, 2]) ∧ (tagged 1 [7, 2]).recStrategy = 1 ∧ fitsOut (tagged 1 [7, 2]).cfg (rleDec [7, 2]) = true) ∧
    (Ready (tagged 2 [0x87]) ∧ (tagged 2 [0x87]).recStrategy = 2 ∧ dictDec (tagged 2 [0x87]).cfg [0x87] = .ok [7]) ∧
    (Ready (tagged 3 [7]) ∧ (tagged 3 [7]).recStrategy = 3) ∧
    (Ready (tagged 4 [0x85, 0x82]) ∧ (tagged 4 [0x85, 0x82]).cfg.mMax = none ∧
      hybDec (tagged 4 [0x85, 0x82]).cfg [0x85, 0x82] = .ok [5, 5]) ∧
    decode (0x08 ||| BitVec.ofNat 8 (tagged 4 []).recStrategy) = .command .hybDec ∧ (tagged 4 []).recStrategy ≤ 4 ∧
    (Instr.hybDec ≠ .decompress ∧ ∃ t, exec .hybDec (loaded []) = .next t) := by
  unfold Ready
  exact ⟨by decide, by decide, by decide, by decide, by decide, by decide, by decide, by decide, _, rfl⟩

end Sys2Proof.Tests
end

section
/-! The refusals: what a host move and a command do on a block outside the legal parameters (R9, U12), and the two moves
that the host may not make on a legal block (R64, R88). -/

namespace Sys2Proof.Proofs

open Sys2Proof.Machine

/-! ### A block whose parameters are legal -/

/-- R42, R88: on a legal block a move has the effect of its row. -/
theorem perform_of_legal {m : HostMove} {s : State} (hl : Params.legal s.cfg = true) :
    perform m s = performLegal m s := by
  simp [perform, hl]

/-- R64: a load that does not fit `N_MAX`. -/
theorem hostLoad_of_not_fits {x : Block} {s : State} (hf : fitsIn s.cfg x = false) :
    hostLoad x s = .refused .loadOverNMax := by
  simp [hostLoad, hf]

/-- R88: `MOVE` loads `OUT` once the command is done. -/
theorem performLegal_move_of_done {s : State} (hst : s.st = stDone) :
    performLegal .moveOutToIn s = hostLoad s.outBuf s := by
  simp [performLegal, hst]

/-- R88: `MOVE` before `ST` = `DONE`. -/
theorem performLegal_move_of_not_done {s : State} (hst : s.st ≠ stDone) :
    performLegal .moveOutToIn s = .refused .moveBeforeDone := by
  simp [performLegal, hst]

/-- R60: on a legal block a step is the effect of the host's next move. -/
theorem step_of_legal {s : State} {m : HostMove} {rest : List HostMove} (hl : Params.legal s.cfg = true)
    (hp : s.program = m :: rest) : step s = performLegal m (withProgram rest s) := by
  rw [step_move hp, perform_of_legal (by simpa using hl)]

/-! ### A block whose parameters are not legal -/

/-- R9, U12: no move of such a block is specified. -/
theorem perform_of_illegal {m : HostMove} {s : State} (hl : Params.legal s.cfg = false) :
    perform m s = .refused .illegalParameters := by
  simp [perform, hl]

/-- R9, U12: no command of such a block is specified. `DECOMPRESS` looks at the parameters before its tag; every other
command reaches the check of `runCommand`. -/
theorem exec_of_illegal (i : Instr) {s : State} (hl : Params.legal s.cfg = false) :
    exec i s = .refused .illegalParameters := by
  by_cases hd : i = .decompress
  · subst hd
    simp [exec, execDecompress, hl]
  · rw [exec_eq_runCommand fun e => absurd e hd, runCommand_illegal hl]

/-- R9, U12: a step that takes a move of such a block. -/
theorem step_of_illegal {s : State} {m : HostMove} {rest : List HostMove} (hl : Params.legal s.cfg = false)
    (hp : s.program = m :: rest) : step s = .refused .illegalParameters := by
  rw [step_move hp, perform_of_illegal (by simpa using hl)]

/-! ### The statement -/

/-- Settles O6: on a legal block by the refused load and the two refusals of `MOVE`, on any other by the check that
every command and every move makes first. -/
theorem illegalHostMovesAreRefused : Obligations.IllegalHostMovesAreRefused := by
  unfold Obligations.IllegalHostMovesAreRefused
  refine ⟨fun s rest hl => ⟨fun x hp hf => ?load, fun hp hst => ?moveBeforeDone, fun hp hst hf => ?moveTooLong⟩,
    fun s hl => ⟨fun i => exec_of_illegal i hl, fun m rest hp => step_of_illegal hl hp⟩⟩
  case load =>
    rw [step_of_legal hl hp]
    exact hostLoad_of_not_fits (by simpa using hf)
  case moveBeforeDone =>
    rw [step_of_legal hl hp]
    exact performLegal_move_of_not_done (by simpa [stDone] using hst)
  case moveTooLong =>
    rw [step_of_legal hl hp, performLegal_move_of_done (by simpa [stDone] using hst)]
    exact hostLoad_of_not_fits (by simpa using hf)

end Sys2Proof.Proofs
end

section
/-! The host's moves on a block of legal parameters (R42, R45, R88), and reset (R41, R260). -/

namespace Sys2Proof.Proofs

open Sys2Proof.Machine

/-- R64: a load that fits `N_MAX`. -/
theorem hostLoad_of_fits {x : Block} {s : State} (hf : fitsIn s.cfg x = true) :
    hostLoad x s = .next (loadBlock x s) := by
  simp [hostLoad, hf]

/-- R27, R45: an issued word that decodes runs its command. -/
theorem hostIssue_of_command {c : Byte} {i : Instr} (s : State) (hd : decode c = .command i) :
    hostIssue c s = exec i (writeCmd c s) := by
  simp [hostIssue, hd]

/-- Settles O4: on a legal block the step is the issue, and the issue of a word that decodes is its command. -/
theorem stepRunsIssuedCommand : Obligations.StepRunsIssuedCommand := by
  intro s c rest i hl hp hd
  rw [step_of_legal hl hp]
  exact hostIssue_of_command (withProgram rest s) hd

/-- Settles O5: one case for each move; the values of the tag and size registers are those of `tagValue_spec` and
`sizeValue_spec`. -/
theorem hostMovesHaveTheirEffects : Obligations.HostMovesHaveTheirEffects := by
  intro s rest hl
  refine ⟨fun x hp hf => ?load, fun t hp => ?setTag, fun o c hp => ?setSizes, fun h hp => ?setEntropy,
    fun hp => ?read, fun hp hst hf => ?moveOutToIn, fun hp => step_idle hp⟩
  case load =>
    rw [step_of_legal hl hp]
    exact hostLoad_of_fits (s := withProgram rest s) hf
  case setTag =>
    exact ⟨tagValue s.cfg s.draws t, s.draws + 1, by rw [step_of_legal hl hp]; rfl, tagValue_spec s.cfg s.draws t⟩
  case setSizes =>
    obtain ⟨origFits, origExact⟩ := sizeValue_spec s.cfg s.draws o
    obtain ⟨compFits, compExact⟩ := sizeValue_spec s.cfg (s.draws + 1) c
    exact ⟨sizeValue s.cfg s.draws o, sizeValue s.cfg (s.draws + 1) c, s.draws + 2,
      by rw [step_of_legal hl hp]; rfl, origFits, compFits, origExact, compExact⟩
  case setEntropy =>
    rw [step_of_legal hl hp]
    rfl
  case read =>
    rw [step_of_legal hl hp]
    rfl
  case moveOutToIn =>
    rw [step_of_legal hl hp, performLegal_move_of_done (s := withProgram rest s) hst]
    exact hostLoad_of_fits (s := withProgram rest s) hf

/-- Settles O7: the step is `hostReset`, whose registers are those of the state after reset. -/
theorem resetGivesTheStatedValues : Obligations.ResetGivesTheStatedValues := by
  refine ⟨fun s rest hl hp => ⟨hostReset (withProgram rest s), ?step, ?registers⟩, ?afterReset⟩
  case step =>
    rw [step_of_legal hl hp]
    rfl
  case registers =>
    simp [State.reset, Cause.zero, State.inLen, State.outLen]
  case afterReset =>
    simp [State.reset, Cause.zero, State.inLen, State.outLen]

end Sys2Proof.Proofs
end

section
/-! The invariant taken apart by what an update of the state can touch, and what each update has to supply to keep it:
the two buffers, the record registers (R24), the call-scoped registers (R32 to R38) and the status (R29, R30). -/

namespace Sys2Proof.Proofs

open Sys2Proof.Machine Sys2Proof.Safety

/-! ### The parts of the invariant -/

/-- R24, R42: the record registers are within their widths, and the tag within 8 bits. -/
structure RecordFits (p : Params) (tag orig comp : Nat) : Prop where
  tagFits : fitsTag p tag = true
  tagByte : tag ≤ 255
  origFits : fitsSize p orig = true
  compFits : fitsSize p comp = true

/-- R32, R36 to R38, R50: the call-scoped spaces are within their capacities and the registers within their widths. -/
structure CallScopedFits (p : Params) (r : CallScoped) : Prop where
  dictMem : atMost (some p.dictCap) r.dictMem.length = true
  tBuf : fitsOut p r.hybrid.tBuf = true
  aBuf : fitsOut p r.hybrid.aBuf = true
  bBuf : fitsOut p r.hybrid.bBuf = true
  candBuf : fitsOut p r.selector.candBuf = true
  bestBuf : fitsOut p r.selector.bestBuf = true
  rd : fitsSize p r.rd = true
  bestTag : fitsTag p r.selector.bestTag = true
  savedPos : fitsSize p r.hybrid.savedCause.pos = true

end Sys2Proof.Proofs

namespace Sys2Proof.Safety

open Sys2Proof.Machine Sys2Proof.Proofs

/-- R50: `IN` is within its capacity. -/
theorem Inv.inFits {s : State} (h : Inv s) : fitsIn s.cfg s.inBuf = true := h.spaces .inBuf

/-- R50: `OUT` is within its capacity. -/
theorem Inv.outFits {s : State} (h : Inv s) : fitsOut s.cfg s.outBuf = true := h.spaces .outBuf

/-- The invariant bounds the record registers. -/
theorem Inv.recordFits {s : State} (h : Inv s) :
    RecordFits s.cfg s.recStrategy s.recOrigSize s.recCompSize :=
  ⟨h.tagFits, h.tagByte, h.origFits, h.compFits⟩

/-- The invariant bounds the call-scoped registers. -/
theorem Inv.callScopedFits {s : State} (h : Inv s) : CallScopedFits s.cfg s.callScoped :=
  ⟨h.spaces .dictMem, h.spaces .tBuf, h.spaces .aBuf, h.spaces .bBuf, h.spaces .candBuf, h.spaces .bestBuf,
    h.rdFits, h.bestTagFits, h.savedPosFits⟩

end Sys2Proof.Safety

namespace Sys2Proof.Proofs

open Sys2Proof.Machine Sys2Proof.Safety

/-- The invariant put together again from its parts. -/
theorem inv_of_parts {s : State} (legal : Params.legal s.cfg = true) (status : StatusOk s)
    (unloaded : s.inValid = false → s.inBuf = []) (inFits : fitsIn s.cfg s.inBuf = true)
    (outFits : fitsOut s.cfg s.outBuf = true)
    (record : RecordFits s.cfg s.recStrategy s.recOrigSize s.recCompSize)
    (callScoped : CallScopedFits s.cfg s.callScoped) : Inv s where
  legal := legal
  status := status
  unloaded := unloaded
  spaces
    | .inBuf => inFits
    | .outBuf => outFits
    | .dictMem => callScoped.dictMem
    | .tBuf => callScoped.tBuf
    | .aBuf => callScoped.aBuf
    | .bBuf => callScoped.bBuf
    | .candBuf => callScoped.candBuf
    | .bestBuf => callScoped.bestBuf
  tagFits := record.tagFits
  tagByte := record.tagByte
  origFits := record.origFits
  compFits := record.compFits
  rdFits := callScoped.rd
  bestTagFits := callScoped.bestTag
  savedPosFits := callScoped.savedPos

/-! ### Widths and capacities -/

@[simp] theorem atMost_zero (limit : Option Nat) : atMost limit 0 = true := by
  cases limit <;> simp [atMost]

@[simp] theorem fitsIn_nil (p : Params) : fitsIn p [] = true := atMost_zero p.nMax

@[simp] theorem fitsOut_nil (p : Params) : fitsOut p [] = true := atMost_zero p.mMax

@[simp] theorem fitsSize_zero (p : Params) : fitsSize p 0 = true := by
  cases h : p.sizeW <;> simp [fitsSize, h]

@[simp] theorem fitsTag_zero (p : Params) : fitsTag p 0 = true := by simp [fitsTag]

/-- R8, R9: what legal parameters are. -/
theorem legal_iff {p : Params} : Params.legal p = true ↔
    1 ≤ p.dictCap ∧ p.dictCap ≤ 256 ∧ sizeWidthOk p = true ∧ 3 ≤ p.tagW := by
  simp [Params.legal, and_assoc]

/-- R8: a finite `SIZE_W` comes with finite `N_MAX` and `M_MAX`, both below two to its power. -/
theorem legal_sizeW {p : Params} (hl : Params.legal p = true) {w : Nat} (hw : p.sizeW = some w) :
    ∃ n m, p.nMax = some n ∧ p.mMax = some m ∧ n < 2 ^ w ∧ m < 2 ^ w := by
  obtain ⟨-, -, hs, -⟩ := legal_iff.mp hl
  cases hn : p.nMax with
  | none => simp [sizeWidthOk, hw, hn] at hs
  | some n =>
    cases hm : p.mMax with
    | none => simp [sizeWidthOk, hw, hn, hm] at hs
    | some m => exact ⟨n, m, rfl, rfl, by simpa [sizeWidthOk, hw, hn, hm] using hs⟩

/-- R8: a size register holds every length up to `N_MAX`. -/
theorem fitsSize_of_atMost_nMax {p : Params} (hl : Params.legal p = true) {k : Nat} (hk : atMost p.nMax k = true) :
    fitsSize p k = true := by
  cases hw : p.sizeW with
  | none => simp [fitsSize, hw]
  | some w =>
    obtain ⟨n, m, hn, -, lt, -⟩ := legal_sizeW hl hw
    simp only [atMost, hn, decide_eq_true_eq] at hk
    simpa [fitsSize, hw] using lt_of_le_of_lt hk lt

/-- R8: a size register holds every length up to `M_MAX`. -/
theorem fitsSize_of_atMost_mMax {p : Params} (hl : Params.legal p = true) {k : Nat} (hk : atMost p.mMax k = true) :
    fitsSize p k = true := by
  cases hw : p.sizeW with
  | none => simp [fitsSize, hw]
  | some w =>
    obtain ⟨n, m, -, hm, -, lt⟩ := legal_sizeW hl hw
    simp only [atMost, hm, decide_eq_true_eq] at hk
    simpa [fitsSize, hw] using lt_of_le_of_lt hk lt

/-- R71: the tag of a strategy is at most 4. -/
theorem tagOf_le (k : Strategy) : tagOf k ≤ 4 := by cases k <;> simp [tagOf]

/-- R8, R71: the tag register, at least 3 bits wide, holds the tag of every strategy. -/
theorem fitsTag_tagOf {p : Params} (hl : Params.legal p = true) (k : Strategy) : fitsTag p (tagOf k) = true := by
  obtain ⟨-, -, -, hw⟩ := legal_iff.mp hl
  have hk := tagOf_le k
  have : 2 ^ 3 ≤ 2 ^ p.tagW := Nat.pow_le_pow_right (by omega) hw
  simp only [fitsTag, decide_eq_true_eq]
  omega

/-- U5: free call-scoped registers are within their widths and capacities. -/
theorem freeCallScoped_fits (p : Params) (n : Nat) : CallScopedFits p (freeCallScoped p n) where
  dictMem := freeSpace_atMost p .dictMem n
  tBuf := freeSpace_atMost p .tBuf (n + 16)
  aBuf := freeSpace_atMost p .aBuf (n + 17)
  bBuf := freeSpace_atMost p .bBuf (n + 18)
  candBuf := freeSpace_atMost p .candBuf (n + 13)
  bestBuf := freeSpace_atMost p .bestBuf (n + 12)
  rd := freeSize_fits p (n + 9)
  bestTag := freeTag_fits p (n + 11)
  savedPos := freeSize_fits p (n + 20)

/-- The call-scoped registers after reset are within their widths and capacities. -/
theorem callScopedReset_fits (p : Params) : CallScopedFits p CallScoped.reset := by
  constructor <;> simp [CallScoped.reset, Cause.zero]

/-! ### What each update keeps -/

theorem inv_withProgram {s : State} (h : Inv s) (ms : List HostMove) : Inv (withProgram ms s) :=
  inv_of_parts h.legal h.status h.unloaded h.inFits h.outFits h.recordFits h.callScopedFits

theorem inv_writeCmd {s : State} (h : Inv s) (c : Byte) : Inv (writeCmd c s) :=
  inv_of_parts h.legal h.status h.unloaded h.inFits h.outFits h.recordFits h.callScopedFits

theorem inv_setEntropy {s : State} (h : Inv s) (r : Rat) : Inv (setEntropy r s) :=
  inv_of_parts h.legal h.status h.unloaded h.inFits h.outFits h.recordFits h.callScopedFits

theorem inv_loadBlock {s : State} (h : Inv s) {x : Block} (hx : fitsIn s.cfg x = true) : Inv (loadBlock x s) :=
  inv_of_parts h.legal h.status (fun hv => by simp at hv) hx h.outFits h.recordFits h.callScopedFits

theorem inv_setTag {s : State} (h : Inv s) (t : Byte) : Inv (setTag t s) := by
  obtain ⟨fits, byte, -⟩ := tagValue_spec s.cfg s.draws t
  exact inv_of_parts h.legal h.status h.unloaded h.inFits h.outFits
    ⟨fits, byte, h.origFits, h.compFits⟩ h.callScopedFits

theorem inv_setSizes {s : State} (h : Inv s) (o c : Nat) : Inv (setSizes o c s) := by
  obtain ⟨origFits, -⟩ := sizeValue_spec s.cfg s.draws o
  obtain ⟨compFits, -⟩ := sizeValue_spec s.cfg (s.draws + 1) c
  exact inv_of_parts h.legal h.status h.unloaded h.inFits h.outFits
    ⟨h.tagFits, h.tagByte, origFits, compFits⟩ h.callScopedFits

/-- R41: reset gives the invariant from any state whose parameters are legal. -/
theorem inv_hostReset {s : State} (hl : Params.legal s.cfg = true) : Inv (hostReset s) :=
  inv_of_parts hl (.inl ⟨rfl, rfl, rfl, rfl, rfl⟩) (fun _ => rfl) (fitsIn_nil s.cfg) (fitsOut_nil s.cfg)
    ⟨fitsTag_zero s.cfg, Nat.zero_le _, fitsSize_zero s.cfg, fitsSize_zero s.cfg⟩ (callScopedReset_fits s.cfg)

theorem inv_discardCallScoped {s : State} (h : Inv s) : Inv (discardCallScoped s) :=
  inv_of_parts h.legal h.status h.unloaded h.inFits h.outFits h.recordFits
    (freeCallScoped_fits s.cfg (s.draws + 1))

/-- R240: the error entry, with the causes that its code leaves. -/
theorem inv_errorEntry {s : State} (h : Inv s) {k : ErrorKind} {a b : Cause}
    (hc : CausesOk s.cfg (errorCode k) a b) : Inv (errorEntry k a b s) :=
  inv_of_parts h.legal (.inr (.inr ⟨rfl, rfl, hc⟩)) h.unloaded h.inFits (fitsOut_nil s.cfg) h.recordFits
    h.callScopedFits

/-- R242: the success exit, with an output within `M_MAX`. -/
theorem inv_successExit {s : State} (h : Inv s) {out : Block} (ho : fitsOut s.cfg out = true) :
    Inv (successExit out s) :=
  inv_of_parts h.legal (.inr (.inl ⟨rfl, rfl, rfl, rfl⟩)) h.unloaded h.inFits ho h.recordFits
    h.callScopedFits

/-- R202: the record registers, written with two sizes that fit. -/
theorem inv_writeRecord {s : State} (h : Inv s) (k : Strategy) {orig comp : Nat} (ho : fitsSize s.cfg orig = true)
    (hc : fitsSize s.cfg comp = true) : Inv (writeRecord k orig comp s) :=
  inv_of_parts h.legal h.status h.unloaded h.inFits h.outFits
    ⟨fitsTag_tagOf h.legal k, (tagOf_le k).trans (by omega), ho, hc⟩ h.callScopedFits

/-- Settles O10: the state after reset is its own `hostReset`, and the default parameters are legal. -/
theorem resetSatisfiesInvariant : Obligations.ResetSatisfiesInvariant :=
  inv_hostReset (s := State.reset) (by decide)

end Sys2Proof.Proofs
end

section
/-! What the function of each command can answer within `M_MAX` (R64), and that every command, move and step keeps the
invariant. A failing dictionary index is found with a table that fits `DICT_CAP` (R233, R241). -/

namespace Sys2Proof.Proofs

open Sys2Proof.Machine Sys2Proof.Safety
open Host (Outcome)

/-! ### The table of the decoder -/

/-- R32, R143: a table within its capacity, and never full under `EAGER`. -/
def TableFits (p : Params) (table : Block) : Prop :=
  table.length ≤ p.dictCap ∧ (p.dictClear = .eager → table.length ≠ p.dictCap)

theorem tableFits_nil {p : Params} (hl : Params.legal p = true) : TableFits p [] := by
  obtain ⟨hc, -⟩ := legal_iff.mp hl
  exact ⟨Nat.zero_le _, fun _ => by simp; omega⟩

/-- R143: an append keeps the table within its capacity. -/
theorem append_keeps_tableFits {p : Params} (hl : Params.legal p = true) {table : Block} (h : TableFits p table)
    (v : Byte) : TableFits p (append p v table) := by
  obtain ⟨hc, -⟩ := legal_iff.mp hl
  obtain ⟨hle, hne⟩ := h
  rcases append_cases p v table with ⟨-, -, e⟩ | ⟨hd, hn, e⟩ | ⟨hd, -, e⟩ | ⟨hd, hn, e⟩ <;> rw [e]
  · exact tableFits_nil hl
  · have := hne hd
    exact ⟨by simp; omega, fun _ => by simpa using hn⟩
  · exact ⟨by simpa using hc, fun he => by simp [hd] at he⟩
  · exact ⟨by simp; omega, fun he => by simp [hd] at he⟩

/-- R151: a symbol of the decoder keeps the table within its capacity. -/
theorem dictDecSymbol_keeps_tableFits {p : Params} (hl : Params.legal p = true) {table table' : Block}
    (h : TableFits p table) {e v : Byte} (hs : dictDecSymbol p table e = some (v, table')) : TableFits p table' := by
  rcases dictDecSymbol_cases p table e with ⟨-, g⟩ | ⟨-, w, -, g⟩ | ⟨-, -, g⟩ <;> rw [g] at hs <;> cases hs
  · exact append_keeps_tableFits hl h _
  · exact h

/-- R150, R233: where a dictionary decode that starts with a table within its capacity raises: at an index code not
below the length of a table within its capacity. -/
theorem dictDecFrom_raised {p : Params} (hl : Params.legal p = true) {pos : Nat} {table y : Block} {c : Cause}
    (h : TableFits p table) (hd : dictDecFrom p pos table y = .raised c) :
    ∃ pos' e table', isLiteral e = false ∧ table'.length ≤ e.toNat ∧ TableFits p table' ∧
      c = indexCause pos' e table'.length := by
  induction y generalizing pos table with
  | nil => simp [dictDecFrom] at hd
  | cons e es ih =>
    rw [dictDecFrom] at hd
    split at hd
    · next v table' hs =>
      exact ih (dictDecSymbol_keeps_tableFits hl h hs) (emit_eq_raised_iff.mp hd)
    · next hs =>
      rcases dictDecSymbol_cases p table e with ⟨-, g⟩ | ⟨-, w, -, g⟩ | ⟨hi, hlen, -⟩
      · simp [g] at hs
      · simp [g] at hs
      · exact ⟨pos, e, table, hi, hlen, h, by simpa using hd.symm⟩

/-- R233, R241: the cause of a dictionary decode that raises, at a position that fits `M_MAX`. -/
theorem dictDec_raised_causeOk {p : Params} (hl : Params.legal p = true) {y : Block} {c : Cause}
    (hd : dictDec p y = .raised c) (hpos : atMost p.mMax c.pos = true) : IndexCauseOk p c := by
  obtain ⟨pos, e, table, hi, hlen, ⟨hcap, -⟩, rfl⟩ := dictDecFrom_raised hl (tableFits_nil hl) hd
  obtain ⟨-, hmax, -⟩ := legal_iff.mp hl
  have hdlen : (BitVec.ofNat 9 table.length).toNat = table.length := by
    rw [BitVec.toNat_ofNat]
    omega
  have hidx : e.toNat < 128 := by
    rw [← Bool.not_eq_true, isLiteral_iff] at hi
    omega
  exact ⟨rfl, hidx, hdlen.le.trans hlen, hdlen.le.trans hcap, fitsSize_of_atMost_mMax hl hpos⟩

/-! ### The winner of the selector -/

/-- R201: the running best is the first best or one of the candidates it met. -/
theorem foldl_keepSmaller_mem (best : Choice) (cs : List Choice) : cs.foldl keepSmaller best ∈ best :: cs := by
  induction cs generalizing best with
  | nil => simp
  | cons c cs ih =>
    rw [List.foldl_cons]
    rcases keepSmaller_cases best c with ⟨-, e⟩ | ⟨-, e⟩ <;> rw [e]
    · exact List.mem_cons_of_mem _ (ih c)
    · exact List.mem_cons.mpr ((List.mem_cons.mp (ih best)).imp_right (List.mem_cons_of_mem _))

/-- R201: the running best is never longer than the one it started from. -/
theorem foldl_keepSmaller_length_le (best : Choice) (cs : List Choice) :
    (cs.foldl keepSmaller best).payload.length ≤ best.payload.length := by
  induction cs generalizing best with
  | nil => exact le_rfl
  | cons c cs ih =>
    rw [List.foldl_cons]
    rcases keepSmaller_cases best c with ⟨lt, e⟩ | ⟨-, e⟩ <;> rw [e]
    · exact (ih c).trans lt.le
    · exact ih best

/-- R201: the winner is one of the candidates. -/
theorem select_mem_candidates (p : Params) (hyb gate : Bool) (x : Block) :
    select p hyb gate x ∈ candidates p hyb gate x := foldl_keepSmaller_mem _ _

/-- R201: the winner is not longer than the block, RAW being the first best. -/
theorem select_length_le (p : Params) (hyb gate : Bool) (x : Block) :
    (select p hyb gate x).payload.length ≤ x.length := foldl_keepSmaller_length_le _ _

/-- R202: what `COMPRESS` gives: the record of the winner, or nothing when a stream does not fit. -/
theorem compressResult_cases (p : Params) (hyb gate : Bool) (x : Block) :
    (compressResult p hyb gate x =
        .record (select p hyb gate x).strategy x.length (select p hyb gate x).payload ∧
      ∀ n ∈ compressLengths p hyb gate x, atMost p.mMax n = true) ∨
    compressResult p hyb gate x = .tooLong :=
  (bounded_eq _ _ _).imp_right And.left

/-- R198, R202: the state of a `COMPRESS` that is done. -/
theorem exec_compress_done {hyb acc : Bool} {s t : State} (h : exec (.compress hyb acc) s = .next t)
    (hst : t.st = stDone) :
    t = writeRecord (select s.cfg hyb (gateOperand s) s.inBuf).strategy s.inBuf.length
      (select s.cfg hyb (gateOperand s) s.inBuf).payload.length
      (successExit (select s.cfg hyb (gateOperand s) s.inBuf).payload (discardCallScoped s)) := by
  obtain ⟨-, ⟨hi, -⟩ | ⟨-, -, rfl⟩ | ⟨-, -, hf⟩⟩ := exec_next h
  · cases hi
  · simp [stDone, stError] at hst
  · rcases compressResult_cases s.cfg hyb (gateOperand s) s.inBuf with ⟨e, -⟩ | e <;>
      simp only [resultFn, e, finish] at hf <;> cases hf
    rfl

/-! ### What a command's function answers -/

/-- R22, R64, R231, R241: what is true of the answer of a command's function on `x`: its output fits `M_MAX`, its record
has the size of `x`, and its error leaves the causes of its code. -/
def ResultOk (p : Params) (x : Block) : CommandResult → Prop
  | .output out => fitsOut p out = true
  | .record _ orig payload => orig = x.length ∧ fitsOut p payload = true
  | .failed k a b => CausesOk p (errorCode k) a b
  | .tooLong => True

/-- R64: a bounded answer may suppose that its streams fit. -/
theorem resultOk_bounded {p : Params} {x : Block} {lengths : List Nat} {r : CommandResult}
    (h : (∀ n ∈ lengths, atMost p.mMax n = true) → ResultOk p x r) : ResultOk p x (bounded p lengths r) := by
  rcases bounded_eq p lengths r with ⟨e, hfit⟩ | ⟨e, -⟩ <;> rw [e]
  · exact h hfit
  · trivial

/-- R64: an output that is one of the streams counted. -/
theorem resultOk_bounded_output {p : Params} {x out : Block} {lengths : List Nat} (hm : out.length ∈ lengths) :
    ResultOk p x (bounded p lengths (.output out)) :=
  resultOk_bounded fun hfit => hfit _ hm

theorem dictDecResult_ok {p : Params} (hl : Params.legal p = true) (y : Block) :
    ResultOk p y (dictDecResult p y) := by
  refine resultOk_bounded fun hfit => ?_
  have hw := hfit _ (List.mem_singleton_self _)
  cases hd : dictDec p y with
  | ok out => simpa [ResultOk, fitsOut, hd, Decoded.written] using hw
  | raised c =>
    have hpos : atMost p.mMax c.pos = true := by simpa [hd, Decoded.written] using hw
    exact .inr (.inl ⟨rfl, dictDec_raised_causeOk hl hd hpos, rfl⟩)

theorem hybEncResult_ok (p : Params) (x : Block) : ResultOk p x (hybEncResult p x) := by
  refine resultOk_bounded_output ?_
  unfold hybEnc
  split <;> simp [hybEncLengths]

theorem hybDecResult_ok {p : Params} (hl : Params.legal p = true) (y : Block) :
    ResultOk p y (hybDecResult p y) := by
  refine resultOk_bounded fun hfit => ?_
  cases ha : dictDec p y with
  | ok t => simp_all [ResultOk, fitsOut, hybDec, hybDecLengths]
  | raised a =>
    cases hb : dictDec p (rleDec y) with
    | ok out => simp_all [ResultOk, fitsOut, hybDec, hybDecLengths, Decoded.written]
    | raised b =>
      simp only [hybDecLengths, ha, hb, Decoded.written, List.forall_mem_cons] at hfit
      obtain ⟨hposA, -, hposB, -⟩ := hfit
      simp only [hybDec, ha, hb]
      exact .inr (.inr (.inl ⟨rfl, dictDec_raised_causeOk hl ha hposA, dictDec_raised_causeOk hl hb hposB⟩))

theorem compressResult_ok (p : Params) (hyb gate : Bool) (x : Block) :
    ResultOk p x (compressResult p hyb gate x) :=
  resultOk_bounded fun hfit => ⟨rfl, hfit _ (List.mem_append_left _
    (List.mem_map_of_mem (select_mem_candidates p hyb gate x)))⟩

theorem decoderResult_ok {p : Params} (hl : Params.legal p = true) (k : Strategy) (y : Block) :
    ResultOk p y (decoderResult p k y) := by
  cases k with
  | raw | rle | delta => exact resultOk_bounded_output (List.mem_singleton_self _)
  | dict => exact dictDecResult_ok hl y
  | hybrid => exact hybDecResult_ok hl y

/-- The answer of every command's function. -/
theorem resultFn_ok {s : State} (hl : Params.legal s.cfg = true) (i : Instr) (x : Block) :
    ResultOk s.cfg x (resultFn i s x) := by
  cases i with
  | rawEnc | rleEnc | dictEnc | deltaEnc => exact resultOk_bounded_output (List.mem_singleton_self _)
  | hybEnc => exact hybEncResult_ok s.cfg x
  | compress hyb acc => exact compressResult_ok s.cfg hyb (gateOperand s) x
  | rawDec => exact decoderResult_ok hl .raw x
  | rleDec => exact decoderResult_ok hl .rle x
  | dictDec => exact decoderResult_ok hl .dict x
  | deltaDec => exact decoderResult_ok hl .delta x
  | hybDec => exact decoderResult_ok hl .hybrid x
  | decompress => exact decoderResult_ok hl _ x

/-! ### The causes raised before a function runs -/

/-- R232: no block loaded. -/
theorem causesOk_invalidInput (p : Params) : CausesOk p (errorCode .invalidInput) Cause.zero Cause.zero :=
  .inl ⟨rfl, rfl, rfl⟩

/-- R235: a tag from 5 to 255. -/
theorem causesOk_unknownStrategy (p : Params) {tag : Nat} (h5 : 5 ≤ tag) (h255 : tag ≤ 255) :
    CausesOk p (errorCode .unknownStrategy) (tagCause tag) Cause.zero := by
  have htag : (BitVec.ofNat 8 tag).toNat = tag := by
    rw [BitVec.toNat_ofNat]
    omega
  exact .inr (.inr (.inr (.inl ⟨rfl, ⟨BitVec.ofNat 8 tag, h5.trans htag.ge, rfl⟩, rfl⟩)))

/-- R236: a word that is no command's. -/
theorem causesOk_illegalCommand (p : Params) {c : Byte} {why : DecodeError} (hd : decode c = .illegal why) :
    CausesOk p (errorCode .illegalCommand) (wordCause c) Cause.zero :=
  .inr (.inr (.inr (.inr ⟨rfl, ⟨c, by simp [hd, DecodeResult.toOption], rfl⟩, rfl⟩)))

/-! ### Commands, moves and steps keep the invariant -/

/-- R240, R242: the end of a command keeps the invariant. -/
theorem finish_keeps_inv {s t : State} (hi : Inv s) {r : CommandResult} (hr : ResultOk s.cfg s.inBuf r)
    (h : finish r s = .next t) : Inv t := by
  rcases finish_next h with ⟨out, rfl, rfl⟩ | ⟨k, orig, payload, rfl, rfl⟩ | ⟨k, a, b, rfl, rfl⟩
  · exact inv_successExit hi hr
  · obtain ⟨rfl, hp⟩ := hr
    exact inv_writeRecord (inv_successExit hi hp) k (fitsSize_of_atMost_nMax hi.legal hi.inFits)
      (fitsSize_of_atMost_mMax hi.legal hp)
  · exact inv_errorEntry hi hr

theorem exec_keeps_inv {i : Instr} {s t : State} (hi : Inv s) (h : exec i s = .next t) : Inv t := by
  obtain ⟨hl, ⟨-, ht, rfl⟩ | ⟨-, -, rfl⟩ | ⟨-, -, hf⟩⟩ := exec_next h
  · exact inv_errorEntry hi (causesOk_unknownStrategy s.cfg ht hi.tagByte)
  · exact inv_errorEntry hi (causesOk_invalidInput s.cfg)
  · exact finish_keeps_inv (inv_discardCallScoped hi) (resultFn_ok hl i s.inBuf) hf

theorem perform_keeps_inv {m : HostMove} {s t : State} (hi : Inv s) (h : perform m s = .next t) : Inv t := by
  obtain ⟨hl, ⟨x, -, hx, rfl⟩ | ⟨k, -, rfl⟩ | ⟨o, c, -, rfl⟩ | ⟨r, -, rfl⟩ | ⟨c, i, -, -, he⟩ | ⟨c, why, -, hd, rfl⟩ |
    ⟨-, rfl⟩ | ⟨-, rfl⟩ | ⟨-, -, hx, rfl⟩⟩ := perform_next h
  · exact inv_loadBlock hi hx
  · exact inv_setTag hi k
  · exact inv_setSizes hi o c
  · exact inv_setEntropy hi r
  · exact exec_keeps_inv (inv_writeCmd hi c) he
  · exact inv_errorEntry (inv_writeCmd hi c) (causesOk_illegalCommand s.cfg hd)
  · exact hi
  · exact inv_hostReset hl
  · exact inv_loadBlock hi hx

/-- Settles O11: an idle step changes nothing, and every other step performs a move, each of which keeps the invariant. -/
theorem everyStepKeepsTheInvariant : Obligations.EveryStepKeepsTheInvariant := by
  intro s t hi h
  cases hp : s.program with
  | nil =>
    rw [step_idle hp] at h
    cases h
    exact hi
  | cons m rest =>
    rw [step_move hp] at h
    exact perform_keeps_inv (inv_withProgram hi rest) h

/-- Settles O53: a `COMPRESS` that is done wrote the record of the winner, which is not longer than the block. -/
theorem recordInvariants : Obligations.RecordInvariants := by
  intro s t hyb acc h hst
  rw [exec_compress_done h hst]
  exact ⟨rfl, rfl, select_length_le s.cfg hyb (gateOperand s) s.inBuf, _, rfl⟩

end Sys2Proof.Proofs
end

section
/-! The gate against the entropy of the block (R28, R192, R194). -/

namespace Sys2Proof.Proofs

open Sys2Proof.Machine Sys2Proof.Safety

/-- R194: the gate is the strict comparison with 4.0. -/
theorem gateOpen_iff (h : Rat) : gateOpen h = true ↔ h < 4 := decide_eq_true_iff

/-- R28, R194: on an `H_IN` that was presented for the block, and in range, the gate compares it with 4.0. -/
theorem gateOperand_iff_of_current {s : State} (hc : s.hInCurrent = true) (h0 : 0 ≤ s.hIn) (h8 : s.hIn ≤ 8) :
    gateOperand s = true ↔ s.hIn < 4 := by
  simp [gateOperand, entropyInRange, gateOpen_iff, hc, h0, h8]

/-- A number and an approximation to it lie on the same side of a bound that is further from the number than the
tolerance. -/
theorem lt_iff_lt_of_abs_sub_le {a e bound tolerance : ℝ} (ha : |a - e| ≤ tolerance)
    (hb : tolerance < |e - bound|) : a < bound ↔ e < bound := by
  obtain ⟨hlow, hhigh⟩ := abs_le.mp ha
  rcases lt_abs.mp hb with h | h
  · exact ⟨fun g => by linarith, fun g => by linarith⟩
  · exact ⟨fun g => by linarith, fun g => by linarith⟩

/-- Settles O50: the gate compares the presented `H_IN` with 4.0, which lies on the same side of both. -/
theorem gateFollowsTheEntropy : Obligations.GateFollowsTheEntropy := by
  refine ⟨fun s => gateOperand_iff_of_current, fun s tolerance ⟨hc, h0, h8, hnear⟩ hfar => ?_⟩
  calc gateOperand s = true ↔ s.hIn < 4 := gateOperand_iff_of_current hc h0 h8
    _ ↔ (s.hIn : ℝ) < 4 := by exact_mod_cast Iff.rfl
    _ ↔ entropy s.inBuf < 4 := lt_iff_lt_of_abs_sub_le hnear hfar

end Sys2Proof.Proofs
end

section
/-! What a command answers depends on its operands alone (R40): the gate reaches no record (R205), a command's function
is fixed by the parameters, the tag and the word, and no command changes its own operands. -/

namespace Sys2Proof.Proofs

open Sys2Proof.Machine Sys2Proof.Safety

/-! ### The gate reaches no record -/

theorem differences_length (prev : Byte) (x : Block) : (differences prev x).length = x.length := by
  induction x generalizing prev with
  | nil => rfl
  | cons b bs ih => simp [differences, ih]

/-- R128: delta encoding keeps the length. -/
@[simp] theorem deltaEnc_length (d : DeltaFirst) (x : Block) : (deltaEnc d x).length = x.length := by
  cases x with
  | nil => rfl
  | cons b bs => simp [deltaEnc, differences_length]

/-- R201: a candidate that is not shorter does not replace the best. -/
theorem keepSmaller_of_le {best c : Choice} (h : best.payload.length ≤ c.payload.length) :
    keepSmaller best c = best := by
  simp [keepSmaller, h]

/-- R203, R205: the DELTA candidate, as long as RAW, never replaces the best, so the winner is that of a closed gate. -/
theorem select_eq_of_gate_closed (p : Params) (hyb gate : Bool) (x : Block) :
    select p hyb gate x = select p hyb false x := by
  cases gate with
  | false => rfl
  | true =>
    have hdelta : keepSmaller (keepSmaller ⟨.raw, x⟩ ⟨.rle, rleEnc x⟩) ⟨.delta, deltaEnc p.deltaFirst x⟩ =
        keepSmaller ⟨.raw, x⟩ ⟨.rle, rleEnc x⟩ :=
      keepSmaller_of_le ((foldl_keepSmaller_length_le ⟨.raw, x⟩ [⟨.rle, rleEnc x⟩]).trans (by simp))
    simp [select, laterCandidates, hdelta]

/-- R64, R205: the DELTA candidate fits `M_MAX` when RAW does, so the gate decides no refusal either. -/
theorem compressResult_eq_of_gate_closed (p : Params) (hyb gate : Bool) (x : Block) :
    compressResult p hyb gate x = compressResult p hyb false x := by
  have hfit : (compressLengths p hyb gate x).all (atMost p.mMax) =
      (compressLengths p hyb false x).all (atMost p.mMax) := by
    cases gate with
    | false => rfl
    | true =>
      simp only [compressLengths, candidates, laterCandidates, List.map_cons, List.map_append, List.all_cons,
        List.all_append, if_true, Bool.false_eq_true, if_false, List.map_nil, List.all_nil, deltaEnc_length]
      cases atMost p.mMax x.length <;> simp
  simp only [compressResult, bounded, hfit, select_eq_of_gate_closed p hyb gate x]

/-! ### A command's function and its operands -/

/-- R40, R205: the function of a command is fixed by the parameters and, for `DECOMPRESS`, the tag. -/
theorem resultFn_congr {i : Instr} {s s' : State} (hcfg : s.cfg = s'.cfg)
    (htag : i = .decompress → s.recStrategy = s'.recStrategy) : resultFn i s = resultFn i s' := by
  cases i with
  | compress hyb acc =>
    funext x
    simp only [resultFn, hcfg]
    rw [compressResult_eq_of_gate_closed, compressResult_eq_of_gate_closed (gate := gateOperand s')]
  | decompress => simp only [resultFn, strategyOperand, hcfg, htag rfl]
  | _ => simp only [resultFn, hcfg]

/-- R64: a bounded answer that is a record is the record given. -/
theorem bounded_eq_record {p : Params} {lengths : List Nat} {r : CommandResult} {k : Strategy} {orig : Nat}
    {payload : Block} (h : bounded p lengths r = .record k orig payload) : r = .record k orig payload := by
  rcases bounded_eq p lengths r with ⟨e, -⟩ | ⟨e, -⟩ <;> rw [e] at h
  · exact h
  · cases h

/-- No decoder gives a record. -/
theorem decoderResult_ne_record (p : Params) (d : Strategy) (y : Block) {k : Strategy} {orig : Nat}
    {payload : Block} : decoderResult p d y ≠ .record k orig payload := by
  intro h
  cases d with
  | raw | rle | delta => cases bounded_eq_record h
  | dict =>
    have := bounded_eq_record h
    split at this <;> cases this
  | hybrid =>
    have := bounded_eq_record h
    split at this <;> cases this

/-- R202: only `COMPRESS` gives a record. -/
theorem isCompress_of_resultFn_eq_record {i : Instr} {s : State} {x : Block} {k : Strategy} {orig : Nat}
    {payload : Block} (h : resultFn i s x = .record k orig payload) : isCompress i = true := by
  cases i with
  | compress hyb acc => rfl
  | rawEnc | rleEnc | dictEnc | deltaEnc | hybEnc => cases bounded_eq_record h
  | rawDec => exact absurd h (decoderResult_ne_record s.cfg .raw x)
  | rleDec => exact absurd h (decoderResult_ne_record s.cfg .rle x)
  | dictDec => exact absurd h (decoderResult_ne_record s.cfg .dict x)
  | deltaDec => exact absurd h (decoderResult_ne_record s.cfg .delta x)
  | hybDec => exact absurd h (decoderResult_ne_record s.cfg .hybrid x)
  | decompress => exact absurd h (decoderResult_ne_record s.cfg _ x)

/-- R202: `COMPRESS` gives no bare output. -/
theorem isCompress_of_resultFn_eq_output {i : Instr} {s : State} {x out : Block}
    (h : resultFn i s x = .output out) : isCompress i = false := by
  cases i with
  | compress hyb acc =>
    rcases compressResult_cases s.cfg hyb (gateOperand s) x with ⟨e, -⟩ | e <;> simp [resultFn, e] at h
  | _ => rfl

/-! ### The answer -/

/-- R240: an error's code is not 0. -/
theorem errorCode_ne_zero (k : ErrorKind) : errorCode k ≠ 0 := by cases k <;> decide

/-- R40: the answer of an error entry does not depend on the state it is entered from. -/
theorem answerOf_errorEntry (i : Instr) (k : ErrorKind) (a b : Cause) (s : State) :
    answerOf i (.next (errorEntry k a b s)) = .inl ⟨[], stError, errorCode k, a, b, none⟩ := by
  have hno : ¬ (isCompress i = true ∧ (errorEntry k a b s).err = 0) := fun h => errorCode_ne_zero k h.2
  rw [answerOf, if_neg hno]
  rfl

/-- R40: how a command's function ends does not depend on the state; only `COMPRESS` answers with the record registers,
and it writes all three. -/
theorem answerOf_finish_congr {i : Instr} {r : CommandResult} (s s' : State)
    (hout : ∀ out, r = .output out → isCompress i = false) :
    answerOf i (finish r s) = answerOf i (finish r s') := by
  cases r with
  | output out => simp [finish, answerOf, hout out rfl]
  | record k orig payload => simp [finish, answerOf]
  | failed k a b => simp only [finish, answerOf_errorEntry]
  | tooLong => rfl

/-- R40: the answer of a command is fixed by the parameters, the input block and, for `DECOMPRESS`, the tag. -/
theorem answerOf_exec_congr {i : Instr} {s s' : State} (hcfg : s.cfg = s'.cfg) (hin : s.inBuf = s'.inBuf)
    (hv : s.inValid = s'.inValid) (htag : i = .decompress → s.recStrategy = s'.recStrategy) :
    answerOf i (exec i s) = answerOf i (exec i s') := by
  cases hl : Params.legal s.cfg with
  | false => rw [exec_of_illegal i hl, exec_of_illegal i (hcfg ▸ hl)]
  | true =>
    have hl' : Params.legal s'.cfg = true := hcfg ▸ hl
    by_cases hd : i = .decompress ∧ 5 ≤ s.recStrategy
    · obtain ⟨rfl, ht⟩ := hd
      rw [exec_decompress_unknown hl ht, exec_decompress_unknown hl' (htag rfl ▸ ht), answerOf_errorEntry,
        answerOf_errorEntry, htag rfl]
    · have hknown : i = .decompress → s.recStrategy ≤ 4 := fun e => by
        have : ¬ 5 ≤ s.recStrategy := fun h => hd ⟨e, h⟩
        omega
      rw [exec_eq_runCommand hknown, exec_eq_runCommand fun e => htag e ▸ hknown e]
      cases hvs : s.inValid with
      | false =>
        rw [runCommand_unloaded hl hvs, runCommand_unloaded hl' (hv ▸ hvs), answerOf_errorEntry, answerOf_errorEntry]
      | true =>
        rw [runCommand_loaded hl hvs, runCommand_loaded hl' (hv ▸ hvs), ← resultFn_congr hcfg htag, ← hin]
        exact answerOf_finish_congr _ _ fun out h => isCompress_of_resultFn_eq_output h

/-! ### No command changes its own operands -/

/-- R240, R242: a command leaves the parameters, `IN` and `IN_VALID` as they were, and every command but `COMPRESS` the
tag. -/
theorem exec_keeps_operands {i : Instr} {s t : State} (h : exec i s = .next t) :
    t.cfg = s.cfg ∧ t.inBuf = s.inBuf ∧ t.inValid = s.inValid ∧
      (isCompress i = false → t.recStrategy = s.recStrategy) := by
  obtain ⟨-, ⟨-, -, rfl⟩ | ⟨-, -, rfl⟩ | ⟨-, -, hf⟩⟩ := exec_next h
  · simp
  · simp
  · rcases finish_next hf with ⟨out, -, rfl⟩ | ⟨k, orig, payload, hr, rfl⟩ | ⟨k, a, b, -, rfl⟩
    · simp
    · simp [isCompress_of_resultFn_eq_record hr]
    · simp

/-- Settles O19: the answer is fixed by the operands, and a command leaves its own operands as they were. -/
theorem answersDependOnOperandsOnly : Obligations.AnswersDependOnOperandsOnly := by
  refine ⟨fun i s s' hcfg hin hv htag => answerOf_exec_congr hcfg hin hv htag, fun i s t h => ?_⟩
  obtain ⟨hcfg, hin, hv, htag⟩ := exec_keeps_operands h
  exact answerOf_exec_congr hcfg hin hv fun e => htag (e ▸ rfl)

end Sys2Proof.Proofs
end

section
/-! The host's queue of moves (R60): no move and no command reads it or writes it, so a run of the queue is the
composition of the moves' effects. -/

namespace Sys2Proof.Proofs

open Sys2Proof.Machine Sys2Proof.Safety
open Host (Outcome)

/-- An outcome with the host's remaining moves replaced in its next state. -/
def nextWithProgram (ms : List HostMove) : Outcome State Fault Refusal → Outcome State Fault Refusal
  | .next t => .next (withProgram ms t)
  | .fault r => .fault r
  | .refused r => .refused r

@[simp] theorem nextWithProgram_next (ms : List HostMove) (t : State) :
    nextWithProgram ms (.next t) = .next (withProgram ms t) := rfl

@[simp] theorem nextWithProgram_refused (ms : List HostMove) (r : Refusal) :
    nextWithProgram ms (.refused r) = .refused r := rfl

/-! ### Commands -/

/-- R240, R242: the end of a command carries the queue along. -/
theorem finish_withProgram (r : CommandResult) (ms : List HostMove) (s : State) :
    finish r (withProgram ms s) = nextWithProgram ms (finish r s) := by
  cases r with
  | output | record | failed | tooLong => rfl

/-- R243: running a command on its input block carries the queue along. -/
theorem runCommand_withProgram (f : Block → CommandResult) (ms : List HostMove) (s : State) :
    runCommand f (withProgram ms s) = nextWithProgram ms (runCommand f s) := by
  cases hl : Params.legal s.cfg with
  | false => rw [runCommand_illegal hl, runCommand_illegal (by simpa using hl), nextWithProgram_refused]
  | true =>
    cases hv : s.inValid with
    | false => rw [runCommand_unloaded hl hv, runCommand_unloaded (by simpa using hl) (by simpa using hv)]; rfl
    | true =>
      rw [runCommand_loaded hl hv, runCommand_loaded (by simpa using hl) (by simpa using hv)]
      exact finish_withProgram (f s.inBuf) ms (discardCallScoped s)

/-- R40: the function of a command does not depend on the queue. -/
theorem resultFn_withProgram (i : Instr) (ms : List HostMove) (s : State) :
    resultFn i (withProgram ms s) = resultFn i s :=
  resultFn_congr (withProgram_cfg ms s) fun _ => withProgram_recStrategy ms s

/-- R60: a command carries the queue along. -/
theorem exec_withProgram (i : Instr) (ms : List HostMove) (s : State) :
    exec i (withProgram ms s) = nextWithProgram ms (exec i s) := by
  cases hl : Params.legal s.cfg with
  | false => rw [exec_of_illegal i hl, exec_of_illegal i (by simpa using hl), nextWithProgram_refused]
  | true =>
    by_cases hd : i = .decompress ∧ 5 ≤ s.recStrategy
    · obtain ⟨rfl, ht⟩ := hd
      rw [exec_decompress_unknown hl ht, exec_decompress_unknown (by simpa using hl) (by simpa using ht)]
      rfl
    · have hknown : i = .decompress → s.recStrategy ≤ 4 := fun e => by
        have : ¬ 5 ≤ s.recStrategy := fun h => hd ⟨e, h⟩
        omega
      rw [exec_eq_runCommand hknown, exec_eq_runCommand (by simpa using hknown), resultFn_withProgram,
        runCommand_withProgram]

/-! ### Host moves -/

/-- R64: a load carries the queue along. -/
theorem hostLoad_withProgram (x : Block) (ms : List HostMove) (s : State) :
    hostLoad x (withProgram ms s) = nextWithProgram ms (hostLoad x s) := by
  cases hf : fitsIn s.cfg x with
  | false => rw [hostLoad_of_not_fits hf, hostLoad_of_not_fits (by simpa using hf), nextWithProgram_refused]
  | true => rw [hostLoad_of_fits hf, hostLoad_of_fits (by simpa using hf)]; rfl

/-- R76, R236: an issued word that does not decode raises `IllegalCommand`. -/
theorem hostIssue_of_illegal {c : Byte} {why : DecodeError} (s : State) (hd : decode c = .illegal why) :
    hostIssue c s = .next (illegalWord c (writeCmd c s)) := by
  simp [hostIssue, hd]

/-- R45: an issued word carries the queue along. -/
theorem hostIssue_withProgram (c : Byte) (ms : List HostMove) (s : State) :
    hostIssue c (withProgram ms s) = nextWithProgram ms (hostIssue c s) := by
  cases hd : decode c with
  | command i =>
    rw [hostIssue_of_command _ hd, hostIssue_of_command _ hd]
    exact exec_withProgram i ms (writeCmd c s)
  | illegal why => rw [hostIssue_of_illegal _ hd, hostIssue_of_illegal _ hd]; rfl

/-- R42, R88: a move on a legal block carries the queue along; `host_reset` keeps it too. -/
theorem performLegal_withProgram (m : HostMove) (ms : List HostMove) (s : State) :
    performLegal m (withProgram ms s) = nextWithProgram ms (performLegal m s) := by
  cases m with
  | load x => exact hostLoad_withProgram x ms s
  | issue c => exact hostIssue_withProgram c ms s
  | setTag | setSizes | setEntropy | read | reset => rfl
  | moveOutToIn =>
    by_cases hst : s.st = stDone
    · rw [performLegal_move_of_done hst, performLegal_move_of_done (by simpa using hst)]
      exact hostLoad_withProgram s.outBuf ms s
    · rw [performLegal_move_of_not_done hst, performLegal_move_of_not_done (by simpa using hst),
        nextWithProgram_refused]

/-- R42, R60: the effect of a move does not depend on the moves that follow it, and leaves them as they are. -/
theorem perform_withProgram (m : HostMove) (ms : List HostMove) (s : State) :
    perform m (withProgram ms s) = nextWithProgram ms (perform m s) := by
  cases hl : Params.legal s.cfg with
  | false => rw [perform_of_illegal hl, perform_of_illegal (by simpa using hl), nextWithProgram_refused]
  | true => rw [perform_of_legal hl, perform_of_legal (by simpa using hl), performLegal_withProgram]

/-! ### The statement -/

/-- Settles O9, by induction on the moves: the step takes the first one, whose effect is the same whatever follows it in
the queue. -/
theorem programIsCompositionOfMoves : Obligations.ProgramIsCompositionOfMoves := by
  intro ms rest s
  induction ms generalizing s with
  | nil => rfl
  | cons m ms ih =>
    have hstep : core.step (withProgram (m :: ms ++ rest) s) = nextWithProgram (ms ++ rest) (perform m s) :=
      (step_move (s := withProgram (m :: ms ++ rest) s) rfl).trans (perform_withProgram m (ms ++ rest) s)
    simp only [List.length_cons, Host.Core.run, performAll, hstep, perform_withProgram m rest s]
    cases perform m s with
    | next t => exact ih t
    | fault r => rfl
    | refused r => rfl

end Sys2Proof.Proofs
end

section
/-! The streams over `M_MAX` (R64, R177): a command gives no result when one of the streams its function counts does not
fit. -/

namespace Sys2Proof.Proofs

open Sys2Proof.Machine Sys2Proof.Safety

/-! ### Lengths of streams -/

/-- R125: a running sum for each code byte. -/
theorem runningSums_length (acc : Byte) (y : Block) : (runningSums acc y).length = y.length := by
  induction y generalizing acc with
  | nil => rfl
  | cons e es ih => simp [runningSums, ih]

/-- R128: delta decoding keeps the length. -/
@[simp] theorem deltaDec_length (y : Block) : (deltaDec y).length = y.length := by
  cases y with
  | nil => rfl
  | cons e es => simp [deltaDec, runningSums_length]

/-- R145: a code byte for each input byte, from any table. -/
theorem dictEncFrom_length (p : Params) (table x : Block) : (dictEncFrom p table x).length = x.length := by
  induction x generalizing table with
  | nil => rfl
  | cons b bs ih => simp [dictEncFrom, ih]

/-- R158: dictionary encoding keeps the length. -/
@[simp] theorem dictEnc_length (p : Params) (x : Block) : (dictEnc p x).length = x.length :=
  dictEncFrom_length p [] x

/-! ### The streams that the composed commands count -/

/-- R64, R199: `COMPRESS` counts the payload of every candidate. -/
theorem candidate_mem_compressLengths {p : Params} {hyb gate : Bool} {x : Block} {c : Choice}
    (hc : c ∈ candidates p hyb gate x) : c.payload.length ∈ compressLengths p hyb gate x :=
  List.mem_append_left _ (List.mem_map_of_mem hc)

/-- R64: `COMPRESS` with the hybrid candidate counts every stream of `HYB.ENC`. -/
theorem hybEncLengths_subset_compressLengths (p : Params) (gate : Bool) (x : Block) :
    hybEncLengths p x ⊆ compressLengths p true gate x :=
  List.subset_append_right _ _

/-- R64, R177: when attempt (a) succeeds, `HYB.DEC` counts its two streams. -/
theorem hybDecLengths_of_ok {p : Params} {y out : Block} (h : dictDec p y = .ok out) :
    hybDecLengths p y = [out.length, (rleDec out).length] := by
  simp [hybDecLengths, h]

/-- R64, R177: when attempt (a) raises, `HYB.DEC` counts what it had written and the two streams of attempt (b). -/
theorem hybDecLengths_of_raised {p : Params} {y : Block} {a : Cause} (h : dictDec p y = .raised a) :
    hybDecLengths p y = [a.pos, (rleDec y).length, (dictDec p (rleDec y)).written] := by
  simp [hybDecLengths, h]

/-! ### The refusal -/

/-- R64: a command whose function counts a stream longer than `M_MAX` gives no result. -/
theorem exec_refused_of_stream {i : Instr} {s : State} {lengths : List Nat} {r : CommandResult} {n : Nat}
    (hs : Ready s) (hi : i ≠ .decompress) (hf : resultFn i s s.inBuf = bounded s.cfg lengths r)
    (hn : n ∈ lengths) (hlong : atMost s.cfg.mMax n = false) : exec i s = .refused .outputOverMMax := by
  obtain ⟨hl, hv⟩ := hs
  rw [exec_eq_runCommand fun e => absurd e hi, runCommand_loaded hl hv, hf, bounded_of_not_fits hn hlong]
  rfl

/-- R64: a command whose function counts one stream gives no result when that one is longer than `M_MAX`. -/
theorem exec_refused_of_output {i : Instr} {s : State} {r : CommandResult} {n : Nat} (hs : Ready s)
    (hi : i ≠ .decompress) (hf : resultFn i s s.inBuf = bounded s.cfg [n] r)
    (hlong : atMost s.cfg.mMax n = false) : exec i s = .refused .outputOverMMax :=
  exec_refused_of_stream hs hi hf (List.mem_singleton_self n) hlong

/-- R64, R171: `HYB.ENC` gives no result when one of its streams is longer than `M_MAX`. -/
theorem exec_hybEnc_refused {s : State} {n : Nat} (hs : Ready s) (hn : n ∈ hybEncLengths s.cfg s.inBuf)
    (hlong : atMost s.cfg.mMax n = false) : exec .hybEnc s = .refused .outputOverMMax :=
  exec_refused_of_stream hs nofun rfl hn hlong

/-- R64, R198: `COMPRESS` gives no result when one of its streams is longer than `M_MAX`. -/
theorem exec_compress_refused {s : State} {hyb acc : Bool} {n : Nat} (hs : Ready s)
    (hn : n ∈ compressLengths s.cfg hyb (gateOperand s) s.inBuf) (hlong : atMost s.cfg.mMax n = false) :
    exec (.compress hyb acc) s = .refused .outputOverMMax :=
  exec_refused_of_stream hs nofun rfl hn hlong

/-- R64, R149: `DICT.DEC` gives no result when what it wrote is longer than `M_MAX`, also when it raised. -/
theorem exec_dictDec_refused {s : State} (hs : Ready s)
    (hlong : atMost s.cfg.mMax (dictDec s.cfg s.inBuf).written = false) :
    exec .dictDec s = .refused .outputOverMMax :=
  exec_refused_of_output hs nofun rfl hlong

/-- R64, R177: `HYB.DEC` gives no result when one of its streams is longer than `M_MAX`. -/
theorem exec_hybDec_refused {s : State} {n : Nat} (hs : Ready s) (hn : n ∈ hybDecLengths s.cfg s.inBuf)
    (hlong : atMost s.cfg.mMax n = false) : exec .hybDec s = .refused .outputOverMMax :=
  exec_refused_of_stream hs nofun rfl hn hlong

/-! ### The statement -/

/-- Settles O20: in each clause the stream over `M_MAX` is one that the command counts. -/
theorem streamOverMMaxIsRefused : Obligations.StreamOverMMaxIsRefused := by
  intro s hs
  refine ⟨fun hx => ?input, fun hx => ?runs, fun hx => ?pipelineB, fun hx => ?expansion, fun out hd hx => ?decoded,
    fun out hd hx => ?attemptA, fun a hd hx => ?raised, fun a hd hx => ?attemptB⟩
  case input =>
    have hdict : atMost s.cfg.mMax (dictEnc s.cfg s.inBuf).length = false := by rwa [dictEnc_length]
    refine ⟨exec_refused_of_output hs nofun rfl hx, exec_refused_of_output hs nofun rfl hx,
      exec_refused_of_output hs nofun rfl ?_, exec_refused_of_output hs nofun rfl ?_,
      exec_refused_of_output hs nofun rfl hdict, exec_hybEnc_refused hs (by simp [hybEncLengths]) hdict,
      fun hyb acc => exec_compress_refused hs (candidate_mem_compressLengths (c := ⟨.raw, s.inBuf⟩) ?_) hx⟩
    · rwa [deltaEnc_length]
    · rwa [deltaDec_length]
    · simp [candidates]
  case runs =>
    refine ⟨exec_refused_of_output hs nofun rfl hx, exec_hybEnc_refused hs (by simp [hybEncLengths]) hx,
      fun hyb acc => exec_compress_refused hs (candidate_mem_compressLengths (c := ⟨.rle, rleEnc s.inBuf⟩) ?_) hx⟩
    simp [candidates, laterCandidates]
  case pipelineB =>
    have hmem : (rleEnc (dictEnc s.cfg s.inBuf)).length ∈ hybEncLengths s.cfg s.inBuf := by
      simp [hybEncLengths, pipeB]
    exact ⟨exec_hybEnc_refused hs hmem hx,
      fun acc => exec_compress_refused hs (hybEncLengths_subset_compressLengths s.cfg _ s.inBuf hmem) hx⟩
  case expansion => exact exec_refused_of_output hs nofun rfl hx
  case decoded =>
    exact ⟨exec_dictDec_refused hs (by rw [hd]; exact hx),
      exec_hybDec_refused hs (by simp [hybDecLengths_of_ok hd]) hx⟩
  case attemptA => exact exec_hybDec_refused hs (by simp [hybDecLengths_of_ok hd]) hx
  case raised =>
    exact ⟨exec_dictDec_refused hs (by rw [hd]; exact hx),
      exec_hybDec_refused hs (by simp [hybDecLengths_of_raised hd]) hx⟩
  case attemptB => exact exec_hybDec_refused hs (by simp [hybDecLengths_of_raised hd]) hx

end Sys2Proof.Proofs
end

section
/-! The command words (R73 to R76): the decoder and the encoder as inverses of each other, the legal words as the words
of the commands, and the error of an illegal one (R236). -/

namespace Sys2Proof.Proofs

open Sys2Proof.Machine

/-! ### Words and fields -/

/-- R73: the five fields of a word make the word. -/
@[simp] theorem wordOf_fieldsOf (c : Byte) : wordOf (fieldsOf c) = c := by
  revert c; decide

/-- R73, R74: the fields read from a command's word are the command's. -/
@[simp] theorem fieldsOf_encode (i : Instr) : fieldsOf (encode i) = i.fields := by
  cases i with
  | rawEnc => exact Laws.WordFields.rawEnc.1
  | rleEnc => exact Laws.WordFields.rleEnc.1
  | dictEnc => exact Laws.WordFields.dictEnc.1
  | deltaEnc => exact Laws.WordFields.deltaEnc.1
  | hybEnc => exact Laws.WordFields.hybEnc.1
  | compress hyb acc => exact (Laws.WordFields.compress hyb acc).1
  | rawDec => exact Laws.WordFields.rawDec.1
  | rleDec => exact Laws.WordFields.rleDec.1
  | dictDec => exact Laws.WordFields.dictDec.1
  | deltaDec => exact Laws.WordFields.deltaDec.1
  | hybDec => exact Laws.WordFields.hybDec.1
  | decompress => exact Laws.WordFields.decompress.1

/-- R74: `sel` and `dir` of a command's fields name the command. -/
@[simp] theorem commandOf_fields (i : Instr) : commandOf i.fields = some i := by
  cases i <;> rfl

/-- R73: a command's reserved bits are 0. -/
@[simp] theorem fields_reservedOk (i : Instr) : i.fields.reservedOk = true := by
  cases i <;> rfl

/-- R73: a command's `sel` is none of the reserved ones. -/
@[simp] theorem fields_selectorOk (i : Instr) : i.fields.selectorOk = true := by
  cases i <;> rfl

/-- R73: only `COMPRESS` sets flags. -/
@[simp] theorem fields_flagsOk (i : Instr) : i.fields.flagsOk = true := by
  cases i <;> rfl

/-- R73, R74: every command is well formed. -/
theorem instr_wf (i : Instr) : i.wf = true := by
  simp [Instr.wf, CmdFields.wf]

/-- R74: where both flags are clear, the fields are those of the command that `sel` and `dir` name. -/
theorem fields_of_commandOf_clear :
    ∀ (dir : Bool) (sel : BitVec 3), ∀ i ∈ commandOf ⟨0, false, false, dir, sel⟩,
      i.fields = ⟨0, false, false, dir, sel⟩ := by
  decide

/-- R74: legal fields are those of the command that their `sel` and `dir` name: `COMPRESS` takes its flags from them,
and the fields of any other command have none. -/
theorem fields_of_commandOf {f : CmdFields} {i : Instr} (hr : f.reservedOk = true) (hf : f.flagsOk = true)
    (hc : commandOf f = some i) : i.fields = f := by
  obtain ⟨rsv, acc, hyb, dir, sel⟩ := f
  obtain rfl : rsv = 0 := by simpa [CmdFields.reservedOk] using hr
  have hflags : (sel = 7 ∧ dir = false) ∨ (acc = false ∧ hyb = false) := by simpa [CmdFields.flagsOk] using hf
  rcases hflags with ⟨rfl, rfl⟩ | ⟨rfl, rfl⟩
  · cases hc
    rfl
  · exact fields_of_commandOf_clear dir sel i hc

/-- R74: the decoder answers a command exactly on the fields of its word. -/
theorem decode_eq_command_iff {c : Byte} {i : Instr} : decode c = .command i ↔ i.fields = fieldsOf c := by
  constructor
  · intro h
    simp only [decode] at h
    split at h
    next hr =>
      split at h
      next => cases h
      next j hj =>
        split at h
        next hf => cases h; exact fields_of_commandOf hr hf hj
        next => cases h
    next => cases h
  · intro h
    simp [decode, ← h]

/-- R73, R74: the decoder answers a command exactly on its word. -/
theorem decode_eq_command_iff_encode {c : Byte} {i : Instr} : decode c = .command i ↔ encode i = c := by
  rw [decode_eq_command_iff]
  constructor
  · intro h
    rw [encode, h, wordOf_fieldsOf]
  · rintro rfl
    exact (fieldsOf_encode i).symm

/-- R74: the word of a command decodes to it. -/
@[simp] theorem decode_encode (i : Instr) : decode (encode i) = .command i :=
  decode_eq_command_iff_encode.mpr rfl

/-! ### The legal words -/

/-- R74: the commands, `COMPRESS` once for each value of its two flags, in the order of the table. -/
def commands : List Instr :=
  [.rawEnc, .rleEnc, .dictEnc, .deltaEnc, .hybEnc, .compress false false, .compress true false, .compress false true,
    .compress true true, .rawDec, .rleDec, .dictDec, .deltaDec, .hybDec, .decompress]

theorem mem_commands (i : Instr) : i ∈ commands := by
  cases i with
  | compress hyb acc => cases hyb <;> cases acc <;> decide
  | _ => decide

/-- R74: the words that decode are those of the commands. -/
theorem exists_decode_eq_command_iff {c : Byte} : (∃ i, decode c = .command i) ↔ c ∈ commands.map encode := by
  simp [decode_eq_command_iff_encode, mem_commands]

/-- R74: a decoding has a command exactly when it is one. -/
theorem toOption_isSome_iff {r : DecodeResult} : r.toOption.isSome = true ↔ ∃ i, r = .command i := by
  cases r <;> simp [DecodeResult.toOption]

/-- R74: the numbers of the legal words are those of the commands' words. -/
theorem legal_words_perm :
    ((List.range 256).filter fun n => (decode (BitVec.ofNat 8 n)).toOption.isSome).Perm
      (commands.map fun i => (encode i).toNat) := by
  refine (List.perm_ext_iff_of_nodup (List.nodup_range.filter _) (by decide)).mpr fun n => ?_
  simp only [List.mem_filter, List.mem_range, toOption_isSome_iff, decode_eq_command_iff_encode, List.mem_map,
    mem_commands, true_and]
  constructor
  · rintro ⟨hn, i, hi⟩
    exact ⟨i, by rw [hi, BitVec.toNat_ofNat, Nat.mod_eq_of_lt hn]⟩
  · rintro ⟨i, rfl⟩
    exact ⟨(encode i).isLt, i, by simp⟩

/-- R76: of the 256 words, those that are no command's are 256 less the fifteen commands. -/
theorem illegal_words_count :
    ((List.range 256).filter fun n => (decode (BitVec.ofNat 8 n)).toOption.isNone).length = 241 := by
  have hsplit := List.length_eq_length_filter_add (l := List.range 256)
    fun n => (decode (BitVec.ofNat 8 n)).toOption.isSome
  have hlegal := legal_words_perm.length_eq
  simp only [Option.not_isSome, List.length_range, List.length_map] at hsplit hlegal
  have hcommands : commands.length = 15 := rfl
  omega

/-! ### The tags -/

/-- R71: the tag of a strategy names it. -/
@[simp] theorem strategyOf_tagOf (k : Strategy) : strategyOf (tagOf k) = some k := by
  cases k <;> rfl

/-! ### The statements -/

/-- Settles O1: each legal word is its command's, each illegal one is decoded, and a tag names its strategy. -/
theorem commandWordsAndTagsAsTabled : Obligations.CommandWordsAndTagsAsTabled := by
  refine ⟨decode_encode .rawEnc, decode_encode .rleEnc, decode_encode .dictEnc, decode_encode .deltaEnc,
    decode_encode .hybEnc, decode_encode (.compress false false), decode_encode (.compress true false),
    decode_encode (.compress false true), decode_encode (.compress true true), decode_encode .rawDec,
    decode_encode .rleDec, decode_encode .dictDec, decode_encode .deltaDec, decode_encode .hybDec,
    decode_encode .decompress, ?reservedBits, ?reservedSelector, ?flagOutsideCompress,
    strategyOf_tagOf .raw, strategyOf_tagOf .rle, strategyOf_tagOf .dict, strategyOf_tagOf .delta,
    strategyOf_tagOf .hybrid, strategyOf_eq_none_iff, strategyOf_tagOf⟩
  case reservedBits => rfl
  case reservedSelector => rfl
  case flagOutsideCompress => rfl

/-- Settles O2: a command's fields are well formed, and the decoder answers a command exactly on its word. -/
theorem decodeAndEncodeAgree : Obligations.DecodeAndEncodeAgree :=
  ⟨fun i => ⟨instr_wf i, decode_encode i⟩, fun _ _ => decode_eq_command_iff_encode.mp⟩

/-- Settles O3: the legal words are those of the fifteen commands, and the issue of any other word ends in the error
entry. -/
theorem illegalWordRaisesIllegalCommand : Obligations.IllegalWordRaisesIllegalCommand := by
  refine ⟨fun _ => exists_decode_eq_command_iff, illegal_words_count, fun s c rest why hl hp hd => ?_⟩
  rw [step_of_legal hl hp]
  exact hostIssue_of_illegal (withProgram rest s) hd

end Sys2Proof.Proofs
end

section
/-! The streams of `RLE.ENC` (R78, R111): every block is the replay of a list of pairs as R78 describes them, and
`RLE.ENC` finds that list. -/

namespace Sys2Proof.Proofs

open Sys2Proof.Machine Sys2Proof.Safety

/-! ### The inner loop of the encoder -/

@[simp] theorem runAhead_zero (v : Byte) (x : Block) : runAhead v 0 x = 0 := rfl

@[simp] theorem runAhead_nil (v : Byte) (limit : Nat) : runAhead v limit [] = 0 := by
  simp [runAhead]

@[simp] theorem runAhead_succ_cons (v : Byte) (limit : Nat) (b : Byte) (bs : Block) :
    runAhead v (limit + 1) (b :: bs) = if b = v then runAhead v limit bs + 1 else 0 := by
  by_cases h : b = v <;> simp [runAhead, h]

/-- R101: the inner loop counts bytes of value `v` up to its limit, a different byte or the end of the block. -/
theorem exists_rest_of_runAhead (v : Byte) (limit : Nat) (x : Block) :
    ∃ rest, x = List.replicate (runAhead v limit x) v ++ rest ∧ runAhead v limit x ≤ limit ∧
      (runAhead v limit x = limit ∨ rest.head? ≠ some v) := by
  induction limit generalizing x with
  | zero => exact ⟨x, by simp⟩
  | succ limit ih =>
    cases x with
    | nil => exact ⟨[], by simp⟩
    | cons b bs =>
      by_cases hb : b = v
      · obtain ⟨rest, hbs, hle, hstop⟩ := ih bs
        exact ⟨rest, by simpa [hb, List.replicate_succ] using hbs, by simpa [hb] using hle, by simpa [hb] using hstop⟩
      · exact ⟨b :: bs, by simp [hb]⟩

/-- R101: what the inner loop counts on a run that its limit, a different byte or the end of the block stops. -/
theorem runAhead_replicate_append {v : Byte} {limit n : Nat} {rest : Block} (hn : n ≤ limit)
    (hstop : n = limit ∨ rest.head? ≠ some v) : runAhead v limit (List.replicate n v ++ rest) = n := by
  induction n generalizing limit with
  | zero =>
    cases limit with
    | zero => rfl
    | succ limit => cases rest <;> simp_all
  | succ n ih =>
    obtain ⟨limit, rfl⟩ : ∃ k, limit = k + 1 := ⟨limit - 1, by omega⟩
    simpa [List.replicate_succ] using ih (by omega) (by simpa using hstop)

/-! ### The encoder -/

/-- R101: any fuel from the length of the block on gives the same pairs. -/
theorem rleLoop_eq_of_le {fuel fuel' : Nat} {x : Block} (h : x.length ≤ fuel) (h' : x.length ≤ fuel') :
    rleLoop fuel x = rleLoop fuel' x := by
  induction fuel generalizing fuel' x with
  | zero =>
    obtain rfl : x = [] := List.length_eq_zero_iff.mp (by omega)
    cases fuel' <;> rfl
  | succ fuel ih =>
    cases x with
    | nil => cases fuel' <;> rfl
    | cons v rest =>
      obtain ⟨fuel', rfl⟩ : ∃ k, fuel' = k + 1 := ⟨fuel' - 1, by simp at h'; omega⟩
      simp only [List.length_cons, Nat.add_le_add_iff_right] at h h'
      simp only [rleLoop]
      rw [ih (fuel' := fuel') (by simp; omega) (by simp; omega)]

@[simp] theorem rleEnc_nil : rleEnc [] = [] := rfl

/-- R101: a first byte with what the inner loop counts after it gives a pair, and the coding goes on after them. -/
theorem rleEnc_cons (v : Byte) (rest : Block) : rleEnc (v :: rest) =
    v :: BitVec.ofNat 8 (1 + runAhead v 254 rest) :: rleEnc (rest.drop (runAhead v 254 rest)) := by
  simp only [rleEnc, List.length_cons, rleLoop, Config.runMax]
  rw [rleLoop_eq_of_le (by simp) le_rfl]

/-- R101: a first run of `n` bytes, stopped by 255, by a different byte or by the end of the block, gives the pair
(value, `n`). -/
theorem rleEnc_replicate_append {v : Byte} {n : Nat} {rest : Block} (h1 : 1 ≤ n) (h255 : n ≤ 255)
    (hstop : n = 255 ∨ rest.head? ≠ some v) :
    rleEnc (List.replicate n v ++ rest) = v :: BitVec.ofNat 8 n :: rleEnc rest := by
  obtain ⟨m, rfl⟩ : ∃ m, n = m + 1 := ⟨n - 1, by omega⟩
  have hcount : runAhead v 254 (List.replicate m v ++ rest) = m :=
    runAhead_replicate_append (by omega) (by simpa using hstop)
  rw [List.replicate_succ, List.cons_append, rleEnc_cons, hcount, Nat.add_comm 1 m]
  simp

/-- R14, R101: a non-empty block begins with a run as the encoder cuts it. -/
theorem exists_first_run (v : Byte) (rest : Block) : ∃ n tail, v :: rest = List.replicate n v ++ tail ∧
    1 ≤ n ∧ n ≤ 255 ∧ (n = 255 ∨ tail.head? ≠ some v) := by
  obtain ⟨tail, hrest, hle, hstop⟩ := exists_rest_of_runAhead v 254 rest
  refine ⟨runAhead v 254 rest + 1, tail, ?_, by omega, by omega, by simpa using hstop⟩
  rw [List.replicate_succ, List.cons_append, ← hrest]

/-! ### The decoder on pairs -/

@[simp] theorem rleDec_nil : rleDec [] = [] := rfl

@[simp] theorem rleDec_singleton (b : Byte) : rleDec [b] = [] := rfl

@[simp] theorem rleDec_cons_cons (v c : Byte) (rest : Block) :
    rleDec (v :: c :: rest) = List.replicate c.toNat v ++ rleDec rest := rfl

@[simp] theorem pairStream_nil : pairStream [] = [] := rfl

@[simp] theorem pairStream_cons (v c : Byte) (ps : List (Byte × Byte)) :
    pairStream ((v, c) :: ps) = v :: c :: pairStream ps := rfl

/-- R106: an unpaired last byte is ignored. -/
theorem rleDec_append_singleton (b : Byte) : ∀ {y : Block}, y.length % 2 = 0 → rleDec (y ++ [b]) = rleDec y
  | [], _ => rfl
  | [_], h => by simp at h
  | v :: c :: rest, h => by
    have hrest : rest.length % 2 = 0 := by
      simp only [List.length_cons] at h
      omega
    simp [rleDec_append_singleton b hrest]

/-! ### The pairs that the encoder writes -/

/-- R78: lengths from 1 to 255, and two consecutive pairs with the same value only if the first has length 255. -/
def CutPairs (ps : List (Byte × Byte)) : Prop :=
  (∀ q ∈ ps, 1 ≤ q.2.toNat ∧ q.2.toNat ≤ 255) ∧ ps.IsChain fun q r => q.1 = r.1 → q.2 = 255

theorem cutPairs_nil : CutPairs [] := by
  simp [CutPairs]

/-- R78: a pair in front of others is cut as the encoder cuts a run in front of their replay. -/
theorem cutPairs_cons_iff {v c : Byte} {ps : List (Byte × Byte)} : CutPairs ((v, c) :: ps) ↔
    1 ≤ c.toNat ∧ (c = 255 ∨ (rleDec (pairStream ps)).head? ≠ some v) ∧ CutPairs ps := by
  have hc : c.toNat ≤ 255 := Nat.le_of_lt_succ c.isLt
  cases ps with
  | nil => simp [CutPairs, hc]
  | cons q qs =>
    obtain ⟨w, d⟩ := q
    have hhead (hd : 1 ≤ d.toNat) : (rleDec (pairStream ((w, d) :: qs))).head? = some w := by
      simp [List.head?_append, List.head?_replicate, Nat.ne_of_gt hd]
    have hadjacent : (v = w → c = 255) ↔ c = 255 ∨ some w ≠ some v := by
      simp [imp_iff_or_not, eq_comm]
    simp only [CutPairs, List.forall_mem_cons, List.isChain_cons_cons]
    constructor
    · rintro ⟨⟨⟨h1, -⟩, hq, hqs⟩, hadj, hchain⟩
      exact ⟨h1, hhead hq.1 ▸ hadjacent.mp hadj, ⟨hq, hqs⟩, hchain⟩
    · rintro ⟨h1, hstop, ⟨hq, hqs⟩, hchain⟩
      exact ⟨⟨⟨h1, hc⟩, hq, hqs⟩, hadjacent.mpr (hhead hq.1 ▸ hstop), hchain⟩

/-- R78: the encoder gives back pairs cut as it cuts them. -/
theorem rleEnc_rleDec_pairStream {ps : List (Byte × Byte)} (h : CutPairs ps) :
    rleEnc (rleDec (pairStream ps)) = pairStream ps := by
  induction ps with
  | nil => rfl
  | cons q ps ih =>
    obtain ⟨v, c⟩ := q
    obtain ⟨h1, hstop, hps⟩ := cutPairs_cons_iff.mp h
    rw [pairStream_cons, rleDec_cons_cons,
      rleEnc_replicate_append h1 (Nat.le_of_lt_succ c.isLt) (hstop.imp_left (congrArg BitVec.toNat)), ih hps]
    simp

/-- R78, R103: every block is the replay of pairs as the encoder cuts them. -/
theorem exists_cutPairs (x : Block) : ∃ ps, CutPairs ps ∧ rleDec (pairStream ps) = x := by
  induction hlen : x.length using Nat.strong_induction_on generalizing x with
  | _ len ih =>
    cases x with
    | nil => exact ⟨[], cutPairs_nil, rfl⟩
    | cons v rest =>
      obtain ⟨n, tail, hrun, h1, h255, hstop⟩ := exists_first_run v rest
      obtain ⟨ps, hps, rfl⟩ := ih tail.length (by simp [← hlen, hrun]; omega) tail rfl
      have hn : (BitVec.ofNat 8 n).toNat = n := Nat.mod_eq_of_lt (by omega)
      refine ⟨(v, BitVec.ofNat 8 n) :: ps, cutPairs_cons_iff.mpr ⟨by omega, ?_, hps⟩, by simp [hrun, hn]⟩
      exact hstop.imp_left fun h => by rw [h]; rfl

/-- R110: decoding undoes encoding. -/
@[simp] theorem rleDec_rleEnc (x : Block) : rleDec (rleEnc x) = x := by
  obtain ⟨ps, hps, rfl⟩ := exists_cutPairs x
  rw [rleEnc_rleDec_pairStream hps]

/-- R78: the streams that the encoder produces. -/
theorem exists_eq_rleEnc_iff {y : Block} : (∃ x, y = rleEnc x) ↔ ∃ ps, y = pairStream ps ∧ CutPairs ps := by
  constructor
  · rintro ⟨x, rfl⟩
    obtain ⟨ps, hps, rfl⟩ := exists_cutPairs x
    exact ⟨ps, rleEnc_rleDec_pairStream hps, hps⟩
  · rintro ⟨ps, rfl, hps⟩
    exact ⟨rleDec (pairStream ps), (rleEnc_rleDec_pairStream hps).symm⟩

/-- R111: re-encoding a decoded stream gives it back exactly for the encoder's streams. -/
theorem rleEnc_rleDec_eq_iff {y : Block} : rleEnc (rleDec y) = y ↔ ∃ x, y = rleEnc x := by
  constructor
  · exact fun h => ⟨rleDec y, h.symm⟩
  · rintro ⟨x, rfl⟩
    rw [rleDec_rleEnc]

/-! ### The statement -/

/-- Settles O28, from the pairs that the encoder writes; the two re-encodings and the two streams of one block are
written out. -/
theorem rleEncStreamsAndReencoding : Obligations.RleEncStreamsAndReencoding := by
  refine ⟨fun _ => exists_eq_rleEnc_iff, fun _ => rleEnc_rleDec_eq_iff, fun _ b h => rleDec_append_singleton b h,
    ?adjacent, ?zeroLength, ?notInjective⟩
  case adjacent => decide
  case zeroLength => decide
  case notInjective => exact ⟨[0x41, 0x00], [], by decide, by decide⟩

end Sys2Proof.Proofs
end

section
/-! How a command whose function gives an output ends, with a block loaded (R242) and without one (R232). -/

namespace Sys2Proof.Proofs

open Sys2Proof.Machine Sys2Proof.Safety

/-- R242: on a loaded block a command completes with the output of its function. -/
theorem completesWith_of_output {i : Instr} {s : State} {out : Block} (hs : Ready s) (hi : i ≠ .decompress)
    (hf : resultFn i s s.inBuf = .output out) : CompletesWith i s out := by
  obtain ⟨hl, hv⟩ := hs
  refine ⟨(discardCallScoped s).callScoped, (discardCallScoped s).draws, ?_⟩
  rw [exec_eq_runCommand fun e => absurd e hi, runCommand_loaded hl hv, hf]
  rfl

/-- R64, R242: on a loaded block a command that counts only its output completes when that fits `M_MAX`. -/
theorem completesWith_of_fitsOut {i : Instr} {s : State} {out : Block} (hs : Ready s) (hi : i ≠ .decompress)
    (hf : resultFn i s s.inBuf = bounded s.cfg [out.length] (.output out)) (hfit : fitsOut s.cfg out = true) :
    CompletesWith i s out :=
  completesWith_of_output hs hi (hf.trans (bounded_of_fits (by simpa [fitsOut] using hfit)))

/-- R232: without a block every command but `DECOMPRESS` fails with `InvalidInput`. -/
theorem failsWith_invalidInput {i : Instr} {s : State} (hi : i ≠ .decompress) (hl : Params.legal s.cfg = true)
    (hv : s.inValid = false) : FailsWith i s 1 ⟨0, 0, 0, 0⟩ ⟨0, 0, 0, 0⟩ := by
  refine ⟨s.callScoped, s.draws, ?_⟩
  rw [exec_eq_runCommand fun e => absurd e hi, runCommand_unloaded hl hv]
  rfl

/-- R242: what the next command sees of one that completed. -/
theorem exists_next_of_completesWith {i : Instr} {s : State} {out : Block} (h : CompletesWith i s out) :
    ∃ t, exec i s = .next t ∧ t.cfg = s.cfg ∧ t.st = 2 ∧ t.outBuf = out := by
  obtain ⟨cs, d, h⟩ := h
  exact ⟨_, h, rfl, rfl, rfl⟩

/-- R8: an unbounded `M_MAX` takes every stream. -/
theorem fitsOut_of_unbounded {p : Params} (h : p.mMax = none) (x : Block) : fitsOut p x = true := by
  simp [fitsOut, atMost, h]

end Sys2Proof.Proofs
end

section
/-! The commands `RLE.ENC` and `RLE.DEC` (R101, R105, R110). -/

namespace Sys2Proof.Proofs

open Sys2Proof.Machine Sys2Proof.Safety

theorem rleEnc_completes {s : State} (hs : Ready s) (hfit : fitsOut s.cfg (rleEnc s.inBuf) = true) :
    CompletesWith .rleEnc s (rleEnc s.inBuf) :=
  completesWith_of_fitsOut hs nofun rfl hfit

theorem rleDec_completes {s : State} (hs : Ready s) (hfit : fitsOut s.cfg (rleDec s.inBuf) = true) :
    CompletesWith .rleDec s (rleDec s.inBuf) :=
  completesWith_of_fitsOut hs nofun rfl hfit

/-- Settles O22: the command completes with its function's value, and the function's equation for a first run is
`rleEnc_replicate_append`. -/
theorem rleEncCutsRuns : Obligations.RleEncCutsRuns :=
  ⟨rfl, fun _ hs hfit => rleEnc_completes hs hfit, fun _ hl hv => failsWith_invalidInput nofun hl hv, rleEnc_nil,
    fun _ _ _ h1 h255 hstop => rleEnc_replicate_append h1 h255 hstop⟩

/-- R105, R106: the replay of the complete pairs; an unpaired last byte is ignored. -/
theorem rleDec_pairStream_append (ps : List (Byte × Byte)) {tail : Block} (ht : tail.length ≤ 1) :
    rleDec (pairStream ps ++ tail) = ps.flatMap fun q => List.replicate q.2.toNat q.1 := by
  induction ps with
  | nil =>
    match tail, ht with
    | [], _ => rfl
    | [_], _ => rfl
  | cons q ps ih =>
    obtain ⟨v, c⟩ := q
    simp [ih]

/-- Settles O26: the command completes with its function's value, the replay of the pairs. -/
theorem rleDecReplaysPairs : Obligations.RleDecReplaysPairs :=
  ⟨rfl, fun _ hs hfit => rleDec_completes hs hfit, fun _ hl hv => failsWith_invalidInput nofun hl hv,
    fun ps _ ht => rleDec_pairStream_append ps ht⟩

/-- Settles O27: with `M_MAX` unbounded both commands complete, the second on what the first left in `OUT`. -/
theorem rleRoundTrip : Obligations.RleRoundTrip := by
  refine ⟨rleDec_rleEnc, fun s hs hunbounded => ?_⟩
  obtain ⟨t, henc, hcfg, -, hout⟩ :=
    exists_next_of_completesWith (rleEnc_completes hs (fitsOut_of_unbounded hunbounded _))
  obtain ⟨hl, -⟩ := hs
  have hready : Ready (loadBlock t.outBuf t) := ⟨by simpa [hcfg] using hl, rfl⟩
  obtain ⟨u, hdec, -, hst, hback⟩ :=
    exists_next_of_completesWith (rleDec_completes hready (fitsOut_of_unbounded (by simpa [hcfg] using hunbounded) _))
  exact ⟨t, u, henc, hdec, hst, by simp [hback, hout]⟩

end Sys2Proof.Proofs
end

section
/-! The per-symbol RLE machines (R102, R107): with a run open, the encoder machine emits the coding of that run and of
what is still to come. -/

namespace Sys2Proof.Proofs

open Sys2Proof.Machine Sys2Proof.Safety

/-! ### The encoder machine -/

theorem rleEncByte_of_idle {r : RunRegs} (h : r.active = false) (b : Byte) : rleEncByte r b = (⟨true, b, 1⟩, []) := by
  simp [rleEncByte, h]

/-- R102: a byte that goes on with the open run. -/
theorem rleEncByte_of_extends {v c : Byte} (hc : c < 255) : rleEncByte ⟨true, v, c⟩ v = (⟨true, v, c + 1⟩, []) := by
  rw [rleEncByte, if_neg nofun, if_pos ⟨rfl, hc⟩]

/-- R102: a byte that ends the open run, by differing from it or because its counter is at the cap. -/
theorem rleEncByte_of_stops {v c b : Byte} (h : ¬ (b = v ∧ c < 255)) :
    rleEncByte ⟨true, v, c⟩ b = (⟨true, b, 1⟩, [v, c]) := by
  rw [rleEncByte, if_neg nofun, if_neg h]

/-- R102: what the encoder machine emits for `x` and the end of the block. -/
def rleEncEmits (r : RunRegs) (x : Block) : Block :=
  (feed rleEncByte r x).2 ++ (rleEncEnd (feed rleEncByte r x).1).2

theorem rleEncMachine_emits (r : RunRegs) (x : Block) : (rleEncMachine r x).2 = rleEncEmits (rleEncStart r) x := rfl

theorem rleEncEmits_cons (r : RunRegs) (b : Byte) (bs : Block) :
    rleEncEmits r (b :: bs) = (rleEncByte r b).2 ++ rleEncEmits (rleEncByte r b).1 bs := by
  simp [rleEncEmits]

/-- R102: with a run of `c` bytes `v` open, the machine emits the coding of that run followed by `x`. -/
theorem rleEncEmits_of_open {v c : Byte} (hc : 1 ≤ c.toNat) (x : Block) :
    rleEncEmits ⟨true, v, c⟩ x = rleEnc (List.replicate c.toNat v ++ x) := by
  have hcap : c.toNat ≤ 255 := Nat.le_of_lt_succ c.isLt
  induction x generalizing v c with
  | nil =>
    rw [rleEnc_replicate_append (rest := []) hc hcap (.inr (by simp))]
    simp [rleEncEmits, rleEncEnd]
  | cons b bs ih =>
    rw [rleEncEmits_cons]
    by_cases hext : b = v ∧ c < 255
    · obtain ⟨rfl, hlt⟩ := hext
      have hsucc : (c + 1).toNat = c.toNat + 1 := by bv_omega
      rw [rleEncByte_of_extends hlt, ih (by omega) (by omega), hsucc, List.replicate_succ']
      simp
    · have hstop : c.toNat = 255 ∨ (b :: bs).head? ≠ some v := by
        by_cases hb : b = v
        · have hfull : ¬ c < 255 := fun hlt => hext ⟨hb, hlt⟩
          exact .inl (by bv_omega)
        · exact .inr (by simpa using hb)
      rw [rleEncByte_of_stops hext, ih (by decide) (by decide), rleEnc_replicate_append hc hcap hstop]
      simp

/-- R102: the machine emits `RLE.ENC(x)`, whatever its registers held. -/
theorem rleEncMachine_eq_rleEnc (r : RunRegs) (x : Block) : (rleEncMachine r x).2 = rleEnc x := by
  rw [rleEncMachine_emits]
  cases x with
  | nil => rfl
  | cons b bs =>
    rw [rleEncEmits_cons, rleEncByte_of_idle rfl, rleEncEmits_of_open (by decide)]
    rfl

/-- R102: the end of the block leaves no run open. -/
theorem rleEncEnd_active (r : RunRegs) : (rleEncEnd r).1.active = false := by
  cases h : r.active <;> simp [rleEncEnd, h]

/-- R102: the counter of an open run is at least 1; it has 8 bits, so it is at most 255. -/
def CounterOk (r : RunRegs) : Prop := r.active = true → 1 ≤ r.cnt.toNat

theorem rleEncByte_keeps_counterOk {r : RunRegs} (h : CounterOk r) (b : Byte) : CounterOk (rleEncByte r b).1 := by
  obtain ⟨active, v, c⟩ := r
  cases active with
  | false => simp [rleEncByte_of_idle, CounterOk]
  | true =>
    by_cases hext : b = v ∧ c < 255
    · obtain ⟨rfl, hlt⟩ := hext
      rw [rleEncByte_of_extends hlt]
      exact fun _ => by bv_omega
    · simp [rleEncByte_of_stops hext, CounterOk]

theorem feed_rleEncByte_keeps_counterOk {r : RunRegs} (h : CounterOk r) (x : Block) :
    CounterOk (feed rleEncByte r x).1 := by
  induction x generalizing r with
  | nil => exact h
  | cons b bs ih => exact ih (rleEncByte_keeps_counterOk h b)

/-! ### The decoder machine -/

/-- R107: from before a value byte, the machine emits `RLE.DEC(y)`. -/
theorem feed_rleDecByte_emits : ∀ {r : PairRegs} (y : Block), r.phase = false → (feed rleDecByte r y).2 = rleDec y
  | _, [], _ => rfl
  | r, [v], h => by simp [rleDecByte, h]
  | r, v :: c :: rest, h => by
    simp [rleDecByte, h, feed_rleDecByte_emits rest]

/-! ### The statement -/

/-- Settles O23: the encoder machine by what it emits with a run open, the decoder machine pair by pair. -/
theorem rleMachinesRefine : Obligations.RleMachinesRefine := by
  refine ⟨fun r x => ⟨rleEncMachine_eq_rleEnc r x, rleEncEnd_active _, fun hactive => ?counter⟩,
    fun r y => ⟨feed_rleDecByte_emits y rfl, rfl⟩⟩
  case counter =>
    have hstart : CounterOk (rleEncStart r) := nofun
    exact ⟨feed_rleEncByte_keeps_counterOk hstart x hactive, Nat.le_of_lt_succ (BitVec.isLt _)⟩

end Sys2Proof.Proofs
end

section
/-! Maximal runs (R14): a block taken apart at its first maximal run, the greedy split of a run (R103) and the length of
the coding (R104, R108). -/

namespace Sys2Proof.Proofs

open Sys2Proof.Machine Sys2Proof.Safety

/-! ### Blocks by their maximal runs -/

/-- R14: a non-empty block begins with a maximal run. -/
theorem exists_first_maximalRun (v : Byte) (rest : Block) : ∃ n tail, v :: rest = List.replicate n v ++ tail ∧
    1 ≤ n ∧ tail.head? ≠ some v := by
  induction rest with
  | nil => exact ⟨1, [], by simp⟩
  | cons b bs ih =>
    by_cases hb : b = v
    · obtain ⟨n, tail, hrun, -, hstop⟩ := ih
      exact ⟨n + 1, tail, by simp [hb, hrun, List.replicate_succ], by omega, hstop⟩
    · exact ⟨1, b :: bs, by simp [hb]⟩

/-- R14: what holds of the empty block, and of a maximal run in front of a block it holds of, holds of every block. -/
theorem block_run_induction {P : Block → Prop} (nil : P [])
    (run : ∀ (v : Byte) (n : Nat) (rest : Block), 1 ≤ n → rest.head? ≠ some v → P rest →
      P (List.replicate n v ++ rest)) (x : Block) : P x := by
  induction hlen : x.length using Nat.strong_induction_on generalizing x with
  | _ len ih =>
    cases x with
    | nil => exact nil
    | cons v rest =>
      obtain ⟨n, tail, hrun, h1, hstop⟩ := exists_first_maximalRun v rest
      rw [hrun]
      exact run v n tail h1 hstop (ih tail.length (by simp [← hlen, hrun]; omega) tail rfl)

@[simp] theorem maximalRuns_nil : maximalRuns [] = [] := rfl

/-- R14: a maximal run in front of a block is the first of its maximal runs. -/
theorem maximalRuns_replicate_append {v : Byte} {n : Nat} {rest : Block} (h1 : 1 ≤ n) (hstop : rest.head? ≠ some v) :
    maximalRuns (List.replicate n v ++ rest) = List.replicate n v :: maximalRuns rest := by
  have hne : List.replicate n v ≠ [] := by simp; omega
  have hone : (List.replicate n v).splitBy (· == ·) = [List.replicate n v] :=
    List.splitBy_of_isChain hne (List.isChain_replicate_of_rel n (by simp))
  rw [maximalRuns, List.splitBy_append, hone]
  · rfl
  · intro a ha b hb
    obtain rfl : a = v := List.eq_of_mem_replicate (List.mem_of_mem_getLast? ha)
    simpa using fun h : a = b => hstop (h ▸ hb)

/-! ### The greedy split of a run -/

theorem pairsOfRun_of_le {n : Nat} (h1 : 1 ≤ n) (h255 : n ≤ 255) : pairsOfRun n = 1 := by
  simp only [pairsOfRun]
  omega

theorem pairsOfRun_add_cap (n : Nat) : pairsOfRun (255 + n) = pairsOfRun n + 1 := by
  simp only [pairsOfRun]
  omega

/-- R103: at least one pair, at most one for each byte. -/
theorem pairsOfRun_bounds {n : Nat} (h1 : 1 ≤ n) : 1 ≤ pairsOfRun n ∧ pairsOfRun n ≤ n := by
  simp only [pairsOfRun]
  omega

/-- R108: two runs yield at least the pairs of one run of their joint length. -/
theorem pairsOfRun_add_le (m n : Nat) : pairsOfRun (m + n) ≤ pairsOfRun m + pairsOfRun n := by
  simp only [pairsOfRun]
  omega

/-- R103: the remainder that the last pair of a run carries. -/
theorem lastPair_bounds {n : Nat} (h1 : 1 ≤ n) :
    1 ≤ n - 255 * (pairsOfRun n - 1) ∧ n - 255 * (pairsOfRun n - 1) ≤ 255 := by
  simp only [pairsOfRun]
  omega

theorem greedyPairs_of_le {v : Byte} {n : Nat} (h1 : 1 ≤ n) (h255 : n ≤ 255) :
    greedyPairs v n = [v, BitVec.ofNat 8 n] := by
  simp [greedyPairs, pairsOfRun_of_le h1 h255]

/-- R103: a run longer than 255 begins with a pair of 255. -/
theorem greedyPairs_add_cap (v : Byte) {n : Nat} (h1 : 1 ≤ n) :
    greedyPairs v (255 + n) = v :: 255#8 :: greedyPairs v n := by
  obtain ⟨k, hk⟩ : ∃ k, pairsOfRun n = k + 1 := Nat.exists_eq_add_of_le' (pairsOfRun_bounds h1).1
  have hlast : 255 + n - 255 * (k + 1) = n - 255 * k := by omega
  simp [greedyPairs, pairsOfRun_add_cap, hk, hlast, List.replicate_succ]

theorem greedyPairs_length (v : Byte) {n : Nat} (h1 : 1 ≤ n) : (greedyPairs v n).length = 2 * pairsOfRun n := by
  have := pairsOfRun_bounds h1
  simp [greedyPairs]
  omega

/-! ### The coding of a maximal run -/

/-- R103: a maximal run in front of a block is split greedily, by induction on the pairs of 255 it begins with. -/
theorem rleEnc_maximalRun_append {v : Byte} {rest : Block} (hstop : rest.head? ≠ some v) {n : Nat} (h1 : 1 ≤ n) :
    rleEnc (List.replicate n v ++ rest) = greedyPairs v n ++ rleEnc rest := by
  induction n using Nat.strong_induction_on with
  | _ n ih =>
    by_cases h255 : n ≤ 255
    · simp [rleEnc_replicate_append h1 h255 (.inr hstop), greedyPairs_of_le h1 h255]
    · obtain ⟨m, rfl⟩ : ∃ m, n = 255 + m := ⟨n - 255, by omega⟩
      have hm : 1 ≤ m := by omega
      rw [List.replicate_add, List.append_assoc, rleEnc_replicate_append (by omega) le_rfl (.inl rfl),
        ih m (by omega) hm, greedyPairs_add_cap v hm]
      rfl

/-- R103: every maximal run is split greedily. -/
theorem rleEnc_eq_flatMap_greedyPairs (x : Block) :
    rleEnc x = (maximalRuns x).flatMap fun r => greedyPairs (r.headD 0) r.length := by
  induction x using block_run_induction with
  | nil => rfl
  | run v n rest h1 hstop ih =>
    have hhead : (List.replicate n v).head? = some v := by
      simp [List.head?_replicate, Nat.ne_of_gt h1]
    simp [rleEnc_maximalRun_append hstop h1, maximalRuns_replicate_append h1 hstop, hhead, ih]

/-- Settles O24. -/
theorem rleEncSplitsRunsGreedily : Obligations.RleEncSplitsRunsGreedily :=
  ⟨rleEnc_eq_flatMap_greedyPairs, fun v _ h1 => ⟨greedyPairs_length v h1, lastPair_bounds h1⟩⟩

/-! ### The number of capped runs -/

@[simp] theorem pairCount_nil : pairCount [] = 0 := rfl

/-- R104: the capped runs of a maximal run are added to those of the rest. -/
theorem pairCount_replicate_append {v : Byte} {n : Nat} {rest : Block} (h1 : 1 ≤ n) (hstop : rest.head? ≠ some v) :
    pairCount (List.replicate n v ++ rest) = pairsOfRun n + pairCount rest := by
  simp [pairCount, maximalRuns_replicate_append h1 hstop]

/-- R104, R108: a pair of two bytes for each capped run. -/
theorem rleEnc_length (x : Block) : (rleEnc x).length = 2 * pairCount x := by
  induction x using block_run_induction with
  | nil => rfl
  | run v n rest h1 hstop ih =>
    simp [rleEnc_maximalRun_append hstop h1, pairCount_replicate_append h1 hstop, greedyPairs_length v h1, ih]
    omega

/-- R108: at least the pairs of one run of the block's length, at most one pair for each byte. -/
theorem pairCount_bounds (x : Block) : pairsOfRun x.length ≤ pairCount x ∧ pairCount x ≤ x.length := by
  induction x using block_run_induction with
  | nil => decide
  | run v n rest h1 hstop ih =>
    obtain ⟨hlow, hhigh⟩ := ih
    have hsplit := pairsOfRun_add_le n rest.length
    have hrun := pairsOfRun_bounds h1
    simp only [pairCount_replicate_append h1 hstop, List.length_append, List.length_replicate]
    omega

/-- R108: one value throughout. -/
theorem pairCount_replicate (v : Byte) (n : Nat) : pairCount (List.replicate n v) = pairsOfRun n := by
  rcases Nat.eq_zero_or_pos n with rfl | h1
  · rfl
  · simpa using pairCount_replicate_append (v := v) (rest := []) h1 (by simp)

/-- R108: no two adjacent equal bytes, so that every maximal run has one byte. -/
theorem pairCount_of_isChain_ne {x : Block} (h : x.IsChain (· ≠ ·)) : pairCount x = x.length := by
  induction x using block_run_induction with
  | nil => rfl
  | run v n rest h1 hstop ih =>
    obtain ⟨hrun, hrest, -⟩ := List.isChain_append.mp h
    obtain rfl : n = 1 := by
      match n, h1 with
      | 1, _ => rfl
      | n + 2, _ => simp [List.replicate_succ] at hrun
    rw [pairCount_replicate_append h1 hstop, ih hrest, pairsOfRun_of_le le_rfl (by omega)]
    simp [Nat.add_comm]

/-- Settles O25: the length is twice the number of capped runs, so each clause is one about that number. -/
theorem rleEncLength : Obligations.RleEncLength := by
  intro x
  rw [rleEnc_length]
  obtain ⟨hlow, hhigh⟩ := pairCount_bounds x
  refine ⟨rfl, fun _ => ⟨by omega, by omega⟩, ?oneValue, fun hchain => by rw [pairCount_of_isChain_ne hchain], Iff.rfl⟩
  case oneValue =>
    rintro v n rfl
    rw [pairCount_replicate]

end Sys2Proof.Proofs
end

section
/-! Delta coding as differences and running sums (R121, R125): the two are inverse to each other from any start, and the
first slot is the only byte that `DELTA_FIRST` changes. -/

namespace Sys2Proof.Proofs

open Sys2Proof.Machine

/-! ### Equations -/

@[simp] theorem differences_nil (prev : Byte) : differences prev [] = [] := rfl

@[simp] theorem differences_cons (prev b : Byte) (bs : Block) :
    differences prev (b :: bs) = (b - prev) :: differences b bs := rfl

@[simp] theorem runningSums_nil (acc : Byte) : runningSums acc [] = [] := rfl

@[simp] theorem runningSums_cons (acc e : Byte) (es : Block) :
    runningSums acc (e :: es) = (acc + e) :: runningSums (acc + e) es := rfl

@[simp] theorem deltaEnc_nil (d : DeltaFirst) : deltaEnc d [] = [] := rfl

@[simp] theorem deltaEnc_cons (d : DeltaFirst) (b : Byte) (bs : Block) :
    deltaEnc d (b :: bs) = firstSlot d b :: differences b bs := rfl

/-- R122: under `SELF` the first byte less itself. -/
@[simp] theorem firstSlot_self (b : Byte) : firstSlot .self b = 0 := BitVec.sub_self b

@[simp] theorem firstSlot_literal (b : Byte) : firstSlot .literal b = b := rfl

/-- R125: the running sums start at 0. -/
theorem deltaDec_eq_runningSums (y : Block) : deltaDec y = runningSums 0 y := by
  cases y with
  | nil => rfl
  | cons e es => simp [deltaDec]

/-- R121: under `LITERAL` the byte before the first is taken to be 0. -/
theorem deltaEnc_literal_eq_differences (x : Block) : deltaEnc .literal x = differences 0 x := by
  cases x with
  | nil => rfl
  | cons b bs => simp

/-- R121: under `SELF` the byte before the first is taken to be the first. -/
theorem deltaEnc_self_eq_differences (x : Block) : deltaEnc .self x = differences (x.headD 0) x := by
  cases x with
  | nil => rfl
  | cons b bs => rfl

/-- R122: the two values of `DELTA_FIRST` differ in the first slot alone. -/
theorem deltaEnc_self_eq_set (x : Block) : deltaEnc .self x = (deltaEnc .literal x).set 0 0 := by
  cases x with
  | nil => rfl
  | cons b bs => simp

/-! ### Differences and sums undo each other -/

/-- R129: summing differences moves every byte by the same amount, from the byte they start at to the start of the
sums. -/
theorem runningSums_differences (acc prev : Byte) (x : Block) :
    runningSums acc (differences prev x) = x.map fun b => acc + (b - prev) := by
  induction x generalizing acc prev with
  | nil => rfl
  | cons b bs ih =>
    have hshift (c : Byte) : acc + (b - prev) + (c - b) = acc + (c - prev) := by ring
    simp [ih, hshift]

/-- R131: taking differences of running sums gives the summands back. -/
theorem differences_runningSums (acc : Byte) (y : Block) : differences acc (runningSums acc y) = y := by
  induction y generalizing acc with
  | nil => rfl
  | cons e es ih => simp [ih]

/-- R130: under `LITERAL` decoding undoes encoding. -/
theorem deltaDec_deltaEnc_literal (x : Block) : deltaDec (deltaEnc .literal x) = x := by
  simp [deltaDec_eq_runningSums, deltaEnc_literal_eq_differences, runningSums_differences]

/-- R129: under `SELF` every byte comes back lowered by the first one. -/
theorem deltaDec_deltaEnc_self (x : Block) : deltaDec (deltaEnc .self x) = x.map fun b => b - x.headD 0 := by
  simp [deltaDec_eq_runningSums, deltaEnc_self_eq_differences, runningSums_differences]

/-- R131: under `LITERAL` encoding undoes decoding. -/
theorem deltaEnc_literal_deltaDec (y : Block) : deltaEnc .literal (deltaDec y) = y := by
  rw [deltaEnc_literal_eq_differences, deltaDec_eq_runningSums, differences_runningSums]

/-- R131: no two streams decode to the same block. -/
theorem deltaDec_injective : Function.Injective deltaDec :=
  Function.LeftInverse.injective deltaEnc_literal_deltaDec

/-- R129: lowering every byte by the first one changes nothing exactly when there is none or it is 0. -/
theorem map_sub_head_eq_self_iff (x : Block) :
    (x.map fun b => b - x.headD 0) = x ↔ (x = [] ∨ x.head? = some 0) := by
  cases x with
  | nil => simp
  | cons b bs =>
    constructor
    · intro h
      have hb : b - b = b := (List.cons.inj h).1
      exact .inr (by simpa using hb.symm)
    · rintro (h | h)
      · cases h
      · obtain rfl : b = 0 := by simpa using h
        simp

/-! ### The statements -/

/-- Settles O32: under `SELF` the decoded differences are the block lowered by its first byte, under `LITERAL` the
block. -/
theorem deltaRoundTrips : Obligations.DeltaRoundTrips :=
  ⟨deltaDec_deltaEnc_self, fun x => by rw [deltaDec_deltaEnc_self, map_sub_head_eq_self_iff],
    deltaDec_deltaEnc_literal⟩

/-- Settles O33: encoding under `LITERAL` is a two-sided inverse that keeps the length. -/
theorem deltaDecIsBijective : Obligations.DeltaDecIsBijective :=
  ⟨fun _ _ h => deltaDec_injective h,
    fun x => ⟨deltaEnc .literal x, deltaEnc_length .literal x, deltaDec_deltaEnc_literal x⟩,
    fun y => by rw [deltaEnc_self_eq_set, deltaEnc_literal_deltaDec], deltaEnc_literal_deltaDec⟩

end Sys2Proof.Proofs
end

section
/-! The commands `DELTA.ENC` and `DELTA.DEC` (R121, R125): what they complete with, byte by byte. -/

namespace Sys2Proof.Proofs

open Sys2Proof.Machine Sys2Proof.Safety

/-- R64: whether a stream fits `M_MAX` rests on its length. -/
theorem fitsOut_congr {p : Params} {x y : Block} (h : x.length = y.length) : fitsOut p x = fitsOut p y := by
  simp [fitsOut, h]

theorem deltaEnc_completes {s : State} (hs : Ready s) (hfit : fitsOut s.cfg s.inBuf = true) :
    CompletesWith .deltaEnc s (deltaEnc s.cfg.deltaFirst s.inBuf) :=
  completesWith_of_fitsOut hs nofun rfl ((fitsOut_congr (deltaEnc_length _ _)).trans hfit)

theorem deltaDec_completes {s : State} (hs : Ready s) (hfit : fitsOut s.cfg s.inBuf = true) :
    CompletesWith .deltaDec s (deltaDec s.inBuf) :=
  completesWith_of_fitsOut hs nofun rfl ((fitsOut_congr (deltaDec_length _)).trans hfit)

/-! ### The bytes of the encoder -/

/-- R127: subtraction of bytes is subtraction modulo 256. -/
theorem byte_sub_eq_ofNat (a b : Byte) : b - a = BitVec.ofNat 8 ((b.toNat + 256 - a.toNat) % 256) := by
  bv_omega

/-- R121: position `i` of the differences, `prev` being the byte before the first. -/
theorem getElem?_differences {prev a b : Byte} {x : Block} {i : Nat} (ha : (prev :: x)[i]? = some a)
    (hb : x[i]? = some b) : (differences prev x)[i]? = some (b - a) := by
  induction x generalizing prev i with
  | nil => simp at hb
  | cons c cs ih =>
    cases i with
    | zero =>
      obtain rfl : prev = a := by simpa using ha
      obtain rfl : c = b := by simpa using hb
      rfl
    | succ i => exact ih ha hb

/-- R121: position 0 of the encoded block. -/
theorem getElem?_zero_deltaEnc (d : DeltaFirst) {x : Block} {b : Byte} (hb : x[0]? = some b) :
    (deltaEnc d x)[0]? = some (firstSlot d b) := by
  cases x with
  | nil => simp at hb
  | cons c cs =>
    obtain rfl : c = b := by simpa using hb
    rfl

/-- R121: the later positions of the encoded block are differences of input bytes. -/
theorem getElem?_succ_deltaEnc (d : DeltaFirst) {x : Block} {i : Nat} {a b : Byte} (ha : x[i]? = some a)
    (hb : x[i + 1]? = some b) : (deltaEnc d x)[i + 1]? = some (b - a) := by
  cases x with
  | nil => simp at ha
  | cons c cs => exact getElem?_differences ha hb

/-! ### The bytes of the decoder -/

/-- R125, R127: position `i` of the running sums, the sum taken in the natural numbers. -/
theorem getElem?_runningSums (acc : Byte) {y : Block} {i : Nat} (hi : i < y.length) :
    (runningSums acc y)[i]? = some (acc + BitVec.ofNat 8 ((y.take (i + 1)).map (·.toNat)).sum) := by
  induction y generalizing acc i with
  | nil => simp at hi
  | cons e es ih =>
    cases i with
    | zero => simp
    | succ i =>
      have htail := ih (acc + e) (Nat.lt_of_succ_lt_succ hi)
      simpa [BitVec.ofNat_add, BitVec.add_assoc] using htail

/-! ### The statements -/

/-- Settles O29: the command completes with its function's value, whose bytes are the first slot and the differences. -/
theorem deltaEncDifferences : Obligations.DeltaEncDifferences := by
  refine ⟨rfl, fun _ hs hfit => deltaEnc_completes hs hfit, fun _ hl hv => failsWith_invalidInput nofun hl hv,
    fun d x => ⟨deltaEnc_length d x, fun b hb => ?first, fun i a b ha hb => ?later⟩⟩
  case first =>
    rw [getElem?_zero_deltaEnc d hb]
    cases d with
    | self => exact congrArg some (firstSlot_self b)
    | literal => rfl
  case later => rw [getElem?_succ_deltaEnc d ha hb, byte_sub_eq_ofNat]

/-- Settles O30: the command completes with its function's value, the running sums from 0. -/
theorem deltaDecSums : Obligations.DeltaDecSums := by
  refine ⟨rfl, fun _ hs hfit => deltaDec_completes hs hfit, fun _ hl hv => failsWith_invalidInput nofun hl hv,
    fun y => ⟨deltaDec_length y, fun i hi => ?sum⟩⟩
  case sum =>
    rw [deltaDec_eq_runningSums, getElem?_runningSums 0 hi, zero_add]
    exact congrArg some (BitVec.eq_of_toNat_eq (by simp))

end Sys2Proof.Proofs
end

section
/-! The per-symbol delta machines (R123, R126): after the first byte `PREV` is the byte before and `ACC` the running
sum. -/

namespace Sys2Proof.Proofs

open Sys2Proof.Machine

/-- R123: once the first byte is in, the encoder machine emits differences. -/
theorem feed_deltaEncByte_emits (d : DeltaFirst) {r : DeltaRegs} (h : r.first = false) (x : Block) :
    (feed (deltaEncByte d) r x).2 = differences r.prev x := by
  induction x generalizing r with
  | nil => rfl
  | cons b bs ih => simp [deltaEncByte, h, ih]

/-- R123: the machine emits `DELTA.ENC(x)`, whatever its registers held. -/
theorem deltaEncMachine_eq_deltaEnc (d : DeltaFirst) (r : DeltaRegs) (x : Block) :
    deltaEncMachine d r x = deltaEnc d x := by
  cases x with
  | nil => rfl
  | cons b bs => cases d <;> simp [deltaEncMachine, deltaStart, deltaEncByte, feed_deltaEncByte_emits]

/-- R126: once the first byte is in, the decoder machine emits running sums. -/
theorem feed_deltaDecByte_emits {r : DeltaRegs} (h : r.first = false) (y : Block) :
    (feed deltaDecByte r y).2 = runningSums r.acc y := by
  induction y generalizing r with
  | nil => rfl
  | cons e es ih => simp [deltaDecByte, h, ih]

/-- R126: the machine emits `DELTA.DEC(y)`, whatever its registers held. -/
theorem deltaDecMachine_eq_deltaDec (r : DeltaRegs) (y : Block) : deltaDecMachine r y = deltaDec y := by
  cases y with
  | nil => rfl
  | cons e es => simp [deltaDecMachine, deltaStart, deltaDecByte, feed_deltaDecByte_emits, deltaDec]

/-- Settles O31: each machine by its first byte and what it emits after it. -/
theorem deltaMachinesRefine : Obligations.DeltaMachinesRefine :=
  ⟨deltaEncMachine_eq_deltaEnc, deltaDecMachine_eq_deltaDec⟩

end Sys2Proof.Proofs
end

section
/-! Why DELTA and DICT never win (R203): a winner other than RAW is strictly shorter than the block, and these two
candidates are as long as it. -/

namespace Sys2Proof.Proofs

open Sys2Proof.Machine

/-! ### Lengths -/

/-- R149: an output byte for each code byte, from any table. -/
theorem dictDecFrom_ok_length {p : Params} {pos : Nat} {table y out : Block}
    (h : dictDecFrom p pos table y = .ok out) : out.length = y.length := by
  induction y generalizing pos table out with
  | nil =>
    obtain rfl : [] = out := by simpa [dictDecFrom] using h
    rfl
  | cons e es ih =>
    rw [dictDecFrom] at h
    split at h
    · obtain ⟨rest, hrest, rfl⟩ := emit_eq_ok_iff.mp h
      simp [ih hrest]
    · cases h

/-- R158: dictionary decoding keeps the length when it raises nothing. -/
theorem dictDec_ok_length {p : Params} {y out : Block} (h : dictDec p y = .ok out) : out.length = y.length :=
  dictDecFrom_ok_length h

/-! ### The winner -/

/-- R201: the running best is the first best or strictly shorter than it. -/
theorem foldl_keepSmaller_eq_or_lt (best : Choice) (cs : List Choice) :
    cs.foldl keepSmaller best = best ∨ (cs.foldl keepSmaller best).payload.length < best.payload.length := by
  induction cs generalizing best with
  | nil => exact .inl rfl
  | cons c cs ih =>
    rw [List.foldl_cons]
    rcases keepSmaller_cases best c with ⟨hlt, e⟩ | ⟨-, e⟩ <;> rw [e]
    · exact .inr ((foldl_keepSmaller_length_le c cs).trans_lt hlt)
    · exact ih best

/-- R201, R203: the winner is RAW or strictly shorter than the block. -/
theorem select_eq_raw_or_lt (p : Params) (hyb gate : Bool) (x : Block) :
    select p hyb gate x = ⟨.raw, x⟩ ∨ (select p hyb gate x).payload.length < x.length :=
  foldl_keepSmaller_eq_or_lt _ _

/-- R128, R158: the DELTA and the DICT candidate are as long as the block. -/
theorem candidate_length_of_delta_or_dict {p : Params} {hyb gate : Bool} {x : Block} {c : Choice}
    (hc : c ∈ candidates p hyb gate x) (hk : c.strategy = .delta ∨ c.strategy = .dict) :
    c.payload.length = x.length := by
  simp only [candidates, laterCandidates, List.mem_cons, List.mem_append, List.mem_ite_nil_right,
    List.not_mem_nil, or_false] at hc
  obtain rfl | ((rfl | ⟨-, rfl⟩) | rfl) | ⟨-, rfl⟩ := hc
  · exact hk.elim nofun nofun
  · exact hk.elim nofun nofun
  · exact deltaEnc_length _ x
  · exact dictEnc_length p x
  · exact hk.elim nofun nofun

/-- R203: neither DELTA nor DICT wins. -/
theorem select_not_delta_or_dict (p : Params) (hyb gate : Bool) (x : Block) :
    ¬ ((select p hyb gate x).strategy = .delta ∨ (select p hyb gate x).strategy = .dict) := by
  intro hk
  have hlen := candidate_length_of_delta_or_dict (select_mem_candidates p hyb gate x) hk
  rcases select_eq_raw_or_lt p hyb gate x with e | hlt
  · simp [e] at hk
  · exact hlt.ne hlen

/-- R71: two strategies have two tags. -/
theorem tagOf_injective : Function.Injective tagOf := fun j k h =>
  Option.some.inj (by rw [← strategyOf_tagOf j, h, strategyOf_tagOf])

/-! ### The statement -/

/-- Settles O54: a `COMPRESS` that is done wrote the winner's tag, and the winner is neither DELTA nor DICT. -/
theorem deltaAndDictNeverWin : Obligations.DeltaAndDictNeverWin := by
  refine ⟨fun p x => ⟨deltaEnc_length _ x, deltaDec_length x, dictEnc_length p x, fun _ => dictDec_ok_length⟩,
    fun p hyb gate x => not_or.mp (select_not_delta_or_dict p hyb gate x), fun s t hyb acc h hst => ?record⟩
  case record =>
    have hwinner := select_not_delta_or_dict s.cfg hyb (gateOperand s) s.inBuf
    rw [exec_compress_done h hst, writeRecord_recStrategy]
    exact ⟨fun e => hwinner (.inr (tagOf_injective e)), fun e => hwinner (.inl (tagOf_injective e))⟩

end Sys2Proof.Proofs
end

section
/-! The table after an append (R143) in the terms of R33, and what an append can add to it. -/

namespace Sys2Proof.Proofs

open Sys2Proof.Machine Sys2Proof.Safety

/-- R33: a table is full exactly when it is not empty and no slot is left. -/
theorem dictState_eq_full_iff {p : Params} {table : Block} :
    dictState p table = .fullPendingReset ↔ table.length ≠ 0 ∧ p.dictCap ≤ table.length := by
  unfold dictState
  split
  · simp_all
  · split <;> simp_all

/-- R143: a value goes to the slot after those in use when the table it gives is one that may stand. -/
theorem append_of_tableFits {p : Params} {v : Byte} {table : Block} (h : TableFits p (table ++ [v])) :
    append p v table = table ++ [v] := by
  obtain ⟨hle, hne⟩ := h
  rw [List.length_append, List.length_singleton] at hle hne
  rcases append_cases p v table with ⟨hd, hc, -⟩ | ⟨-, -, e⟩ | ⟨-, hc, -⟩ | ⟨-, -, e⟩
  · exact absurd hc (hne hd)
  · exact e
  · omega
  · exact e

/-- R143: an append adds the value at the end and may drop other entries. -/
theorem append_sublist (p : Params) (v : Byte) (table : Block) : (append p v table).Sublist (table ++ [v]) := by
  rcases append_cases p v table with ⟨-, -, e⟩ | ⟨-, -, e⟩ | ⟨-, -, e⟩ | ⟨-, -, e⟩ <;> rw [e]
  · exact List.nil_sublist _
  · exact List.sublist_append_right _ _

/-- R144: appending a byte that the table does not hold keeps its entries distinct. -/
theorem append_nodup (p : Params) {v : Byte} {table : Block} (h : table.Nodup) (hv : v ∉ table) :
    (append p v table).Nodup :=
  (append_sublist p v table).nodup (by simpa [List.nodup_append] using ⟨h, fun a ha e => hv (e ▸ ha)⟩)

/-- R15, R143: appending a 7-bit value keeps the entries 7-bit. -/
theorem append_sevenBit (p : Params) {v : Byte} {table : Block} (h : SevenBit table) (hv : v.toNat < 128) :
    SevenBit (append p v table) := by
  intro b hb
  rcases List.mem_append.mp ((append_sublist p v table).subset hb) with hb | hb
  · exact h b hb
  · rwa [List.mem_singleton.mp hb]

end Sys2Proof.Proofs
end

section
/-! The dictionary encoder byte by byte (R145, R147): the code of a byte, the table after it, and what holds of the table
after every block (R144). -/

namespace Sys2Proof.Proofs

open Sys2Proof.Machine Sys2Proof.Safety

/-! ### One byte -/

/-- R145: a byte that the table holds gives its index and leaves the table. -/
theorem dictEncSymbol_of_lookup (p : Params) {table : Block} {b : Byte} {i : Nat} (h : lookup b table = some i) :
    dictEncSymbol p table b = (indexCode i, table) := by
  simp [dictEncSymbol, h]

/-- R145: a novel byte gives a literal and is appended. -/
theorem dictEncSymbol_of_notMem (p : Params) {table : Block} {b : Byte} (h : b ∉ table) :
    dictEncSymbol p table b = (literalCode b, append p b table) := by
  simp [dictEncSymbol, lookup_eq_none_iff.mpr h]

/-- R141: a byte that lookup finds is in a slot in use. -/
theorem lookup_lt_length {b : Byte} {table : Block} {i : Nat} (h : lookup b table = some i) : i < table.length := by
  obtain ⟨hi, -⟩ := lookup_eq_some_iff.mp h
  exact (List.getElem?_eq_some_iff.mp hi).1

theorem dictEncByte_eq_dictEncSymbol (p : Params) (table : Block) (b : Byte) :
    dictEncByte p table b = ((dictEncSymbol p table b).2, [(dictEncSymbol p table b).1]) := by
  unfold dictEncByte dictEncSymbol
  cases lookup b table <;> rfl

/-! ### The machine and the operation -/

/-- R147: from any table the machine emits the codes of the operation. -/
theorem feed_dictEncByte_emits (p : Params) (table x : Block) :
    (feed (dictEncByte p) table x).2 = dictEncFrom p table x := by
  induction x generalizing table with
  | nil => rfl
  | cons b bs ih => simp [dictEncFrom, dictEncByte_eq_dictEncSymbol, ih]

/-- R147: the machine emits `DICT.ENC(x)`. -/
theorem dictEncMachine_eq_dictEnc (p : Params) (x : Block) : dictEncMachine p x = dictEnc p x :=
  feed_dictEncByte_emits p [] x

/-- R145: a block coded in two parts, the second from the table that the first left. -/
theorem dictEnc_append (p : Params) (pre post : Block) :
    dictEnc p (pre ++ post) = dictEnc p pre ++ dictEncFrom p (encTable p pre) post := by
  rw [← dictEncMachine_eq_dictEnc, dictEncMachine, feed_append]
  exact congrArg₂ (· ++ ·) (feed_dictEncByte_emits p [] pre) (feed_dictEncByte_emits p _ post)

/-- R145: the code of the byte after `pre` is made with the table that `pre` left. -/
theorem getElem?_dictEnc (p : Params) (pre post : Block) (b : Byte) :
    (dictEnc p (pre ++ b :: post))[pre.length]? = some (dictEncSymbol p (encTable p pre) b).1 := by
  rw [dictEnc_append, List.getElem?_append_right (by simp)]
  simp [dictEncFrom]

theorem dictEnc_append_singleton (p : Params) (pre : Block) (b : Byte) :
    dictEnc p (pre ++ [b]) = dictEnc p pre ++ [(dictEncSymbol p (encTable p pre) b).1] := by
  rw [dictEnc_append]
  rfl

/-! ### The table -/

@[simp] theorem encTable_nil (p : Params) : encTable p [] = [] := rfl

theorem encTable_append_singleton (p : Params) (pre : Block) (b : Byte) :
    encTable p (pre ++ [b]) = (dictEncSymbol p (encTable p pre) b).2 := by
  simp [encTable, feed_append, dictEncByte_eq_dictEncSymbol]

/-- R145: what holds of the empty table and is kept by the append of a novel byte of the block holds of the table after
the block. -/
theorem encTable_induction {p : Params} {P : Block → Prop} (nil : P []) {x : Block}
    (novel : ∀ table, ∀ b ∈ x, P table → b ∉ table → P (append p b table)) : P (encTable p x) := by
  induction x using List.reverseRecOn with
  | nil => exact nil
  | append_singleton pre b ih =>
    have hpre : P (encTable p pre) := ih fun table c hc => novel table c (List.mem_append_left _ hc)
    rw [encTable_append_singleton]
    cases hb : lookup b (encTable p pre) with
    | some i => rwa [dictEncSymbol_of_lookup p hb]
    | none =>
      have hnew := lookup_eq_none_iff.mp hb
      rw [dictEncSymbol_of_notMem p hnew]
      exact novel _ b (by simp) hpre hnew

/-- R144: the encoder's table is within its capacity. -/
theorem encTable_fits {p : Params} (hl : Params.legal p = true) (x : Block) : TableFits p (encTable p x) :=
  encTable_induction (tableFits_nil hl) fun _ b _ h _ => append_keeps_tableFits hl h b

/-- R144: the encoder's entries are distinct. -/
theorem encTable_nodup (p : Params) (x : Block) : (encTable p x).Nodup :=
  encTable_induction List.nodup_nil fun _ _ _ h hb => append_nodup p h hb

/-- R15: a 7-bit block leaves 7-bit entries. -/
theorem encTable_sevenBit (p : Params) {x : Block} (hx : SevenBit x) : SevenBit (encTable p x) :=
  encTable_induction (P := SevenBit) nofun fun _ b hb h _ => append_sevenBit p h (hx b hb)

/-- R144: a block of distinct bytes that may stand as a table is the table it leaves. -/
theorem encTable_of_nodup {p : Params} {x : Block} (hx : x.Nodup) (hfit : TableFits p x) : encTable p x = x := by
  induction x using List.reverseRecOn with
  | nil => rfl
  | append_singleton pre b ih =>
    obtain ⟨hpre, hb⟩ : pre.Nodup ∧ b ∉ pre := by
      rw [← List.concat_eq_append, List.nodup_concat] at hx
      exact hx.symm
    have hroom : pre.length < p.dictCap := by simpa using hfit.1
    have htable : encTable p pre = pre := ih hpre ⟨hroom.le, fun _ => hroom.ne⟩
    rw [encTable_append_singleton, htable, dictEncSymbol_of_notMem p hb, append_of_tableFits hfit]

/-! ### Seven-bit tables -/

/-- R15: there are 128 bytes below 0x80. -/
theorem length_le_of_sevenBit_nodup {table : Block} (h : SevenBit table) (hd : table.Nodup) : table.length ≤ 128 := by
  have hsub : table.map BitVec.toNat ⊆ List.range 128 := by
    intro n hn
    obtain ⟨b, hb, rfl⟩ := List.mem_map.mp hn
    exact List.mem_range.mpr (h b hb)
  have hnodup : (table.map BitVec.toNat).Nodup := hd.map fun _ _ => BitVec.eq_of_toNat_eq
  simpa using (hnodup.subperm hsub).length_le

/-- R161: on a 7-bit block no index reaches 128. -/
theorem lookup_encTable_lt_of_sevenBit {p : Params} {x : Block} (hx : SevenBit x) {b : Byte} {i : Nat}
    (h : lookup b (encTable p x) = some i) : i < 128 :=
  (lookup_lt_length h).trans_le (length_le_of_sevenBit_nodup (encTable_sevenBit p hx) (encTable_nodup p x))

end Sys2Proof.Proofs
end

section
/-! The dictionary decoder byte by byte (R149, R151): the machine against the operation, what the machine keeps while it
runs, and where it raises (R150). -/

namespace Sys2Proof.Proofs

open Sys2Proof.Machine Sys2Proof.Safety

/-! ### One code -/

/-- R150: a code fails exactly when it is an index not below the length of the table. -/
theorem dictDecSymbol_eq_none_iff {p : Params} {table : Block} {e : Byte} :
    dictDecSymbol p table e = none ↔ e.toNat < 128 ∧ table.length ≤ e.toNat := by
  rcases dictDecSymbol_cases p table e with ⟨hl, h⟩ | ⟨hl, v, hv, h⟩ | ⟨hl, hlen, h⟩
  · have := (isLiteral_iff e).mp hl
    simp [h]; omega
  · obtain ⟨hlt, -⟩ := List.getElem?_eq_some_iff.mp hv
    simp [h]; omega
  · rw [← Bool.not_eq_true, isLiteral_iff] at hl
    simp [h]; omega

/-- R81: the value of a literal is 7-bit. -/
theorem literalValue_lt (e : Byte) : (literalValue e).toNat < 128 := by
  revert e; decide

/-- R151: the machine on a code that decodes. -/
theorem dictDecByte_of_some {p : Params} {table table' : Block} {e v : Byte}
    (h : dictDecSymbol p table e = some (v, table')) (rd : Nat) (out : Block) :
    dictDecByte p (.running table rd out) e = .running table' (rd + 1) (out ++ [v]) := by
  rcases dictDecSymbol_cases p table e with ⟨hl, g⟩ | ⟨hl, w, hw, g⟩ | ⟨-, -, g⟩ <;> rw [g] at h <;> cases h
  · simp [dictDecByte, hl]
  · obtain ⟨hlt, rfl⟩ := List.getElem?_eq_some_iff.mp hw
    simp [dictDecByte, hl, hlt]

/-- R151: the machine on a code that fails. -/
theorem dictDecByte_of_none {p : Params} {table : Block} {e : Byte} (h : dictDecSymbol p table e = none) (rd : Nat)
    (out : Block) : dictDecByte p (.running table rd out) e = .raised (indexCause rd e table.length) := by
  obtain ⟨hindex, hlen⟩ := dictDecSymbol_eq_none_iff.mp h
  have hl : isLiteral e = false := by
    rw [← Bool.not_eq_true, isLiteral_iff]
    omega
  simp [dictDecByte, hl, hlen]

/-- R151: a machine that runs after a code ran before it, on a code that decodes. -/
theorem eq_of_dictDecByte_eq_running {p : Params} {r : DictDecRun} {e : Byte} {table' : Block} {rd' : Nat}
    {out' : Block} (h : dictDecByte p r e = .running table' rd' out') :
    ∃ table rd out v, r = .running table rd out ∧ dictDecSymbol p table e = some (v, table') ∧ rd' = rd + 1 ∧
      out' = out ++ [v] := by
  cases r with
  | raised c => cases h
  | running table rd out =>
    cases hs : dictDecSymbol p table e with
    | none => rw [dictDecByte_of_none hs] at h; cases h
    | some q => rw [dictDecByte_of_some hs] at h; cases h; exact ⟨table, rd, out, q.1, rfl, hs, rfl, rfl⟩

/-- R151: a machine that has raised after a code had raised before it, or the code fails. -/
theorem eq_of_dictDecByte_eq_raised {p : Params} {r : DictDecRun} {e : Byte} {c : Cause}
    (h : dictDecByte p r e = .raised c) : r = .raised c ∨
      ∃ table rd out, r = .running table rd out ∧ dictDecSymbol p table e = none ∧ c = indexCause rd e table.length := by
  cases r with
  | raised c' => exact .inl h
  | running table rd out =>
    cases hs : dictDecSymbol p table e with
    | none => rw [dictDecByte_of_none hs] at h; cases h; exact .inr ⟨table, rd, out, rfl, hs, rfl⟩
    | some q => rw [dictDecByte_of_some hs] at h; cases h

/-! ### The machine and the operation -/

theorem dictDecFrom_cons_of_some {p : Params} {table table' : Block} {e v : Byte}
    (h : dictDecSymbol p table e = some (v, table')) (pos : Nat) (es : Block) :
    dictDecFrom p pos table (e :: es) = (dictDecFrom p (pos + 1) table' es).emit v := by
  simp [dictDecFrom, h]

theorem dictDecFrom_cons_of_none {p : Params} {table : Block} {e : Byte} (h : dictDecSymbol p table e = none)
    (pos : Nat) (es : Block) : dictDecFrom p pos table (e :: es) = .raised (indexCause pos e table.length) := by
  simp [dictDecFrom, h]

/-- R151: once an index has failed the machine stays as it is. -/
theorem foldl_dictDecByte_raised (p : Params) (c : Cause) (y : Block) :
    y.foldl (dictDecByte p) (.raised c) = .raised c := by
  induction y with
  | nil => rfl
  | cons e es ih => exact ih

/-- R151: where the operation decodes, the machine runs to the end and emits the same bytes. -/
theorem foldl_dictDecByte_of_ok {p : Params} {rd : Nat} {table y rest : Block} (out : Block)
    (h : dictDecFrom p rd table y = .ok rest) :
    ∃ table', y.foldl (dictDecByte p) (.running table rd out) = .running table' (rd + y.length) (out ++ rest) := by
  induction y generalizing rd table rest out with
  | nil =>
    obtain rfl : [] = rest := by simpa [dictDecFrom] using h
    exact ⟨table, by simp⟩
  | cons e es ih =>
    cases hs : dictDecSymbol p table e with
    | none => rw [dictDecFrom_cons_of_none hs] at h; cases h
    | some q =>
      rw [dictDecFrom_cons_of_some hs] at h
      obtain ⟨rest', hrest, rfl⟩ := emit_eq_ok_iff.mp h
      obtain ⟨table', hrun⟩ := ih (out ++ [q.1]) hrest
      refine ⟨table', ?_⟩
      rw [List.foldl_cons, dictDecByte_of_some hs, hrun]
      simp [Nat.add_assoc, Nat.add_comm 1]

/-- R151: where the operation raises, so does the machine, with the same cause. -/
theorem foldl_dictDecByte_of_raised {p : Params} {rd : Nat} {table y : Block} {c : Cause} (out : Block)
    (h : dictDecFrom p rd table y = .raised c) :
    y.foldl (dictDecByte p) (.running table rd out) = .raised c := by
  induction y generalizing rd table out with
  | nil => simp [dictDecFrom] at h
  | cons e es ih =>
    rw [List.foldl_cons]
    cases hs : dictDecSymbol p table e with
    | none =>
      rw [dictDecFrom_cons_of_none hs] at h
      rw [dictDecByte_of_none hs, foldl_dictDecByte_raised, Decoded.raised.inj h]
    | some q =>
      rw [dictDecFrom_cons_of_some hs] at h
      rw [dictDecByte_of_some hs]
      exact ih _ (emit_eq_raised_iff.mp h)

/-- R151: the machine runs to the end exactly when the operation decodes, and then it has emitted the operation's
bytes. -/
theorem dictDec_eq_ok_iff {p : Params} {y out : Block} :
    dictDec p y = .ok out ↔ ∃ table, dictDecMachine p y = .running table y.length out := by
  refine ⟨fun h => by simpa [dictDecMachine] using foldl_dictDecByte_of_ok [] h, fun ⟨table, h⟩ => ?_⟩
  cases hd : dictDec p y with
  | ok out' =>
    obtain ⟨table', hrun⟩ := foldl_dictDecByte_of_ok [] hd
    have heq := hrun.symm.trans h
    simp_all
  | raised c => cases (foldl_dictDecByte_of_raised [] hd).symm.trans h

/-- R151: the machine raises exactly when the operation does, with the same cause. -/
theorem dictDec_eq_raised_iff {p : Params} {y : Block} {c : Cause} :
    dictDec p y = .raised c ↔ dictDecMachine p y = .raised c := by
  refine ⟨foldl_dictDecByte_of_raised [], fun h => ?_⟩
  cases hd : dictDec p y with
  | ok out =>
    obtain ⟨table, hrun⟩ := foldl_dictDecByte_of_ok [] hd
    cases hrun.symm.trans h
  | raised c' => exact congrArg _ (DictDecRun.raised.inj ((foldl_dictDecByte_of_raised [] hd).symm.trans h))

/-! ### What the machine keeps -/

@[simp] theorem dictDecMachine_nil (p : Params) : dictDecMachine p [] = .running [] 0 [] := rfl

theorem dictDecMachine_append_singleton (p : Params) (pre : Block) (e : Byte) :
    dictDecMachine p (pre ++ [e]) = dictDecByte p (dictDecMachine p pre) e := by
  simp [dictDecMachine]

/-- R151: what holds of the empty table with nothing emitted, and is kept by every code that decodes, holds as long as
the machine runs; the read cursor counts the codes. -/
theorem dictDecMachine_induction {p : Params} {P : Block → Block → Prop} (nil : P [] [])
    (code : ∀ table out e v table', P table out → dictDecSymbol p table e = some (v, table') → P table' (out ++ [v]))
    {y table out : Block} {rd : Nat} (h : dictDecMachine p y = .running table rd out) : rd = y.length ∧ P table out := by
  induction y using List.reverseRecOn generalizing table rd out with
  | nil => cases h; exact ⟨rfl, nil⟩
  | append_singleton pre e ih =>
    rw [dictDecMachine_append_singleton] at h
    obtain ⟨table₀, rd₀, out₀, v, hpre, hs, rfl, rfl⟩ := eq_of_dictDecByte_eq_running h
    obtain ⟨rfl, hP⟩ := ih hpre
    exact ⟨by simp, code _ _ _ _ _ hP hs⟩

/-- R36, R151: the read cursor counts the codes. -/
theorem dictDecMachine_rd {p : Params} {y table out : Block} {rd : Nat}
    (h : dictDecMachine p y = .running table rd out) : rd = y.length :=
  (dictDecMachine_induction (P := fun _ _ => True) trivial (fun _ _ _ _ _ _ _ => trivial) h).1

/-- R144: the decoder's table is within its capacity. -/
theorem dictDecMachine_table_fits {p : Params} (hl : Params.legal p = true) {y table out : Block} {rd : Nat}
    (h : dictDecMachine p y = .running table rd out) : TableFits p table :=
  (dictDecMachine_induction (P := fun table _ => TableFits p table) (tableFits_nil hl)
    (fun _ _ _ _ _ hfit hs => dictDecSymbol_keeps_tableFits hl hfit hs) h).2

/-- R157: from 7-bit entries a code decodes to a 7-bit byte and leaves 7-bit entries. -/
theorem dictDecSymbol_sevenBit {p : Params} {table table' : Block} {e v : Byte} (h : SevenBit table)
    (hs : dictDecSymbol p table e = some (v, table')) : v.toNat < 128 ∧ SevenBit table' := by
  rcases dictDecSymbol_cases p table e with ⟨-, g⟩ | ⟨-, w, hw, g⟩ | ⟨-, -, g⟩ <;> rw [g] at hs <;> cases hs
  · exact ⟨literalValue_lt e, append_sevenBit p h (literalValue_lt e)⟩
  · exact ⟨h v (List.mem_of_getElem? hw), h⟩

/-- R157: a decoded block is 7-bit, since every entry of the decoder's table is. -/
theorem sevenBit_of_dictDec_ok {p : Params} {y out : Block} (h : dictDec p y = .ok out) : SevenBit out := by
  obtain ⟨table, hrun⟩ := dictDec_eq_ok_iff.mp h
  refine (dictDecMachine_induction (P := fun table out => SevenBit table ∧ SevenBit out) ⟨nofun, nofun⟩ ?_ hrun).2.2
  intro table out e v table' ⟨htable, hout⟩ hs
  obtain ⟨hv, htable'⟩ := dictDecSymbol_sevenBit htable hs
  refine ⟨htable', fun b hb => ?_⟩
  rcases List.mem_append.mp hb with hb | hb
  · exact hout b hb
  · rwa [List.mem_singleton.mp hb]

/-! ### Where the machine raises -/

/-- R150: the machine raises exactly at the first code that fails. -/
theorem dictDecMachine_eq_raised_iff {p : Params} {y : Block} {c : Cause} :
    dictDecMachine p y = .raised c ↔ IndexFailsAt p y c := by
  constructor
  · intro h
    induction y using List.reverseRecOn with
    | nil => cases h
    | append_singleton pre e ih =>
      rw [dictDecMachine_append_singleton] at h
      rcases eq_of_dictDecByte_eq_raised h with hpre | ⟨table, rd, out, hpre, hs, rfl⟩
      · obtain ⟨pre', e', post', table, out, rfl, hfails⟩ := ih hpre
        exact ⟨pre', e', post' ++ [e], table, out, by simp, hfails⟩
      · obtain rfl := dictDecMachine_rd hpre
        obtain ⟨hindex, hlen⟩ := dictDecSymbol_eq_none_iff.mp hs
        exact ⟨pre, e, [], table, out, rfl, hpre, hindex, hlen, rfl⟩
  · rintro ⟨pre, e, post, table, out, rfl, hpre, hindex, hlen, rfl⟩
    have hs : dictDecSymbol p table e = none := dictDecSymbol_eq_none_iff.mpr ⟨hindex, hlen⟩
    rw [dictDecMachine] at hpre ⊢
    rw [List.foldl_append, List.foldl_cons, hpre, dictDecByte_of_none hs, foldl_dictDecByte_raised]
    rfl

end Sys2Proof.Proofs
end

section
/-! The lock-step of the two tables (R160): while the bytes are 7-bit, the decoder reads back each code that the encoder
makes and changes its table in the same way. -/

namespace Sys2Proof.Proofs

open Sys2Proof.Machine Sys2Proof.Safety

/-! ### Codes -/

/-- R80: the literal flag is set in the code of a novel byte. -/
theorem literalCode_ge (b : Byte) : 128 ≤ (literalCode b).toNat := by
  revert b; decide

/-- R80, R81: a 7-bit byte comes back from its literal code. -/
theorem literalValue_literalCode {b : Byte} (hb : b.toNat < 128) : literalValue (literalCode b) = b := by
  revert b; decide

/-- R157: a byte of 0x80 or more is its own literal code, which decodes to the byte less 128. -/
theorem literalCode_of_ge {b : Byte} (hb : 128 ≤ b.toNat) :
    literalCode b = b ∧ isLiteral b = true ∧ (literalValue b).toNat = b.toNat - 128 := by
  revert b; decide

/-- R80: an index below 128 is an index code. -/
theorem indexCode_of_lt {i : Nat} (hi : i < 128) : (indexCode i).toNat = i ∧ isLiteral (indexCode i) = false := by
  have htoNat : (indexCode i).toNat = i := by
    rw [indexCode, BitVec.toNat_ofNat]
    omega
  refine ⟨htoNat, ?_⟩
  rw [← Bool.not_eq_true, isLiteral_iff]
  omega

/-! ### The lock-step -/

/-- R160: with equal tables, and no index at 128 or above, a 7-bit byte comes back from its code and the tables stay
equal. -/
theorem dictDecSymbol_dictEncSymbol (p : Params) {table : Block} {b : Byte} (hb : b.toNat < 128)
    (hindex : ∀ i, lookup b table = some i → i < 128) :
    dictDecSymbol p table (dictEncSymbol p table b).1 = some (b, (dictEncSymbol p table b).2) := by
  cases h : lookup b table with
  | none =>
    have hl : isLiteral (literalCode b) = true := (isLiteral_iff _).mpr (literalCode_ge b)
    rw [dictEncSymbol_of_notMem p (lookup_eq_none_iff.mp h)]
    simp [dictDecSymbol, hl, literalValue_literalCode hb]
  | some i =>
    obtain ⟨htoNat, hl⟩ := indexCode_of_lt (hindex i h)
    obtain ⟨hget, -⟩ := lookup_eq_some_iff.mp h
    rw [dictEncSymbol_of_lookup p h]
    simp [dictDecSymbol, hl, htoNat, fetch, memRead, hget]

/-- R160: the decoder machine, fed the codes of a 7-bit block, gives the block back with the encoder's table. -/
theorem dictDecMachine_dictEnc (p : Params) {x : Block} (hx : SevenBit x) :
    dictDecMachine p (dictEnc p x) = .running (encTable p x) x.length x := by
  induction x using List.reverseRecOn with
  | nil => rfl
  | append_singleton pre b ih =>
    have hpre : SevenBit pre := fun c hc => hx c (List.mem_append_left _ hc)
    have hb : b.toNat < 128 := hx b (by simp)
    have hs := dictDecSymbol_dictEncSymbol p (table := encTable p pre) hb
      fun _ hi => lookup_encTable_lt_of_sevenBit hpre hi
    rw [dictEnc_append_singleton, dictDecMachine_append_singleton, ih hpre, dictDecByte_of_some hs,
      encTable_append_singleton, List.length_append, List.length_singleton]

/-! ### The statements -/

/-- Settles O42: the codes of the first bytes are the code of those bytes, which are 7-bit. -/
theorem lockStepOnSevenBit : Obligations.LockStepOnSevenBit := by
  intro p pre post _ hx
  have htake : (dictEnc p (pre ++ post)).take pre.length = dictEnc p pre := by
    rw [dictEnc_append, List.take_left' (dictEnc_length p pre)]
  rw [htake]
  exact dictDecMachine_dictEnc p fun b hb => hx b (List.mem_append_left _ hb)

/-- Settles O41: a 7-bit block comes back by the lock-step, and nothing but a 7-bit block is ever decoded. -/
theorem dictLosslessIffSevenBit : Obligations.DictLosslessIffSevenBit := by
  intro p x _
  refine ⟨⟨sevenBit_of_dictDec_ok, fun hx => ?lossless⟩, fun hx => ?lossy⟩
  case lossless => exact dictDec_eq_ok_iff.mpr ⟨encTable p x, by rw [dictEnc_length, dictDecMachine_dictEnc p hx]⟩
  case lossy =>
    cases hd : dictDec p (dictEnc p x) with
    | ok out =>
      refine .inl ⟨out, rfl, fun e => hx (e ▸ sevenBit_of_dictDec_ok hd), ?_⟩
      rw [dictDec_ok_length hd, dictEnc_length]
    | raised c => exact .inr ⟨c, rfl⟩

/-- Settles O40: what is decoded is 7-bit, so it holds no byte of 0x80 or more. -/
theorem literalsLoseTheTopBit : Obligations.LiteralsLoseTheTopBit := by
  refine ⟨fun _ _ _ => sevenBit_of_dictDec_ok, fun _ => literalCode_of_ge, fun p x out j b hd _ hb hout => ?_⟩
  have := sevenBit_of_dictDec_ok hd b (List.mem_of_getElem? hout)
  omega

end Sys2Proof.Proofs
end

section
/-! The dictionary's table and its codes: the appends, the bounds of the tables, and which indices the encoder emits
(R143, R144, R146, R161); the machines and the failing index (R147, R150, R151). -/

namespace Sys2Proof.Proofs

open Sys2Proof.Machine Sys2Proof.Safety

/-- R144: under `EAGER` a slot is always left. -/
theorem length_add_one_le_of_tableFits {p : Params} {table : Block} (h : TableFits p table)
    (hd : p.dictClear = .eager) : table.length + 1 ≤ p.dictCap :=
  Nat.lt_of_le_of_ne h.1 (h.2 hd)

/-- Settles O34: `EAGER` by the two outcomes of its append, `LAZY` by whether a slot is left. -/
theorem appendAndClear : Obligations.AppendAndClear := by
  intro p v table hl hle
  obtain ⟨hcap, -⟩ := legal_iff.mp hl
  refine ⟨fun hd _ => ?eager, fun hd hfull => ?room, fun hd hfull => ?full, fun hd x hfull => ?never⟩
  case eager =>
    rcases append_cases p v table with ⟨-, hc, e⟩ | ⟨-, hc, e⟩ | ⟨hd', -⟩ | ⟨hd', -⟩
    · rw [e, if_pos hc]
    · rw [e, if_neg hc]
    · simp [hd] at hd'
    · simp [hd] at hd'
  case room =>
    have hlt : table.length + 1 ≤ p.dictCap := by
      rw [ne_eq, dictState_eq_full_iff] at hfull
      omega
    exact append_of_tableFits ⟨by simpa using hlt, fun he => by simp [hd] at he⟩
  case full =>
    obtain ⟨-, hge⟩ := dictState_eq_full_iff.mp hfull
    rcases append_cases p v table with ⟨hd', -⟩ | ⟨hd', -⟩ | ⟨-, -, e⟩ | ⟨-, hc, -⟩
    · simp [hd] at hd'
    · simp [hd] at hd'
    · exact e
    · omega
  case never =>
    obtain ⟨-, hge⟩ := dictState_eq_full_iff.mp hfull
    have := length_add_one_le_of_tableFits (encTable_fits hl x) hd
    omega

/-- Settles O35: both tables are within their capacity, and an index the encoder emits is below the table's length. -/
theorem tableInvariants : Obligations.TableInvariants := by
  intro p hl
  have hfits : ∀ {table}, TableFits p table →
      table.length ≤ p.dictCap ∧ (p.dictClear = .eager → table.length + 1 ≤ p.dictCap) :=
    fun h => ⟨h.1, length_add_one_le_of_tableFits h⟩
  refine ⟨fun x => hfits (encTable_fits hl x), encTable_nodup p,
    fun _ _ _ _ h => hfits (dictDecMachine_table_fits hl h), fun h1 hd x => ?_, fun x b i hi => ?_⟩
  · have := length_add_one_le_of_tableFits (encTable_fits hl x) hd
    exact List.length_eq_zero_iff.mp (by omega)
  · obtain ⟨hle, heager⟩ := hfits (encTable_fits hl x)
    have := lookup_lt_length hi
    exact ⟨by omega, fun hd => by have := heager hd; omega⟩

/-- Settles O38: the encoder machine code by code, the decoder machine by where the operation decodes and where it
raises. -/
theorem dictMachinesRefine : Obligations.DictMachinesRefine :=
  ⟨dictEncMachine_eq_dictEnc, fun _ _ _ => dictDec_eq_ok_iff, fun _ _ _ => dictDec_eq_raised_iff⟩

/-- Settles O39: the machine raises where the operation does, at the first failing code, and it has one final state. -/
theorem failingIndexIsReported : Obligations.FailingIndexIsReported := by
  refine fun p y c => ⟨dictDec_eq_raised_iff.trans dictDecMachine_eq_raised_iff, fun c' h h' => ?_⟩
  rw [← dictDecMachine_eq_raised_iff] at h h'
  exact DictDecRun.raised.inj (h.symm.trans h')

/-- R161: the 129 bytes 0 to 128, the shortest block that can leave a byte at index 128. -/
def first129Bytes : Block := (List.range 129).map (BitVec.ofNat 8)

@[simp] theorem first129Bytes_length : first129Bytes.length = 129 := by simp [first129Bytes]

theorem first129Bytes_nodup : first129Bytes.Nodup := by
  refine List.nodup_range.map_on fun i hi j hj h => ?_
  rw [List.mem_range] at hi hj
  bv_omega

theorem lookup_first129Bytes : lookup 128 first129Bytes = some 128 := by decide

/-- R161: the capacities that leave no room for an index of 128. -/
theorem tableFits_first129Bytes_iff {p : Params} : TableFits p first129Bytes ↔
    ¬ ((p.dictClear = .eager ∧ p.dictCap ≤ 129) ∨ (p.dictClear = .lazy ∧ p.dictCap ≤ 128)) := by
  rw [TableFits, first129Bytes_length]
  cases p.dictClear <;> simp <;> omega

/-- Settles O43: a capacity over the bound lets the bytes 0 to 128 stand as a table, a capacity within it keeps every
table below that length, and a 7-bit block cannot fill such a table. -/
theorem indexNeverCollidesIff : Obligations.IndexNeverCollidesIff := by
  refine ⟨fun p hl => ⟨fun h => ?large, fun hcap x b i hi => ?small⟩,
    fun p x _ hx b i hi => lookup_encTable_lt_of_sevenBit hx hi⟩
  case large =>
    by_contra hcap
    have htable := encTable_of_nodup first129Bytes_nodup (tableFits_first129Bytes_iff.mpr hcap)
    exact absurd (h first129Bytes 128 128 (by rw [htable, lookup_first129Bytes])) (by decide)
  case small =>
    have hi := lookup_lt_length hi
    have hfit := encTable_fits hl x
    rcases hcap with ⟨hd, hcap⟩ | ⟨-, hcap⟩
    · have := length_add_one_le_of_tableFits hfit hd
      omega
    · have := hfit.1
      omega

end Sys2Proof.Proofs
end

section
/-! The commands `DICT.ENC` and `DICT.DEC` (R145, R149, R233): what they complete with and how they fail. -/

namespace Sys2Proof.Proofs

open Sys2Proof.Machine Sys2Proof.Safety

/-- R240: on a loaded block a command whose function gives an error fails with it. -/
theorem failsWith_of_failed {i : Instr} {s : State} {k : ErrorKind} {a b : Cause} (hs : Ready s)
    (hi : i ≠ .decompress) (hf : resultFn i s s.inBuf = .failed k a b) : FailsWith i s (errorCode k) a b := by
  obtain ⟨hl, hv⟩ := hs
  refine ⟨(discardCallScoped s).callScoped, (discardCallScoped s).draws, ?_⟩
  rw [exec_eq_runCommand fun e => absurd e hi, runCommand_loaded hl hv, hf]
  rfl

theorem dictEnc_completes {s : State} (hs : Ready s) (hfit : fitsOut s.cfg s.inBuf = true) :
    CompletesWith .dictEnc s (dictEnc s.cfg s.inBuf) :=
  completesWith_of_fitsOut hs nofun rfl ((fitsOut_congr (dictEnc_length _ _)).trans hfit)

theorem dictDecResult_of_ok {p : Params} {y out : Block} (h : dictDec p y = .ok out) :
    dictDecResult p y = bounded p [out.length] (.output out) := by
  simp [dictDecResult, h, Decoded.written]

/-- R64, R233: a decode that raises counts the bytes it wrote, one for each code before the failing one. -/
theorem dictDecResult_of_raised {p : Params} {y : Block} {c : Cause} (h : dictDec p y = .raised c) :
    dictDecResult p y = bounded p [c.pos] (.failed .invalidDictionaryIndex c Cause.zero) := by
  simp [dictDecResult, h, Decoded.written]

theorem dictDec_completes {s : State} {out : Block} (hs : Ready s) (hd : dictDec s.cfg s.inBuf = .ok out)
    (hfit : fitsOut s.cfg s.inBuf = true) : CompletesWith .dictDec s out :=
  completesWith_of_fitsOut hs nofun (dictDecResult_of_ok hd) ((fitsOut_congr (dictDec_ok_length hd)).trans hfit)

theorem dictDec_fails {s : State} {c : Cause} (hs : Ready s) (hd : dictDec s.cfg s.inBuf = .raised c)
    (hpos : atMost s.cfg.mMax c.pos = true) : FailsWith .dictDec s 2 c ⟨0, 0, 0, 0⟩ :=
  failsWith_of_failed (k := .invalidDictionaryIndex) hs nofun
    ((dictDecResult_of_raised hd).trans (bounded_of_fits (by simpa using hpos)))

/-- Settles O37: the command's function gives the decoded bytes or the error with its cause, and what was written
fits. -/
theorem dictDecCompletesOrFails : Obligations.DictDecCompletesOrFails :=
  ⟨rfl, fun _ hs _ hd hfit => dictDec_completes hs hd hfit, fun _ hs _ hd hpos => dictDec_fails hs hd hpos,
    fun _ hl hv => failsWith_invalidInput nofun hl hv⟩

/-- Settles O36: the command completes with its function's value, whose code for a byte is the one made with the table
that the bytes before it left; the first byte meets the empty table. -/
theorem dictEncCodes : Obligations.DictEncCodes := by
  refine ⟨rfl, fun _ hs hfit => dictEnc_completes hs hfit, fun _ hl hv => failsWith_invalidInput nofun hl hv,
    fun p pre post b => ⟨fun i hi hfirst => ?index, fun hnew => ?literal⟩, encTable_nil, fun p b x => ?first⟩
  case index =>
    have hb := lookup_eq_some_iff.mpr ⟨hi, hfirst⟩
    rw [getElem?_dictEnc, encTable_append_singleton, dictEncSymbol_of_lookup p hb]
    exact ⟨rfl, rfl⟩
  case literal =>
    rw [getElem?_dictEnc, encTable_append_singleton, dictEncSymbol_of_notMem p hnew]
    exact ⟨rfl, rfl⟩
  case first =>
    refine ⟨literalCode b, dictEncFrom p (append p b []) x, ?_, literalCode_ge b⟩
    rw [dictEnc, dictEncFrom, dictEncSymbol_of_notMem p List.not_mem_nil]

end Sys2Proof.Proofs
end

section
/-! Runs of a block and of its codes (R175): a coding that never makes different neighbours equal cuts a block into at
least as many capped runs, and the dictionary encoder is such a coding on every 7-bit block. -/

namespace Sys2Proof.Proofs

open Sys2Proof.Machine Sys2Proof.Safety

/-! ### Capped runs under a finer coding -/

/-- R104: bytes of one value in front of a block add at most the pairs of a run of their own. -/
theorem pairCount_replicate_append_le (v : Byte) (n : Nat) (x : Block) :
    pairCount (List.replicate n v ++ x) ≤ pairsOfRun n + pairCount x := by
  rcases Nat.eq_zero_or_pos n with rfl | hn
  · simp
  · cases x with
    | nil => simp [pairCount_replicate]
    | cons w rest =>
      obtain ⟨m, tail, hrun, hm, hstop⟩ := exists_first_maximalRun w rest
      rw [hrun]
      by_cases hw : w = v
      · subst hw
        have hsplit := pairsOfRun_add_le n m
        rw [← List.append_assoc, List.replicate_append_replicate, pairCount_replicate_append (by omega) hstop,
          pairCount_replicate_append hm hstop]
        omega
      · exact (pairCount_replicate_append hn (by rw [← hrun]; simpa using hw)).le

/-- R175: where two neighbours in `y` are equal, so are those in `x`. -/
def RunsRefine (x y : Block) : Prop :=
  ∀ (i : Nat) (c : Byte), y[i]? = some c → y[i + 1]? = some c → x[i]? = x[i + 1]?

theorem runsRefine_drop {x y : Block} (h : RunsRefine x y) (n : Nat) : RunsRefine (x.drop n) (y.drop n) := by
  intro i c hc hc'
  simp only [List.getElem?_drop, ← Nat.add_assoc] at hc hc' ⊢
  exact h (n + i) c hc hc'

/-- R175: over a run of `y`, `x` has one value. -/
theorem exists_take_eq_replicate {x rest : Block} {v : Byte} {n : Nat}
    (h : RunsRefine x (List.replicate n v ++ rest)) (hn : n ≤ x.length) : ∃ w, x.take n = List.replicate n w := by
  have hchain : (x.take n).IsChain (· = ·) := by
    refine List.isChain_iff_getElem.mpr fun i hi => ?_
    rw [List.length_take, Nat.min_eq_left hn] at hi
    have hv : ∀ j < n, (List.replicate n v ++ rest)[j]? = some v := fun j hj => by
      simp [List.getElem?_append_left, hj]
    have heq := h i v (hv i (by omega)) (hv (i + 1) hi)
    rw [List.getElem?_eq_getElem (by omega), List.getElem?_eq_getElem (by omega)] at heq
    simpa using heq
  cases hx : x.take n with
  | nil =>
    obtain rfl : n = 0 := by simpa [Nat.min_eq_left hn] using congrArg List.length hx
    exact ⟨0, rfl⟩
  | cons w ws =>
    have hlen : (w :: ws).length = n := by rw [← hx, List.length_take, Nat.min_eq_left hn]
    rw [hx] at hchain
    exact ⟨w, hlen ▸ List.isChain_eq_iff_eq_replicate.mp hchain w rfl⟩

/-- R104, R175: if neighbours are equal in `y` only where they are in `x`, then `y` has at least the capped runs
of `x`. -/
theorem pairCount_le_of_runsRefine {x y : Block} (hlen : x.length = y.length) (h : RunsRefine x y) :
    pairCount x ≤ pairCount y := by
  induction y using block_run_induction generalizing x with
  | nil =>
    obtain rfl := List.length_eq_zero_iff.mp hlen
    exact le_rfl
  | run v n rest h1 hstop ih =>
    rw [List.length_append, List.length_replicate] at hlen
    obtain ⟨w, hw⟩ := exists_take_eq_replicate h (by omega)
    have hrest : pairCount (x.drop n) ≤ pairCount rest := by
      refine ih (by simp; omega) ?_
      simpa using runsRefine_drop h n
    calc pairCount x = pairCount (List.replicate n w ++ x.drop n) := by rw [← hw, List.take_append_drop]
      _ ≤ pairsOfRun n + pairCount (x.drop n) := pairCount_replicate_append_le w n _
      _ ≤ pairsOfRun n + pairCount rest := Nat.add_le_add_left hrest _
      _ = pairCount (List.replicate n v ++ rest) := (pairCount_replicate_append h1 hstop).symm

/-! ### The codes of a 7-bit block -/

/-- R149: one code read twice in a row gives one byte: a literal carries its value, and an index leaves the table. -/
theorem eq_of_dictDecSymbol_twice {p : Params} {table table' table'' : Block} {e a b : Byte}
    (h : dictDecSymbol p table e = some (a, table')) (h' : dictDecSymbol p table' e = some (b, table'')) : a = b := by
  rcases dictDecSymbol_cases p table e with ⟨hl, g⟩ | ⟨-, v, -, g⟩ | ⟨-, -, g⟩ <;> rw [g] at h <;> cases h
  · rcases dictDecSymbol_cases p _ e with ⟨-, g'⟩ | ⟨hl', -⟩ | ⟨hl', -⟩
    · rw [g'] at h'
      cases h'
      rfl
    · simp [hl] at hl'
    · simp [hl] at hl'
  · rw [g] at h'
    cases h'
    rfl

/-- R145: the code at a position is made with the table that the bytes before it left. -/
theorem getElem?_dictEnc_of_getElem? (p : Params) {x : Block} {i : Nat} {b : Byte} (h : x[i]? = some b) :
    (dictEnc p x)[i]? = some (dictEncSymbol p (encTable p (x.take i)) b).1 := by
  obtain ⟨hi, rfl⟩ := List.getElem?_eq_some_iff.mp h
  have hcode := getElem?_dictEnc p (x.take i) (x.drop (i + 1)) x[i]
  rwa [← List.drop_eq_getElem_cons hi, List.take_append_drop, List.length_take, Nat.min_eq_left hi.le] at hcode

theorem lt_length_of_getElem?_dictEnc {p : Params} {x : Block} {i : Nat} {c : Byte} (h : (dictEnc p x)[i]? = some c) :
    i < x.length := by
  obtain ⟨hi, -⟩ := List.getElem?_eq_some_iff.mp h
  rwa [dictEnc_length] at hi

/-- R160: in a 7-bit block the code at a position decodes, with the table before that position, to the byte there. -/
theorem dictDecSymbol_of_getElem?_dictEnc {p : Params} {x : Block} (hx : SevenBit x) {i : Nat} {b c : Byte}
    (hb : x[i]? = some b) (hc : (dictEnc p x)[i]? = some c) :
    dictDecSymbol p (encTable p (x.take i)) c = some (b, encTable p (x.take (i + 1))) := by
  have hindex : ∀ k, lookup b (encTable p (x.take i)) = some k → k < 128 := fun _ hk =>
    lookup_encTable_lt_of_sevenBit (fun a ha => hx a (List.mem_of_mem_take ha)) hk
  rw [getElem?_dictEnc_of_getElem? p hb] at hc
  obtain rfl := Option.some.inj hc
  rw [dictDecSymbol_dictEncSymbol p (hx b (List.mem_of_getElem? hb)) hindex, List.take_add_one, hb, Option.toList_some,
    encTable_append_singleton]

/-- R175: in a 7-bit block two neighbours with the same code are the same byte, since the decoder reads both back. -/
theorem runsRefine_dictEnc (p : Params) {x : Block} (hx : SevenBit x) : RunsRefine x (dictEnc p x) := by
  intro i c hc hc'
  have ha := List.getElem?_eq_getElem (lt_length_of_getElem?_dictEnc hc)
  have hb := List.getElem?_eq_getElem (lt_length_of_getElem?_dictEnc hc')
  rw [ha, hb, eq_of_dictDecSymbol_twice (dictDecSymbol_of_getElem?_dictEnc hx ha hc)
    (dictDecSymbol_of_getElem?_dictEnc hx hb hc')]

end Sys2Proof.Proofs
end

section
/-! The two pipelines (R172 to R175): their lengths, and which of them `HYB.ENC` returns. -/

namespace Sys2Proof.Proofs

open Sys2Proof.Machine Sys2Proof.Safety

/-! ### Lengths -/

/-- R174: pipeline (a) is as long as the plain RLE coding. -/
@[simp] theorem pipeA_length (p : Params) (x : Block) : (pipeA p x).length = (rleEnc x).length :=
  dictEnc_length p (rleEnc x)

/-- R174: pipeline (b) has a pair for each capped run of the codes. -/
theorem pipeB_length (p : Params) (x : Block) : (pipeB p x).length = 2 * pairCount (dictEnc p x) :=
  rleEnc_length (dictEnc p x)

theorem pipeB_length_le (p : Params) (x : Block) : (pipeB p x).length ≤ 2 * x.length := by
  obtain ⟨-, hcodes⟩ := pairCount_bounds (dictEnc p x)
  rw [dictEnc_length] at hcodes
  rw [pipeB_length]
  omega

/-- R171: the length of the not-longer pipeline. -/
theorem hybEnc_length (p : Params) (x : Block) :
    (hybEnc p x).length = min (rleEnc x).length (pipeB p x).length := by
  rw [hybEnc, apply_ite List.length, pipeA_length, min_def]

/-- Settles O45: both pipelines consist of pairs, and the shorter one is no longer than either. -/
theorem hybEncLength : Obligations.HybEncLength := by
  intro p x
  have hmin := hybEnc_length p x
  have hB := pipeB_length p x
  have hBle := pipeB_length_le p x
  have hrle := rleEnc_length x
  exact ⟨pipeA_length p x, hB, hBle, hmin, by omega, by omega, by omega⟩

/-! ### Which pipeline is returned -/

theorem hybEnc_eq_pipeA {p : Params} {x : Block} (h : (pipeA p x).length ≤ (pipeB p x).length) :
    hybEnc p x = pipeA p x :=
  if_pos h

/-- R175: where the codes keep different neighbours apart, pipeline (b) is not shorter. -/
theorem pipeA_length_le_of_runsRefine {p : Params} {x : Block} (h : RunsRefine x (dictEnc p x)) :
    (pipeA p x).length ≤ (pipeB p x).length := by
  rw [pipeA_length, rleEnc_length, pipeB_length]
  exact Nat.mul_le_mul_left 2 (pairCount_le_of_runsRefine (dictEnc_length p x).symm h)

/-- R175: on a 7-bit block pipeline (b) is not shorter. -/
theorem pipeA_length_le_of_sevenBit {p : Params} {x : Block} (hx : SevenBit x) :
    (pipeA p x).length ≤ (pipeB p x).length :=
  pipeA_length_le_of_runsRefine (runsRefine_dictEnc p hx)

/-- Settles O46: a shorter pipeline (b) means that the codes do not keep all different neighbours apart, which on a
7-bit block they do. -/
theorem pipelineBNeedsMergedCodes : Obligations.PipelineBNeedsMergedCodes := by
  intro p x _
  refine ⟨fun hlt => ⟨?merged, fun hx => ?sevenBit⟩, fun hx => hybEnc_eq_pipeA (pipeA_length_le_of_sevenBit hx)⟩
  case merged =>
    by_contra hnone
    refine absurd (pipeA_length_le_of_runsRefine fun i c hc hc' => ?_) hlt.not_ge
    have ha := List.getElem?_eq_getElem (lt_length_of_getElem?_dictEnc hc)
    have hb := List.getElem?_eq_getElem (lt_length_of_getElem?_dictEnc hc')
    by_contra hne
    exact hnone ⟨i, _, _, c, ha, hb, fun heq => hne (by rw [ha, hb, heq]), hc, hc'⟩
  case sevenBit => exact absurd (pipeA_length_le_of_sevenBit hx) hlt.not_ge

end Sys2Proof.Proofs
end

section
/-! The hybrid round trip (R181): on a 7-bit block whose runs are at most 127 long the RLE stream is 7-bit too, so that
attempt (a) gives it back. -/

namespace Sys2Proof.Proofs

open Sys2Proof.Machine Sys2Proof.Safety

/-- R176: attempt (a) decodes. -/
theorem hybDec_of_ok {p : Params} {y t : Block} (h : dictDec p y = .ok t) : hybDec p y = .ok (rleDec t) := by
  simp [hybDec, h]

/-- R176: attempt (a) raises and attempt (b) decodes. -/
theorem hybDec_of_raised_of_ok {p : Params} {y out : Block} {a : Cause} (ha : dictDec p y = .raised a)
    (hb : dictDec p (rleDec y) = .ok out) : hybDec p y = .ok out := by
  simp [hybDec, ha, hb]

/-- R176, R180: both attempts raise. -/
theorem hybDec_of_raised_of_raised {p : Params} {y : Block} {a b : Cause} (ha : dictDec p y = .raised a)
    (hb : dictDec p (rleDec y) = .raised b) : hybDec p y = .failed a b := by
  simp [hybDec, ha, hb]

/-- R181: the runs of a part of a block are no longer than those of the block. -/
theorem runsAtMost_of_part {k : Nat} {x y : Block} (h : RunsAtMost k x) (hy : y <:+: x) : RunsAtMost k y :=
  fun v hv => h v (hv.trans hy)

theorem le_of_runsAtMost_replicate {k n : Nat} {v : Byte} (h : RunsAtMost k (List.replicate n v)) : n ≤ k := by
  by_contra hlt
  exact h v ⟨[], List.replicate (n - (k + 1)) v, by simp; omega⟩

/-- R181: the values of the pairs are 7-bit with the block, and the lengths with its runs. -/
theorem sevenBit_rleEnc {x : Block} (hx : SevenBit x) (hruns : RunsAtMost 127 x) : SevenBit (rleEnc x) := by
  induction x using block_run_induction with
  | nil => nofun
  | run v n rest h1 hstop ih =>
    have hn : n ≤ 127 := le_of_runsAtMost_replicate (runsAtMost_of_part hruns ⟨[], rest, rfl⟩)
    have hv : v.toNat < 128 := hx v (by simp; omega)
    have hrest : SevenBit (rleEnc rest) :=
      ih (fun b hb => hx b (List.mem_append_right _ hb)) (runsAtMost_of_part hruns ⟨List.replicate n v, [], by simp⟩)
    have hcount : n % 256 < 128 := by omega
    rw [rleEnc_replicate_append h1 (by omega) (.inr hstop)]
    simpa [SevenBit, hv, hcount] using hrest

/-- Settles O48: `HYB.ENC` returns pipeline (a), whose dictionary stage attempt (a) undoes on the 7-bit RLE stream. -/
theorem hybRoundTrip : Obligations.HybRoundTrip := by
  intro p x hl hx hruns
  obtain ⟨hlossless, -⟩ := dictLosslessIffSevenBit p (rleEnc x) hl
  rw [hybEnc_eq_pipeA (pipeA_length_le_of_sevenBit hx), pipeA,
    hybDec_of_ok (hlossless.mpr (sevenBit_rleEnc hx hruns)), rleDec_rleEnc]

end Sys2Proof.Proofs
end

section
/-! The payloads of pipeline (b) (R182): they begin with a literal and a run length of 1 or 2, which attempt (a) reads
as an index while one slot is in use. -/

namespace Sys2Proof.Proofs

open Sys2Proof.Machine Sys2Proof.Safety

/-- R80: the bytes with a given literal code: the code itself and its value. -/
theorem eq_or_eq_of_literalCode_eq {b e : Byte} (h : literalCode b = e) : b = e ∨ b = literalValue e := by
  subst h
  revert b; decide

/-- R145: an entry of a table of at most 128 slots does not get a literal. -/
theorem notMem_of_dictEncSymbol_ge (p : Params) {table : Block} {b : Byte} (hlen : table.length ≤ 128)
    (h : 128 ≤ (dictEncSymbol p table b).1.toNat) : b ∉ table := by
  intro hb
  cases hi : lookup b table with
  | none => exact lookup_eq_none_iff.mp hi hb
  | some i =>
    have hlt := lookup_lt_length hi
    obtain ⟨htoNat, -⟩ := indexCode_of_lt (show i < 128 by omega)
    rw [dictEncSymbol_of_lookup p hi, htoNat] at h
    omega

/-- R145: a byte whose code is a literal is new to the table and one of the two bytes of that code. -/
theorem of_dictEncSymbol_eq_literalCode (p : Params) {table : Block} {a b : Byte} (hlen : table.length ≤ 128)
    (h : (dictEncSymbol p table b).1 = literalCode a) :
    b ∉ table ∧ (b = literalCode a ∨ b = literalValue (literalCode a)) := by
  have hb : b ∉ table := notMem_of_dictEncSymbol_ge p hlen (h ▸ literalCode_ge a)
  rw [dictEncSymbol_of_notMem p hb] at h
  exact ⟨hb, eq_or_eq_of_literalCode_eq h⟩

/-- R143: an append that leaves a slot clears nothing. -/
theorem append_of_room {p : Params} {table : Block} (h : table.length + 2 ≤ p.dictCap) (v : Byte) :
    append p v table = table ++ [v] :=
  append_of_tableFits ⟨by simp; omega, fun _ => by simp; omega⟩

/-- R182: a table that holds both bytes of a literal code ends the run of that code. -/
theorem runAhead_dictEncFrom_eq_zero (p : Params) {a b : Byte} (hab : b ≠ a) (hb : literalCode b = literalCode a)
    (limit : Nat) (x : Block) : runAhead (literalCode a) limit (dictEncFrom p [a, b] x) = 0 := by
  cases limit with
  | zero => rfl
  | succ limit =>
    cases x with
    | nil => simp [dictEncFrom]
    | cons c cs =>
      rw [dictEncFrom, runAhead_succ_cons, if_neg]
      intro hc
      obtain ⟨hnew, hc⟩ := of_dictEncSymbol_eq_literalCode p (by simp) hc
      obtain ⟨hca, hcb⟩ : c ≠ a ∧ c ≠ b := by simpa using hnew
      have ha := eq_or_eq_of_literalCode_eq (rfl : literalCode a = _)
      have hb := eq_or_eq_of_literalCode_eq hb
      grind

/-- R182: the code of the first byte is repeated at most once, by the one other byte with that code. -/
theorem runAhead_dictEncFrom_le_one {p : Params} (h3 : 3 ≤ p.dictCap) (a : Byte) (limit : Nat) (x : Block) :
    runAhead (literalCode a) limit (dictEncFrom p [a] x) ≤ 1 := by
  cases limit with
  | zero => simp
  | succ limit =>
    cases x with
    | nil => simp [dictEncFrom]
    | cons b bs =>
      rw [dictEncFrom, runAhead_succ_cons]
      split
      next hb =>
        obtain ⟨hnew, -⟩ := of_dictEncSymbol_eq_literalCode p (by simp) hb
        have htable : append p b [a] = [a, b] := append_of_room (by simpa using h3) b
        rw [dictEncSymbol_of_notMem p hnew] at hb ⊢
        rw [htable, runAhead_dictEncFrom_eq_zero p (by simpa using hnew) hb]
      next => exact Nat.zero_le 1

/-- R182: the payload begins with the literal of the first byte and the length 1 or 2. -/
theorem exists_pipeB_eq_cons_cons {p : Params} (h3 : 3 ≤ p.dictCap) (a : Byte) (x : Block) :
    ∃ (e : Byte) (rest : Block), pipeB p (a :: x) = literalCode a :: e :: rest ∧ (e = 1 ∨ e = 2) := by
  have hle := runAhead_dictEncFrom_le_one h3 a 254 x
  have htable : append p a [] = [a] := append_of_room (by simp; omega) a
  refine ⟨_, _, by rw [pipeB, dictEnc, dictEncFrom, dictEncSymbol_of_notMem p List.not_mem_nil, htable, rleEnc_cons],
    ?_⟩
  rcases Nat.le_one_iff_eq_zero_or_eq_one.mp hle with h | h <;> rw [h]
  · exact .inl rfl
  · exact .inr rfl

/-- R150: after one literal an index from 1 on fails at position 1. -/
theorem dictDec_literal_cons_of_index {p : Params} (h3 : 3 ≤ p.dictCap) {l e : Byte} (hl : isLiteral l = true)
    (h1 : 1 ≤ e.toNat) (h128 : e.toNat < 128) (rest : Block) : dictDec p (l :: e :: rest) = .raised ⟨2, 1, e, 1⟩ := by
  have htable : append p (literalValue l) [] = [literalValue l] := append_of_room (by simp; omega) _
  have hfirst : dictDecSymbol p [] l = some (literalValue l, [literalValue l]) := by
    simp [dictDecSymbol, hl, htable]
  have hsecond : dictDecSymbol p [literalValue l] e = none := dictDecSymbol_eq_none_iff.mpr ⟨h128, by simpa using h1⟩
  rw [dictDec, dictDecFrom_cons_of_some hfirst, dictDecFrom_cons_of_none hsecond]
  rfl

/-- Settles O49: attempt (a) reads the first run length as an index, and attempt (b) starts with the RLE stage. -/
theorem pipelineBPayloadFailsAttemptA : Obligations.PipelineBPayloadFailsAttemptA := by
  intro p x _ h3 hx
  refine ⟨?fails, rleDec_rleEnc (dictEnc p x)⟩
  obtain ⟨a, xs, rfl⟩ := List.exists_cons_of_ne_nil hx
  obtain ⟨e, rest, hpayload, he⟩ := exists_pipeB_eq_cons_cons h3 a xs
  have hl : isLiteral (literalCode a) = true := (isLiteral_iff _).mpr (literalCode_ge a)
  rw [hpayload]
  rcases he with rfl | rfl
  · exact .inl (dictDec_literal_cons_of_index h3 hl (by decide) (by decide) rest)
  · exact .inr (dictDec_literal_cons_of_index h3 hl (by decide) (by decide) rest)

end Sys2Proof.Proofs
end

section
/-! The commands `HYB.ENC` and `HYB.DEC` (R171, R176, R180, R234): what they complete with and how they fail. -/

namespace Sys2Proof.Proofs

open Sys2Proof.Machine Sys2Proof.Safety

/-- R64, R171: `HYB.ENC` completes when the four streams of its pipelines fit; two of them are as long as others. -/
theorem hybEnc_completes {s : State} (hs : Ready s) (hin : fitsOut s.cfg s.inBuf = true)
    (hrle : fitsOut s.cfg (rleEnc s.inBuf) = true) (hpipeB : fitsOut s.cfg (pipeB s.cfg s.inBuf) = true) :
    CompletesWith .hybEnc s (hybEnc s.cfg s.inBuf) := by
  refine completesWith_of_output hs nofun (bounded_of_fits ?_)
  simp only [hybEncLengths, pipeA_length, dictEnc_length, List.forall_mem_cons, List.not_mem_nil]
  exact ⟨hrle, hrle, hin, hpipeB, nofun⟩

/-- Settles O44. -/
theorem hybEncKeepsTheNotLonger : Obligations.HybEncKeepsTheNotLonger :=
  ⟨rfl, fun _ hs hin hrle hpipeB => hybEnc_completes hs hin hrle hpipeB,
    fun _ hl hv => failsWith_invalidInput nofun hl hv⟩

/-- R64: a limit that a number keeps is kept by every smaller one. -/
theorem atMost_of_le {limit : Option Nat} {m n : Nat} (hn : atMost limit n = true) (hmn : m ≤ n) :
    atMost limit m = true := by
  cases limit with
  | none => rfl
  | some k =>
    simp only [atMost, decide_eq_true_eq] at hn ⊢
    omega

/-- R64: a dictionary decode writes at most one byte for each code. -/
theorem dictDec_written_le (p : Params) (y : Block) : (dictDec p y).written ≤ y.length := by
  cases hd : dictDec p y with
  | ok out => exact (dictDec_ok_length hd).le
  | raised c =>
    obtain ⟨pre, e, post, table, out, rfl, -, -, -, rfl⟩ :=
      dictDecMachine_eq_raised_iff.mp (dictDec_eq_raised_iff.mp hd)
    simp [Decoded.written]

/-- R64, R177: the streams of `HYB.DEC` fit when attempt (a) decodes and its two streams fit. -/
theorem hybDecLengths_fit_of_ok {p : Params} {y t : Block} (h : dictDec p y = .ok t) (ht : fitsOut p t = true)
    (hout : fitsOut p (rleDec t) = true) : ∀ n ∈ hybDecLengths p y, atMost p.mMax n = true := by
  rw [hybDecLengths_of_ok h]
  simp only [List.forall_mem_cons, List.not_mem_nil]
  exact ⟨ht, hout, nofun⟩

/-- R64, R177: the streams of `HYB.DEC` fit when attempt (a) raises, what it had written fits and the RLE stage of
attempt (b) fits. -/
theorem hybDecLengths_fit_of_raised {p : Params} {y : Block} {a : Cause} (h : dictDec p y = .raised a)
    (hpos : atMost p.mMax a.pos = true) (hrle : fitsOut p (rleDec y) = true) :
    ∀ n ∈ hybDecLengths p y, atMost p.mMax n = true := by
  rw [hybDecLengths_of_raised h]
  simp only [List.forall_mem_cons, List.not_mem_nil]
  exact ⟨hpos, hrle, atMost_of_le hrle (dictDec_written_le p _), nofun⟩

/-- R176: `HYB.DEC` completes with what the arbiter gives. -/
theorem hybDec_completes {s : State} {out : Block} (hs : Ready s) (hd : hybDec s.cfg s.inBuf = .ok out)
    (hfit : ∀ n ∈ hybDecLengths s.cfg s.inBuf, atMost s.cfg.mMax n = true) : CompletesWith .hybDec s out := by
  refine completesWith_of_output hs nofun ((bounded_of_fits hfit).trans ?_)
  rw [hd]

/-- R180, R234: `HYB.DEC` fails with both causes when the arbiter does. -/
theorem hybDec_fails {s : State} {a b : Cause} (hs : Ready s) (hd : hybDec s.cfg s.inBuf = .failed a b)
    (hfit : ∀ n ∈ hybDecLengths s.cfg s.inBuf, atMost s.cfg.mMax n = true) : FailsWith .hybDec s 3 a b := by
  refine failsWith_of_failed (k := .hybridDecodeFailure) hs nofun ((bounded_of_fits hfit).trans ?_)
  rw [hd]

/-- Settles O47: one clause for each outcome of the arbiter, whose streams fit. -/
theorem hybDecTriesBothOrders : Obligations.HybDecTriesBothOrders :=
  ⟨rfl,
    fun _ hs _ hd ht hout => hybDec_completes hs (hybDec_of_ok hd) (hybDecLengths_fit_of_ok hd ht hout),
    fun _ hs _ _ ha hpos hrle hb =>
      hybDec_completes hs (hybDec_of_raised_of_ok ha hb) (hybDecLengths_fit_of_raised ha hpos hrle),
    fun _ hs _ _ ha hpos hrle hb =>
      hybDec_fails hs (hybDec_of_raised_of_raised ha hb) (hybDecLengths_fit_of_raised ha hpos hrle),
    fun _ hl hv => failsWith_invalidInput nofun hl hv⟩

end Sys2Proof.Proofs
end

section
/-! The winner of `COMPRESS` (R198, R201, R204): the first of the least candidates, and which of RAW, RLE and HYBRID it
is. -/

namespace Sys2Proof.Proofs

open Sys2Proof.Machine Sys2Proof.Safety

/-! ### The first of the least -/

/-- R201: the running best is the first of the least among the first best and the candidates it met: strictly shorter
than those before it and not longer than those after it. -/
theorem foldl_keepSmaller_first_least (best : Choice) (cs : List Choice) : ∃ before after,
    best :: cs = before ++ cs.foldl keepSmaller best :: after ∧
    (∀ c ∈ before, (cs.foldl keepSmaller best).payload.length < c.payload.length) ∧
    ∀ c ∈ after, (cs.foldl keepSmaller best).payload.length ≤ c.payload.length := by
  induction cs using List.reverseRecOn with
  | nil => exact ⟨[], [], rfl, nofun, nofun⟩
  | append_singleton cs d ih =>
    obtain ⟨before, after, hsplit, hbefore, hafter⟩ := ih
    rw [List.foldl_append, List.foldl_cons, List.foldl_nil]
    generalize cs.foldl keepSmaller best = w at hsplit hbefore hafter ⊢
    rcases keepSmaller_cases w d with ⟨hlt, e⟩ | ⟨hle, e⟩ <;> rw [e]
    · refine ⟨before ++ w :: after, [], by simp [← hsplit], fun c hc => ?_, nofun⟩
      rcases List.mem_append.mp hc with hc | hc
      · exact hlt.trans (hbefore c hc)
      · rcases List.mem_cons.mp hc with rfl | hc
        · exact hlt
        · exact hlt.trans_le (hafter c hc)
    · refine ⟨before, after ++ [d], by rw [← List.cons_append, hsplit]; simp, hbefore, fun c hc => ?_⟩
      rcases List.mem_append.mp hc with hc | hc
      · exact hafter c hc
      · rwa [List.mem_singleton.mp hc]

/-- Settles O52: RAW is the first best, and the running best is the first of the least. -/
theorem winnerIsFirstSmallest : Obligations.WinnerIsFirstSmallest :=
  ⟨fun p hyb gate x => by simp [candidates, laterCandidates], fun p hyb gate x =>
    foldl_keepSmaller_first_least ⟨.raw, x⟩ (laterCandidates p hyb gate x)⟩

/-! ### RAW, RLE or HYBRID -/

/-- R203: the candidates that can replace the best are RLE's and, when asked for, HYBRID's. -/
theorem select_eq_keepSmaller (p : Params) (hyb gate : Bool) (x : Block) : select p hyb gate x =
    if hyb then keepSmaller (keepSmaller ⟨.raw, x⟩ ⟨.rle, rleEnc x⟩) ⟨.hybrid, hybEnc p x⟩
    else keepSmaller ⟨.raw, x⟩ ⟨.rle, rleEnc x⟩ := by
  have hdict : keepSmaller (keepSmaller ⟨.raw, x⟩ ⟨.rle, rleEnc x⟩) ⟨.dict, dictEnc p x⟩ =
      keepSmaller ⟨.raw, x⟩ ⟨.rle, rleEnc x⟩ :=
    keepSmaller_of_le ((foldl_keepSmaller_length_le ⟨.raw, x⟩ [⟨.rle, rleEnc x⟩]).trans (by simp))
  rw [select_eq_of_gate_closed]
  cases hyb <;> simp [select, laterCandidates, hdict]

/-- R204: the three winners and when each wins. -/
theorem select_cases (p : Params) (hyb gate : Bool) (x : Block) :
    (select p hyb gate x = ⟨.hybrid, hybEnc p x⟩ ∧ hyb = true ∧ (hybEnc p x).length < x.length ∧
      (hybEnc p x).length < (rleEnc x).length) ∨
    (select p hyb gate x = ⟨.rle, rleEnc x⟩ ∧ (rleEnc x).length < x.length ∧
      (hyb = true → (rleEnc x).length ≤ (hybEnc p x).length)) ∨
    (select p hyb gate x = ⟨.raw, x⟩ ∧ x.length ≤ (rleEnc x).length ∧
      (hyb = true → x.length ≤ (hybEnc p x).length)) := by
  rw [select_eq_keepSmaller]
  rcases keepSmaller_cases ⟨.raw, x⟩ ⟨.rle, rleEnc x⟩ with ⟨hrle, e⟩ | ⟨hrle, e⟩ <;> rw [e]
  case inl =>
    cases hyb with
    | false => exact .inr (.inl ⟨rfl, hrle, nofun⟩)
    | true =>
      rcases keepSmaller_cases ⟨.rle, rleEnc x⟩ ⟨.hybrid, hybEnc p x⟩ with ⟨hhyb, e⟩ | ⟨hhyb, e⟩
      · exact .inl ⟨e, rfl, hhyb.trans hrle, hhyb⟩
      · exact .inr (.inl ⟨e, hrle, fun _ => hhyb⟩)
  case inr =>
    cases hyb with
    | false => exact .inr (.inr ⟨rfl, hrle, nofun⟩)
    | true =>
      rcases keepSmaller_cases ⟨.raw, x⟩ ⟨.hybrid, hybEnc p x⟩ with ⟨hhyb, e⟩ | ⟨hhyb, e⟩
      · exact .inl ⟨e, rfl, hhyb, hhyb.trans_le hrle⟩
      · exact .inr (.inr ⟨e, hrle, fun _ => hhyb⟩)

/-- R173, R174: a hybrid payload shorter than the plain RLE coding is pipeline (b)'s, shorter than pipeline (a)'s. -/
theorem pipeB_of_hybEnc_length_lt {p : Params} {x : Block} (h : (hybEnc p x).length < (rleEnc x).length) :
    hybEnc p x = pipeB p x ∧ (pipeB p x).length < (pipeA p x).length := by
  have hmin := hybEnc_length p x
  have hlt : (pipeB p x).length < (pipeA p x).length := by
    rw [pipeA_length]
    omega
  exact ⟨if_neg hlt.not_ge, hlt⟩

/-- R204: HYBRID wins by pipeline (b), and on no 7-bit block. -/
theorem select_hybrid {p : Params} {hyb gate : Bool} {x : Block} (h : (select p hyb gate x).strategy = .hybrid) :
    select p hyb gate x = ⟨.hybrid, pipeB p x⟩ ∧ (pipeB p x).length < x.length ∧
      (pipeB p x).length < (rleEnc x).length ∧ ¬ SevenBit x := by
  rcases select_cases p hyb gate x with ⟨e, -, hraw, hrle⟩ | ⟨e, -⟩ | ⟨e, -⟩
  · obtain ⟨hpayload, hlt⟩ := pipeB_of_hybEnc_length_lt hrle
    rw [hpayload] at e hraw hrle
    exact ⟨e, hraw, hrle, fun hx => hlt.not_ge (pipeA_length_le_of_sevenBit hx)⟩
  · simp [e] at h
  · simp [e] at h

/-- Settles O55: the three cases of the winner exclude each other. -/
theorem whichStrategyWins : Obligations.WhichStrategyWins := by
  intro p hyb gate x _
  have hpayload : (select p hyb gate x).strategy = .hybrid → (select p hyb gate x).payload = pipeB p x ∧
      (pipeB p x).length < x.length ∧ (pipeB p x).length < (rleEnc x).length ∧ ¬ SevenBit x := fun h => by
    obtain ⟨e, hlengths⟩ := select_hybrid h
    exact ⟨by rw [e], hlengths⟩
  rcases select_cases p hyb gate x with ⟨e, hh, hraw, hrle⟩ | ⟨e, hrle, hhyb⟩ | ⟨e, hrle, hhyb⟩ <;>
    refine ⟨?_, ?_, ?_, hpayload⟩ <;> rw [e]
  · exact iff_of_true rfl ⟨hh, hraw, hrle⟩
  · exact iff_of_false nofun fun ⟨_, hnot⟩ => hnot ⟨hh, hrle⟩
  · exact iff_of_false nofun fun ⟨_, hnot⟩ => hnot ⟨hh, hraw⟩
  · exact iff_of_false nofun fun ⟨hh, _, hlt⟩ => (hhyb hh).not_gt hlt
  · exact iff_of_true rfl ⟨hrle, fun ⟨hh, hlt⟩ => (hhyb hh).not_gt hlt⟩
  · exact iff_of_false nofun fun ⟨hle, _⟩ => hle.not_gt hrle
  · exact iff_of_false nofun fun ⟨hh, hlt, _⟩ => (hhyb hh).not_gt hlt
  · exact iff_of_false nofun fun ⟨hlt, _⟩ => hrle.not_gt hlt
  · exact iff_of_true rfl ⟨hrle, fun ⟨hh, hlt⟩ => (hhyb hh).not_gt hlt⟩

end Sys2Proof.Proofs
end

section
/-! `COMPRESS` as a command (R198, R202, R205): the streams it counts, the record it completes with, and what cannot
change it. -/

namespace Sys2Proof.Proofs

open Sys2Proof.Machine Sys2Proof.Safety

/-- R64, R174: every stream that `COMPRESS` counts is as long as RAW, the RLE coding or, for HYBRID, pipeline (b). -/
theorem of_mem_compressLengths {p : Params} {hyb gate : Bool} {x : Block} {n : Nat}
    (hn : n ∈ compressLengths p hyb gate x) :
    n = x.length ∨ n = (rleEnc x).length ∨ (hyb = true ∧ n = (pipeB p x).length) := by
  rcases List.mem_append.mp hn with hn | hn
  · obtain ⟨c, hc, rfl⟩ := List.mem_map.mp hn
    simp only [candidates, laterCandidates, List.mem_cons, List.mem_append, List.mem_ite_nil_right, List.not_mem_nil,
      or_false] at hc
    obtain rfl | ((rfl | ⟨-, rfl⟩) | rfl) | ⟨hh, rfl⟩ := hc
    · exact .inl rfl
    · exact .inr (.inl rfl)
    · exact .inl (deltaEnc_length _ x)
    · exact .inl (dictEnc_length p x)
    · rw [hybEnc_length]
      exact .inr ((min_choice _ _).imp_right fun hmin => ⟨hh, hmin⟩)
  · simp only [hybEncLengths, pipeA_length, dictEnc_length, List.mem_cons, List.mem_ite_nil_right, List.not_mem_nil,
      or_false] at hn
    obtain ⟨hh, rfl | rfl | rfl | rfl⟩ := hn
    · exact .inr (.inl rfl)
    · exact .inr (.inl rfl)
    · exact .inl rfl
    · exact .inr (.inr ⟨hh, rfl⟩)

/-- R64: the streams that `COMPRESS` counts fit when RAW, the RLE coding and, for HYBRID, pipeline (b) do. -/
theorem compressLengths_fit {p : Params} {hyb gate : Bool} {x : Block} (hraw : fitsOut p x = true)
    (hrle : fitsOut p (rleEnc x) = true) (hpipeB : hyb = true → fitsOut p (pipeB p x) = true) :
    ∀ n ∈ compressLengths p hyb gate x, atMost p.mMax n = true := by
  intro n hn
  rcases of_mem_compressLengths hn with rfl | rfl | ⟨hh, rfl⟩
  · exact hraw
  · exact hrle
  · exact hpipeB hh

/-- R202: on a loaded block a command whose function gives a record of the block completes with it. -/
theorem completesWithRecord_of_record {i : Instr} {s : State} {k : Strategy} {payload : Block} (hs : Ready s)
    (hi : i ≠ .decompress) (hf : resultFn i s s.inBuf = .record k s.inBuf.length payload) :
    CompletesWithRecord i s (tagOf k) payload := by
  obtain ⟨hl, hv⟩ := hs
  refine ⟨(discardCallScoped s).callScoped, (discardCallScoped s).draws, ?_⟩
  rw [exec_eq_runCommand fun e => absurd e hi, runCommand_loaded hl hv, hf]
  rfl

/-- Settles O51: with every stream within `M_MAX`, the function of `COMPRESS` gives the record of the winner. -/
theorem compressWritesTheRecord : Obligations.CompressWritesTheRecord :=
  ⟨by decide,
    fun _ _ _ hs hraw hrle hpipeB =>
      completesWithRecord_of_record hs nofun (bounded_of_fits (compressLengths_fit hraw hrle hpipeB)),
    fun _ _ _ hl hv => failsWith_invalidInput nofun hl hv⟩

/-- Settles O56: the winner and the refusal are those of a closed gate, and `acc` reaches no arm of the meaning. -/
theorem gateAndAccelerationAreIrrelevant : Obligations.GateAndAccelerationAreIrrelevant :=
  ⟨fun p hyb x => ⟨select_eq_of_gate_closed p hyb true x, compressResult_eq_of_gate_closed p hyb true x⟩,
    fun _ _ _ _ => rfl, fun _ _ _ _ _ => answerOf_exec_congr rfl rfl rfl nofun⟩

end Sys2Proof.Proofs
end

section
/-! `RAW.ENC` and `RAW.DEC` (R190, R191), and `DECOMPRESS` as the codec command that its tag names (R210, R214). -/

namespace Sys2Proof.Proofs

open Sys2Proof.Machine Sys2Proof.Safety

/-! ### RAW -/

theorem rawEnc_completes {s : State} (hs : Ready s) (hfit : fitsOut s.cfg s.inBuf = true) :
    CompletesWith .rawEnc s s.inBuf :=
  completesWith_of_fitsOut hs nofun rfl hfit

theorem rawDec_completes {s : State} (hs : Ready s) (hfit : fitsOut s.cfg s.inBuf = true) :
    CompletesWith .rawDec s s.inBuf :=
  completesWith_of_fitsOut hs nofun rfl hfit

/-- Settles O21. -/
theorem rawCommandsAreIdentity : Obligations.RawCommandsAreIdentity :=
  ⟨rfl, rfl, fun _ hs hfit => ⟨rawEnc_completes hs hfit, rawDec_completes hs hfit⟩,
    fun _ hl hv => ⟨failsWith_invalidInput nofun hl hv, failsWith_invalidInput nofun hl hv⟩⟩

/-! ### The command of a tag -/

/-- R214: the codec command that decodes a strategy's payload. -/
def decoderCommand : Strategy → Instr
  | .raw => .rawDec
  | .rle => .rleDec
  | .dict => .dictDec
  | .delta => .deltaDec
  | .hybrid => .hybDec

/-- R214: its word is `0x08 | t`. -/
theorem decode_or_tagOf (k : Strategy) :
    decode (0x08 ||| BitVec.ofNat 8 (tagOf k)) = .command (decoderCommand k) := by
  cases k <;> rfl

/-- R71: the tags up to 4 are those of the strategies. -/
theorem exists_tagOf_eq {t : Nat} (h : t ≤ 4) : ∃ k, t = tagOf k :=
  match t, h with
  | 0, _ => ⟨.raw, rfl⟩
  | 1, _ => ⟨.rle, rfl⟩
  | 2, _ => ⟨.dict, rfl⟩
  | 3, _ => ⟨.delta, rfl⟩
  | 4, _ => ⟨.hybrid, rfl⟩

/-- R210: with the tag of a strategy, `DECOMPRESS` runs the function of that strategy's decoder. -/
theorem resultFn_decompress_of_tag {s : State} {k : Strategy} (h : s.recStrategy = tagOf k) :
    resultFn .decompress s = resultFn (decoderCommand k) s := by
  have hk : strategyOperand s = some k := by rw [strategyOperand, h, strategyOf_tagOf]
  rw [resultFn, hk]
  cases k <;> rfl

/-- R214: with the tag of a strategy, `DECOMPRESS` is the command of that strategy's decoder. -/
theorem exec_decompress_of_tag {s : State} {k : Strategy} (h : s.recStrategy = tagOf k) :
    exec .decompress s = exec (decoderCommand k) s := by
  have hne : decoderCommand k ≠ .decompress := by cases k <;> nofun
  rw [exec_eq_runCommand fun _ => h ▸ tagOf_le k, exec_eq_runCommand fun e => absurd e hne,
    resultFn_decompress_of_tag h]

theorem completesWith_decompress {s : State} {k : Strategy} {out : Block} (h : s.recStrategy = tagOf k)
    (hc : CompletesWith (decoderCommand k) s out) : CompletesWith .decompress s out := by
  rwa [CompletesWith, exec_decompress_of_tag h]

theorem failsWith_decompress {s : State} {k : Strategy} {e : Byte} {a b : Cause} (h : s.recStrategy = tagOf k)
    (hc : FailsWith (decoderCommand k) s e a b) : FailsWith .decompress s e a b := by
  rwa [FailsWith, exec_decompress_of_tag h]

/-- Settles O59: the command of each tag completes with its decoder's value. -/
theorem decompressDispatches : Obligations.DecompressDispatches :=
  ⟨rfl, fun s hs => ⟨
    fun ht hfit => completesWith_decompress (k := .raw) ht (rawDec_completes hs hfit),
    fun ht hfit => completesWith_decompress (k := .rle) ht (rleDec_completes hs hfit),
    fun ht hfit _ hd => completesWith_decompress (k := .dict) ht (dictDec_completes hs hd hfit),
    fun ht hfit => completesWith_decompress (k := .delta) ht (deltaDec_completes hs hfit),
    fun ht hunbounded _ hd => completesWith_decompress (k := .hybrid) ht
      (hybDec_completes hs hd fun _ _ => by rw [hunbounded]; rfl)⟩⟩

/-! ### The errors that a command's function raises -/

/-- R64: a bounded answer that is an error is the error given. -/
theorem bounded_eq_failed {p : Params} {lengths : List Nat} {r : CommandResult} {k : ErrorKind} {a b : Cause}
    (h : bounded p lengths r = .failed k a b) : r = .failed k a b := by
  rcases bounded_eq p lengths r with ⟨e, -⟩ | ⟨e, -⟩ <;> rw [e] at h
  · exact h
  · cases h

/-- R233, R234: a decoder raises `InvalidDictionaryIndex` or `HybridDecodeFailure`. -/
theorem decoderResult_failed {p : Params} {d : Strategy} {y : Block} {k : ErrorKind} {a b : Cause}
    (h : decoderResult p d y = .failed k a b) : k = .invalidDictionaryIndex ∨ k = .hybridDecodeFailure := by
  cases d with
  | raw | rle | delta => cases bounded_eq_failed h
  | dict =>
    have := bounded_eq_failed h
    split at this <;> cases this
    exact .inl rfl
  | hybrid =>
    have := bounded_eq_failed h
    split at this <;> cases this
    exact .inr rfl

/-- R231: the function of a command raises no other error than its decoder. -/
theorem resultFn_failed {i : Instr} {s : State} {x : Block} {k : ErrorKind} {a b : Cause}
    (h : resultFn i s x = .failed k a b) : k = .invalidDictionaryIndex ∨ k = .hybridDecodeFailure := by
  cases i with
  | rawEnc | rleEnc | dictEnc | deltaEnc | hybEnc | compress hyb acc => cases bounded_eq_failed h
  | rawDec => exact decoderResult_failed (d := .raw) h
  | rleDec => exact decoderResult_failed (d := .rle) h
  | dictDec => exact decoderResult_failed (d := .dict) h
  | deltaDec => exact decoderResult_failed (d := .delta) h
  | hybDec => exact decoderResult_failed (d := .hybrid) h
  | decompress => exact decoderResult_failed h

/-- R235: `UnknownStrategy` is raised by `DECOMPRESS` alone, before any function runs. -/
theorem err_ne_unknownStrategy {i : Instr} {s t : State} (hi : i ≠ .decompress) (h : exec i s = .next t) :
    t.err ≠ errorCode .unknownStrategy := by
  obtain ⟨-, ⟨rfl, -⟩ | ⟨-, -, rfl⟩ | ⟨-, -, hf⟩⟩ := exec_next h
  · exact absurd rfl hi
  · simp [errorCode]
  · rcases finish_next hf with ⟨out, -, rfl⟩ | ⟨k, orig, payload, -, rfl⟩ | ⟨k, a, b, hr, rfl⟩
    · simp [errorCode]
    · simp [errorCode]
    · rw [errorEntry_err]
      rcases resultFn_failed hr with rfl | rfl <;> decide

/-- Settles O60: the word of a tag is that of its strategy's decoder. -/
theorem decompressEqualsCodecCommand : Obligations.DecompressEqualsCodecCommand := by
  refine ⟨fun s i ht hi => ?_, fun s t i hi h => err_ne_unknownStrategy hi h⟩
  obtain ⟨k, hk⟩ := exists_tagOf_eq ht
  rw [hk, decode_or_tagOf] at hi
  cases hi
  exact exec_decompress_of_tag hk

end Sys2Proof.Proofs
end

section
/-! The record of `COMPRESS` given back to `DECOMPRESS` (R206, R207): RAW and RLE payloads decode to the block, a HYBRID
payload never does. -/

namespace Sys2Proof.Proofs

open Sys2Proof.Machine Sys2Proof.Safety

/-! ### A `COMPRESS` that is done -/

/-- R232: a `COMPRESS` that is done had a block to compress. -/
theorem ready_of_compress_done {hyb acc : Bool} {s t : State} (h : exec (.compress hyb acc) s = .next t)
    (hst : t.st = stDone) : Ready s := by
  obtain ⟨hl, ⟨hi, -⟩ | ⟨-, -, rfl⟩ | ⟨-, hv, -⟩⟩ := exec_next h
  · cases hi
  · simp [stDone, stError] at hst
  · exact ⟨hl, hv⟩

/-- R64: the block of a `COMPRESS` that is done fits `M_MAX`, since RAW is a candidate. -/
theorem fitsOut_of_compress_done {hyb acc : Bool} {s t : State} (h : exec (.compress hyb acc) s = .next t)
    (hst : t.st = stDone) : fitsOut s.cfg s.inBuf = true := by
  by_contra hlong
  have hraw : (⟨.raw, s.inBuf⟩ : Choice) ∈ candidates s.cfg hyb (gateOperand s) s.inBuf := List.mem_cons_self
  have hrefused := exec_compress_refused (acc := acc) (ready_of_compress_done h hst)
    (candidate_mem_compressLengths hraw) (Bool.not_eq_true _ ▸ hlong)
  rw [h] at hrefused
  cases hrefused

/-- R202: the tag of a `COMPRESS` that is done. -/
theorem recStrategy_of_compress_done {hyb acc : Bool} {s t : State} (h : exec (.compress hyb acc) s = .next t)
    (hst : t.st = stDone) : t.recStrategy = tagOf (select s.cfg hyb (gateOperand s) s.inBuf).strategy := by
  rw [exec_compress_done h hst, writeRecord_recStrategy]

/-- R202: the output of a `COMPRESS` that is done. -/
theorem outBuf_of_compress_done {hyb acc : Bool} {s t : State} (h : exec (.compress hyb acc) s = .next t)
    (hst : t.st = stDone) : t.outBuf = (select s.cfg hyb (gateOperand s) s.inBuf).payload := by
  rw [exec_compress_done h hst, writeRecord_outBuf, successExit_outBuf]

/-! ### The record moved to `IN` -/

/-- R207: a state whose record and input block are those of a winner, ready for `DECOMPRESS`. -/
structure HoldsRecord (p : Params) (w : Choice) (s : State) : Prop where
  ready : Ready s
  cfg : s.cfg = p
  tag : s.recStrategy = tagOf w.strategy
  payload : s.inBuf = w.payload

/-- R207: the state that `MOVE` makes of a `COMPRESS` that is done. -/
theorem holdsRecord_of_compress_done {hyb acc : Bool} {s t : State} (h : exec (.compress hyb acc) s = .next t)
    (hst : t.st = stDone) :
    HoldsRecord s.cfg (select s.cfg hyb (gateOperand s) s.inBuf) (loadBlock t.outBuf t) := by
  obtain ⟨hcfg, -⟩ := exec_keeps_operands h
  obtain ⟨hl, -⟩ := ready_of_compress_done h hst
  exact ⟨⟨by rwa [loadBlock_cfg, hcfg], rfl⟩, hcfg,
    (loadBlock_recStrategy _ t).trans (recStrategy_of_compress_done h hst), outBuf_of_compress_done h hst⟩

/-- R207: `DECOMPRESS` gives the block back. -/
def ComesBack (x : Block) (s : State) : Prop :=
  ∃ u, exec .decompress s = .next u ∧ u.st = 2 ∧ u.outBuf = x

theorem comesBack_of_completesWith {s : State} {x : Block} (h : CompletesWith .decompress s x) : ComesBack x s := by
  obtain ⟨u, hu, -, hst, hout⟩ := exists_next_of_completesWith h
  exact ⟨u, hu, hst, hout⟩

theorem comesBack_of_raw {p : Params} {x : Block} {s : State} (h : HoldsRecord p ⟨.raw, x⟩ s)
    (hx : fitsOut p x = true) : ComesBack x s := by
  obtain ⟨hs, rfl, htag, rfl⟩ := h
  exact comesBack_of_completesWith (completesWith_decompress htag (rawDec_completes hs hx))

theorem comesBack_of_rle {p : Params} {x : Block} {s : State} (h : HoldsRecord p ⟨.rle, rleEnc x⟩ s)
    (hx : fitsOut p x = true) : ComesBack x s := by
  obtain ⟨hs, rfl, htag, hpayload⟩ := h
  have hback : rleDec s.inBuf = x := by rw [hpayload, rleDec_rleEnc]
  have hc := rleDec_completes hs (hback ▸ hx)
  rw [hback] at hc
  exact comesBack_of_completesWith (completesWith_decompress htag hc)

/-- R206: `DECOMPRESS` raises `HybridDecodeFailure` or gives another block. -/
def NeverComesBack (x : Block) (s : State) : Prop :=
  ∃ u, exec .decompress s = .next u ∧ ((u.st = 3 ∧ u.err = 3) ∨ (u.st = 2 ∧ u.outBuf ≠ x))

theorem not_comesBack_of_neverComesBack {x : Block} {s : State} (h : NeverComesBack x s) : ¬ ComesBack x s := by
  rintro ⟨u, hu, hst, hout⟩
  obtain ⟨v, hv, ⟨hst', -⟩ | ⟨-, hout'⟩⟩ := h <;> rw [hu] at hv <;> cases hv
  · simp [hst] at hst'
  · exact hout' hout

/-- R206: attempt (a) fails on a payload of pipeline (b), and attempt (b) undoes the dictionary stage of a block that is
not 7-bit, which does not give the block. -/
theorem neverComesBack_of_pipeB {p : Params} {x : Block} {s : State} (h : HoldsRecord p ⟨.hybrid, pipeB p x⟩ s)
    (h3 : 3 ≤ p.dictCap) (hne : x ≠ []) (hx : fitsOut p x = true) (h7 : ¬ SevenBit x) : NeverComesBack x s := by
  obtain ⟨hs, rfl, htag, hpayload⟩ := h
  have ⟨hl, _⟩ := hs
  obtain ⟨hfails, hrle⟩ := pipelineBPayloadFailsAttemptA s.cfg x hl h3 hne
  obtain ⟨a, ha, hpos⟩ : ∃ a, dictDec s.cfg s.inBuf = .raised a ∧ a.pos = 1 := by
    rw [hpayload]
    exact hfails.elim (fun h => ⟨_, h, rfl⟩) fun h => ⟨_, h, rfl⟩
  have hrle : rleDec s.inBuf = dictEnc s.cfg x := by rw [hpayload, hrle]
  have hfit : ∀ n ∈ hybDecLengths s.cfg s.inBuf, atMost s.cfg.mMax n = true :=
    hybDecLengths_fit_of_raised ha (atMost_of_le hx (hpos ▸ List.length_pos_iff.mpr hne))
      (by rwa [hrle, fitsOut_congr (dictEnc_length _ _)])
  cases hb : dictDec s.cfg (rleDec s.inBuf) with
  | ok out =>
    obtain ⟨u, hu, -, hst, hout⟩ := exists_next_of_completesWith
      (completesWith_decompress htag (hybDec_completes hs (hybDec_of_raised_of_ok ha hb) hfit))
    obtain ⟨hlossless, -⟩ := dictLosslessIffSevenBit s.cfg x hl
    refine ⟨u, hu, .inr ⟨hst, fun e => h7 (hlossless.mp ?_)⟩⟩
    rw [← hrle, hb, ← hout, e]
  | raised b =>
    obtain ⟨cs, d, hu⟩ := failsWith_decompress htag (hybDec_fails hs (hybDec_of_raised_of_raised ha hb) hfit)
    exact ⟨_, hu, .inl ⟨rfl, rfl⟩⟩

/-! ### The statements -/

/-- R206: HYBRID's tag means that HYBRID won. -/
theorem select_hybrid_of_tag {hyb acc : Bool} {s t : State} (h : exec (.compress hyb acc) s = .next t)
    (hst : t.st = stDone) (htag : t.recStrategy = 4) :
    (select s.cfg hyb (gateOperand s) s.inBuf).strategy = .hybrid :=
  tagOf_injective ((recStrategy_of_compress_done h hst).symm.trans htag)

/-- R206: a record tagged HYBRID never comes back. -/
theorem neverComesBack_of_compress_done {hyb acc : Bool} {s t : State} (h : exec (.compress hyb acc) s = .next t)
    (hst : t.st = stDone) (h3 : 3 ≤ s.cfg.dictCap) (htag : t.recStrategy = 4) :
    NeverComesBack s.inBuf (loadBlock t.outBuf t) := by
  obtain ⟨hwinner, hlt, -, h7⟩ := select_hybrid (select_hybrid_of_tag h hst htag)
  have hrecord := holdsRecord_of_compress_done h hst
  rw [hwinner] at hrecord
  have hne : s.inBuf ≠ [] := List.length_pos_iff.mp (Nat.zero_lt_of_lt hlt)
  exact neverComesBack_of_pipeB hrecord h3 hne (fitsOut_of_compress_done h hst) h7

/-- R207, R285: a record with another tag comes back. -/
theorem comesBack_of_compress_done {hyb acc : Bool} {s t : State} (h : exec (.compress hyb acc) s = .next t)
    (hst : t.st = stDone) (htag : t.recStrategy ≠ 4) : ComesBack s.inBuf (loadBlock t.outBuf t) := by
  have hrecord := holdsRecord_of_compress_done h hst
  have hx := fitsOut_of_compress_done h hst
  rcases select_cases s.cfg hyb (gateOperand s) s.inBuf with ⟨e, -⟩ | ⟨e, -⟩ | ⟨e, -⟩ <;> rw [e] at hrecord
  · exact absurd hrecord.tag htag
  · exact comesBack_of_rle hrecord hx
  · exact comesBack_of_raw hrecord hx

/-- Settles O57: HYBRID wins by pipeline (b) on a block that is not 7-bit, and such a record never comes back. -/
theorem hybridRecordNeverDecompresses : Obligations.HybridRecordNeverDecompresses := by
  intro s t hyb acc h3 h hst htag
  obtain ⟨hwinner, -, -, h7⟩ := select_hybrid (select_hybrid_of_tag h hst htag)
  exact ⟨h7, by rw [outBuf_of_compress_done h hst, hwinner], neverComesBack_of_compress_done h hst h3 htag⟩

/-- R204: without HYBRID the winner is RAW or RLE. -/
theorem recStrategy_of_compress_done_plain {acc : Bool} {s t : State} (h : exec (.compress false acc) s = .next t)
    (hst : t.st = stDone) : t.recStrategy = 0 ∨ t.recStrategy = 1 := by
  rw [recStrategy_of_compress_done h hst]
  rcases select_cases s.cfg false (gateOperand s) s.inBuf with ⟨-, hno, -⟩ | ⟨e, -⟩ | ⟨e, -⟩
  · cases hno
  · exact .inr (by rw [e]; rfl)
  · exact .inl (by rw [e]; rfl)

/-- R201: RAW wins when no candidate is shorter than the block. -/
theorem select_eq_raw {p : Params} {hyb gate : Bool} {x : Block}
    (h : ∀ c ∈ candidates p hyb gate x, x.length ≤ c.payload.length) : select p hyb gate x = ⟨.raw, x⟩ :=
  (select_eq_raw_or_lt p hyb gate x).resolve_right (h _ (select_mem_candidates p hyb gate x)).not_gt

/-- Settles O58: a record comes back when its tag is not HYBRID's, and a HYBRID record never does; the other clauses say
when the tag is not HYBRID's. -/
theorem compressDecompressRoundTrip : Obligations.CompressDecompressRoundTrip := by
  intro s t hyb acc h hst
  have hback : t.recStrategy ≠ 4 → ComesBack s.inBuf (loadBlock t.outBuf t) := comesBack_of_compress_done h hst
  refine ⟨?plain, hback, fun h3 => ⟨fun hc htag => ?hybrid, hback⟩, fun hx => hback fun htag => ?sevenBit,
    fun hle => ?raw⟩
  case plain =>
    rintro rfl
    have htag := recStrategy_of_compress_done_plain h hst
    exact ⟨htag, hback (by omega)⟩
  case hybrid => exact not_comesBack_of_neverComesBack (neverComesBack_of_compress_done h hst h3 htag) hc
  case sevenBit =>
    obtain ⟨-, -, -, h7⟩ := select_hybrid (select_hybrid_of_tag h hst htag)
    exact h7 hx
  case raw =>
    rw [recStrategy_of_compress_done h hst, outBuf_of_compress_done h hst, select_eq_raw hle]
    exact ⟨rfl, rfl⟩

end Sys2Proof.Proofs
end

section
/-! The errors of the commands (R231 to R235): which errors a command can raise and when, and that a command which
answers a next state fails with the error it raises and completes when it raises none. -/

namespace Sys2Proof.Proofs

open Sys2Proof.Machine Sys2Proof.Safety

/-! ### The decoder of a command -/

/-- R214: command `i` runs the decoder of strategy `k`, by its name or by the tag of `DECOMPRESS`. -/
def RunsDecoder (i : Instr) (s : State) (k : Strategy) : Prop :=
  i = decoderCommand k ∨ (i = .decompress ∧ s.recStrategy = tagOf k)

theorem decoderCommand_ne_decompress (k : Strategy) : decoderCommand k ≠ .decompress := by
  cases k <;> nofun

theorem resultFn_decoderCommand (k : Strategy) (s : State) :
    resultFn (decoderCommand k) s = decoderResult s.cfg k := by
  cases k <;> rfl

theorem resultFn_of_runsDecoder {i : Instr} {s : State} {k : Strategy} (h : RunsDecoder i s k) :
    resultFn i s = decoderResult s.cfg k := by
  obtain rfl | ⟨rfl, hk⟩ := h
  · exact resultFn_decoderCommand k s
  · rw [resultFn_decompress_of_tag hk, resultFn_decoderCommand]

/-- R243 step 2: the tag of a command is unknown, or the command goes on to steps 3 and 4. -/
theorem not_unknownTag_iff {i : Instr} {t : Nat} :
    ¬ (i = .decompress ∧ 5 ≤ t) ↔ (i = .decompress → t ≤ 4) :=
  not_and.trans (imp_congr_right fun _ => by omega)

theorem knownTag_of_runsDecoder {i : Instr} {s : State} {k : Strategy} (h : RunsDecoder i s k) :
    i = .decompress → s.recStrategy ≤ 4 := by
  obtain rfl | ⟨-, hk⟩ := h
  · exact fun e => absurd e (decoderCommand_ne_decompress k)
  · exact fun _ => hk ▸ tagOf_le k

/-- R233, R234: only a command that runs a decoder can fail once its function runs. -/
theorem runsDecoder_of_resultFn_failed {i : Instr} {s : State} {x : Block} {k : ErrorKind} {a b : Cause}
    (hknown : i = .decompress → s.recStrategy ≤ 4) (h : resultFn i s x = .failed k a b) :
    ∃ d, RunsDecoder i s d := by
  cases i with
  | rawEnc | rleEnc | dictEnc | deltaEnc | hybEnc | compress hyb acc => cases bounded_eq_failed h
  | rawDec => exact ⟨.raw, .inl rfl⟩
  | rleDec => exact ⟨.rle, .inl rfl⟩
  | dictDec => exact ⟨.dict, .inl rfl⟩
  | deltaDec => exact ⟨.delta, .inl rfl⟩
  | hybDec => exact ⟨.hybrid, .inl rfl⟩
  | decompress =>
    obtain ⟨d, hd⟩ := exists_tagOf_eq (hknown rfl)
    exact ⟨d, .inr ⟨rfl, hd⟩⟩

/-! ### The errors a command raises -/

/-- R231 to R235: command `i` raises an error with its causes, the conditions in the order of R243. -/
inductive Raises (i : Instr) (s : State) : ErrorKind → Cause → Cause → Prop where
  | unknownStrategy (hi : i = .decompress) (ht : 5 ≤ s.recStrategy) :
      Raises i s .unknownStrategy (tagCause s.recStrategy) Cause.zero
  | invalidInput (hv : s.inValid = false) (hknown : ¬ (i = .decompress ∧ 5 ≤ s.recStrategy)) :
      Raises i s .invalidInput Cause.zero Cause.zero
  | invalidDictionaryIndex {c : Cause} (hv : s.inValid = true) (hdec : RunsDecoder i s .dict)
      (hc : dictDec s.cfg s.inBuf = .raised c) : Raises i s .invalidDictionaryIndex c Cause.zero
  | hybridDecodeFailure {a b : Cause} (hv : s.inValid = true) (hdec : RunsDecoder i s .hybrid)
      (ha : dictDec s.cfg s.inBuf = .raised a) (hb : dictDec s.cfg (rleDec s.inBuf) = .raised b) :
      Raises i s .hybridDecodeFailure a b

theorem hybDec_eq_failed_iff {p : Params} {y : Block} {a b : Cause} :
    hybDec p y = .failed a b ↔ dictDec p y = .raised a ∧ dictDec p (rleDec y) = .raised b := by
  refine ⟨fun h => ?_, fun ⟨ha, hb⟩ => hybDec_of_raised_of_raised ha hb⟩
  cases ha : dictDec p y with
  | ok t => rw [hybDec_of_ok ha] at h; cases h
  | raised a' =>
    cases hb : dictDec p (rleDec y) with
    | ok out => rw [hybDec_of_raised_of_ok ha hb] at h; cases h
    | raised b' => rw [hybDec_of_raised_of_raised ha hb] at h; cases h; exact ⟨rfl, rfl⟩

/-- R243 step 4: a function that fails raises the error of its decoder. -/
theorem raises_of_resultFn_failed {i : Instr} {s : State} {k : ErrorKind} {a b : Cause} (hv : s.inValid = true)
    (hknown : i = .decompress → s.recStrategy ≤ 4) (h : resultFn i s s.inBuf = .failed k a b) : Raises i s k a b := by
  obtain ⟨d, hd⟩ := runsDecoder_of_resultFn_failed hknown h
  rw [resultFn_of_runsDecoder hd] at h
  cases d with
  | raw | rle | delta => cases bounded_eq_failed h
  | dict =>
    have hfail := bounded_eq_failed h
    split at hfail <;> cases hfail
    next hc => exact .invalidDictionaryIndex hv hd hc
  | hybrid =>
    have hfail := bounded_eq_failed h
    split at hfail <;> cases hfail
    next hab =>
      obtain ⟨ha, hb⟩ := hybDec_eq_failed_iff.mp hab
      exact .hybridDecodeFailure hv hd ha hb

/-! ### How a command ends -/

/-- R232: without a block a command fails with `InvalidInput`, `DECOMPRESS` only when its tag is known. -/
theorem exec_unloaded {i : Instr} {s : State} (hl : Params.legal s.cfg = true) (hv : s.inValid = false)
    (hknown : i = .decompress → s.recStrategy ≤ 4) :
    exec i s = .next (errorEntry .invalidInput Cause.zero Cause.zero s) := by
  rw [exec_eq_runCommand hknown, runCommand_unloaded hl hv]

/-- R64, R240: a command whose bounded function fails, and which is not refused, fails with that error. -/
theorem failsWith_of_bounded_failed {i : Instr} {s t : State} {lengths : List Nat} {k : ErrorKind} {a b : Cause}
    (h : exec i s = .next t) (hv : s.inValid = true) (hknown : i = .decompress → s.recStrategy ≤ 4)
    (hf : resultFn i s s.inBuf = bounded s.cfg lengths (.failed k a b)) : FailsWith i s (errorCode k) a b := by
  obtain ⟨hl, -⟩ := exec_next h
  refine ⟨(discardCallScoped s).callScoped, (discardCallScoped s).draws, ?_⟩
  rw [exec_eq_runCommand hknown, runCommand_loaded hl hv, hf] at h ⊢
  rcases bounded_eq s.cfg lengths (.failed k a b) with ⟨e, -⟩ | ⟨e, -⟩ <;> rw [e] at h ⊢
  · rfl
  · cases h

/-- R240: a command that answers a next state fails with the error it raises. -/
theorem failsWith_of_raises {i : Instr} {s t : State} {k : ErrorKind} {a b : Cause} (h : exec i s = .next t)
    (hr : Raises i s k a b) : FailsWith i s (errorCode k) a b := by
  obtain ⟨hl, -⟩ := exec_next h
  cases hr with
  | unknownStrategy hi ht =>
    subst hi
    exact ⟨s.callScoped, s.draws, exec_decompress_unknown hl ht⟩
  | invalidInput hv hknown => exact ⟨s.callScoped, s.draws, exec_unloaded hl hv (not_unknownTag_iff.mp hknown)⟩
  | invalidDictionaryIndex hv hdec hc =>
    refine failsWith_of_bounded_failed (lengths := [a.pos]) h hv (knownTag_of_runsDecoder hdec) ?_
    rw [resultFn_of_runsDecoder hdec]
    exact dictDecResult_of_raised hc
  | hybridDecodeFailure hv hdec ha hb =>
    refine failsWith_of_bounded_failed (lengths := hybDecLengths s.cfg s.inBuf) h hv (knownTag_of_runsDecoder hdec) ?_
    rw [resultFn_of_runsDecoder hdec, decoderResult, hybDecResult, hybDec_of_raised_of_raised ha hb]

/-- R242: a command completes, `COMPRESS` with a record and every other command with an output alone. -/
def Completes (i : Instr) (s : State) : Prop :=
  (isCompress i = false ∧ ∃ out, CompletesWith i s out) ∨
    (isCompress i = true ∧ ∃ tag payload, CompletesWithRecord i s tag payload)

/-- R240, R242: a command that answers a next state raises an error or completes. -/
theorem exec_next_ends {i : Instr} {s t : State} (h : exec i s = .next t) :
    (∃ k a b, Raises i s k a b) ∨ Completes i s := by
  obtain ⟨hl, ⟨hi, ht, -⟩ | ⟨hknown, hv, -⟩ | ⟨hknown, hv, hf⟩⟩ := exec_next h
  · exact .inl ⟨_, _, _, .unknownStrategy hi ht⟩
  · exact .inl ⟨_, _, _, .invalidInput hv (not_unknownTag_iff.mpr hknown)⟩
  · rcases finish_next hf with ⟨out, hr, rfl⟩ | ⟨k, orig, payload, hr, rfl⟩ | ⟨k, a, b, hr, -⟩
    · exact .inr (.inl ⟨isCompress_of_resultFn_eq_output hr, out, _, _, h⟩)
    · obtain ⟨rfl, -⟩ : orig = s.inBuf.length ∧ _ := by simpa [hr, ResultOk] using resultFn_ok hl i s.inBuf
      exact .inr (.inr ⟨isCompress_of_resultFn_eq_record hr, tagOf k, payload, _, _, h⟩)
    · exact .inl ⟨k, a, b, raises_of_resultFn_failed hv hknown hr⟩

/-! ### The error code and the causes -/

theorem errorCode_injective : Function.Injective errorCode := fun j k h => by
  cases j <;> cases k <;> simp [errorCode] at h ⊢

/-- R240: the error code and the causes of a command that fails. -/
theorem fields_of_failsWith {i : Instr} {s t : State} {k : Byte} {a b : Cause} (h : exec i s = .next t)
    (hf : FailsWith i s k a b) : t.err = k ∧ t.causeA = a ∧ t.causeB = b := by
  obtain ⟨cs, d, e⟩ := hf
  rw [h] at e
  cases e
  exact ⟨rfl, rfl, rfl⟩

/-- R242: the error code and the causes of a command that completes. -/
theorem fields_of_completes {i : Instr} {s t : State} (h : exec i s = .next t) (hc : Completes i s) :
    t.err = 0 ∧ t.causeA = Cause.zero ∧ t.causeB = Cause.zero := by
  obtain ⟨-, out, cs, d, e⟩ | ⟨-, tag, payload, cs, d, e⟩ := hc <;> rw [h] at e <;> cases e
  · exact ⟨rfl, rfl, rfl⟩
  · exact ⟨rfl, rfl, rfl⟩

/-- R231, R241: the error code and the causes that a command leaves are those of the error it raises. -/
theorem raises_of_err {i : Instr} {s t : State} {k : ErrorKind} (h : exec i s = .next t) (he : t.err = errorCode k) :
    Raises i s k t.causeA t.causeB := by
  rcases exec_next_ends h with ⟨k', a, b, hr⟩ | hc
  · obtain ⟨hcode, rfl, rfl⟩ := fields_of_failsWith h (failsWith_of_raises h hr)
    obtain rfl : k = k' := errorCode_injective (he.symm.trans hcode)
    exact hr
  · obtain ⟨hzero, -⟩ := fields_of_completes h hc
    exact absurd (he.symm.trans hzero) (errorCode_ne_zero k)

/-- R231: a command ends in an error exactly when it raises it. -/
theorem err_eq_errorCode_iff {i : Instr} {s t : State} {k : ErrorKind} (h : exec i s = .next t) :
    t.err = errorCode k ↔ ∃ a b, Raises i s k a b :=
  ⟨fun he => ⟨_, _, raises_of_err h he⟩,
    fun ⟨_, _, hr⟩ => (fields_of_failsWith h (failsWith_of_raises h hr)).1⟩

/-- R242: a command that raises nothing completes. -/
theorem completes_of_err_eq_zero {i : Instr} {s t : State} (h : exec i s = .next t) (he : t.err = 0) :
    Completes i s := by
  refine (exec_next_ends h).resolve_left fun ⟨k, a, b, hr⟩ => errorCode_ne_zero k ?_
  rw [← he, (err_eq_errorCode_iff h).mpr ⟨a, b, hr⟩]

/-- R240: a command that does not complete fails with the error it raises. -/
theorem exists_raises_of_err_ne_zero {i : Instr} {s t : State} (h : exec i s = .next t) (he : t.err ≠ 0) :
    ∃ k a b, Raises i s k a b :=
  (exec_next_ends h).resolve_right fun hc => he (fields_of_completes h hc).1

/-! ### When each error is raised -/

theorem raises_unknownStrategy_iff {i : Instr} {s : State} :
    (∃ a b, Raises i s .unknownStrategy a b) ↔ i = .decompress ∧ 5 ≤ s.recStrategy :=
  ⟨fun ⟨_, _, .unknownStrategy hi ht⟩ => ⟨hi, ht⟩, fun ⟨hi, ht⟩ => ⟨_, _, .unknownStrategy hi ht⟩⟩

theorem raises_invalidInput_iff {i : Instr} {s : State} :
    (∃ a b, Raises i s .invalidInput a b) ↔ s.inValid = false ∧ ¬ (i = .decompress ∧ 5 ≤ s.recStrategy) :=
  ⟨fun ⟨_, _, .invalidInput hv hknown⟩ => ⟨hv, hknown⟩, fun ⟨hv, hknown⟩ => ⟨_, _, .invalidInput hv hknown⟩⟩

theorem raises_invalidDictionaryIndex_iff {i : Instr} {s : State} :
    (∃ a b, Raises i s .invalidDictionaryIndex a b) ↔ s.inValid = true ∧ RunsDecoder i s .dict ∧
      ∃ c, dictDec s.cfg s.inBuf = .raised c :=
  ⟨fun ⟨_, _, .invalidDictionaryIndex hv hdec hc⟩ => ⟨hv, hdec, _, hc⟩,
    fun ⟨hv, hdec, _, hc⟩ => ⟨_, _, .invalidDictionaryIndex hv hdec hc⟩⟩

theorem raises_hybridDecodeFailure_iff {i : Instr} {s : State} :
    (∃ a b, Raises i s .hybridDecodeFailure a b) ↔ s.inValid = true ∧ RunsDecoder i s .hybrid ∧
      (∃ a, dictDec s.cfg s.inBuf = .raised a) ∧ ∃ b, dictDec s.cfg (rleDec s.inBuf) = .raised b :=
  ⟨fun ⟨_, _, .hybridDecodeFailure hv hdec ha hb⟩ => ⟨hv, hdec, ⟨_, ha⟩, _, hb⟩,
    fun ⟨hv, hdec, ⟨_, ha⟩, _, hb⟩ => ⟨_, _, .hybridDecodeFailure hv hdec ha hb⟩⟩

/-! ### The statements about commands -/

/-- Settles O13: `UnknownStrategy` is the first check of `DECOMPRESS` and raised nowhere else, and the tag of a record is
that of its winner. -/
theorem unknownTagRaisesUnknownStrategy : Obligations.UnknownTagRaisesUnknownStrategy := by
  refine ⟨fun s hl ht => exec_decompress_unknown hl ht,
    fun i s t h he => raises_unknownStrategy_iff.mp ((err_eq_errorCode_iff (k := .unknownStrategy) h).mp he),
    fun hyb acc s t h hst => ?_⟩
  rw [recStrategy_of_compress_done h hst]
  exact tagOf_le _

/-- R231: the codes that a command can leave. -/
theorem err_of_exec {i : Instr} {s t : State} (h : exec i s = .next t) :
    t.err = 0 ∨ t.err = 1 ∨ t.err = 2 ∨ t.err = 3 ∨ t.err = 4 := by
  rcases exec_next_ends h with ⟨k, a, b, hr⟩ | hc
  · have he := (err_eq_errorCode_iff h).mpr ⟨a, b, hr⟩
    cases hr with
    | unknownStrategy => exact .inr (.inr (.inr (.inr he)))
    | invalidInput => exact .inr (.inl he)
    | invalidDictionaryIndex => exact .inr (.inr (.inl he))
    | hybridDecodeFailure => exact .inr (.inr (.inr (.inl he)))
  · exact .inl (fields_of_completes h hc).1

/-- Settles O14: a command leaves the code of the error it raises, and each error has its condition. -/
theorem errorsHaveTheirCauses : Obligations.ErrorsHaveTheirCauses := fun _ _ _ h =>
  ⟨err_of_exec h,
    (err_eq_errorCode_iff (k := .invalidInput) h).trans raises_invalidInput_iff,
    (err_eq_errorCode_iff (k := .invalidDictionaryIndex) h).trans raises_invalidDictionaryIndex_iff,
    (err_eq_errorCode_iff (k := .hybridDecodeFailure) h).trans raises_hybridDecodeFailure_iff,
    (err_eq_errorCode_iff (k := .unknownStrategy) h).trans raises_unknownStrategy_iff⟩

/-- Settles O12: with a known tag the first check that can fail is that of the block. -/
theorem noBlockRaisesInvalidInput : Obligations.NoBlockRaisesInvalidInput :=
  fun _ _ hl hv hknown => exec_unloaded hl hv hknown

end Sys2Proof.Proofs
end

section
/-! The errors of an issued word (R240 to R243): the checks in their order, what an error and a success leave in the
state, and the cause registers. -/

namespace Sys2Proof.Proofs

open Sys2Proof.Machine Sys2Proof.Safety

/-- R27, R60: the state in which the word `c`, taken from the queue, is executed. -/
def issued (c : Byte) (rest : List HostMove) (s : State) : State := writeCmd c (withProgram rest s)

/-- R45, R236: a step that issues a word runs its command, or raises `IllegalCommand`. -/
theorem step_issue_next {s t : State} {c : Byte} {rest : List HostMove} (hp : s.program = .issue c :: rest)
    (h : step s = .next t) :
    (∃ i, decode c = .command i ∧ exec i (issued c rest s) = .next t) ∨
      (∃ why, decode c = .illegal why ∧ t = illegalWord c (issued c rest s)) := by
  cases hl : Params.legal s.cfg with
  | false => rw [step_of_illegal hl hp] at h; cases h
  | true =>
    rw [step_of_legal hl hp] at h
    change hostIssue c (withProgram rest s) = .next t at h
    cases hd : decode c with
    | command i => rw [hostIssue_of_command _ hd] at h; exact .inl ⟨i, rfl, h⟩
    | illegal why => rw [hostIssue_of_illegal _ hd] at h; cases h; exact .inr ⟨why, rfl, rfl⟩

/-- R240: `COMPRESS` runs no decoder, and so raises `InvalidInput` alone. -/
theorem eq_invalidInput_of_compress_raises {hyb acc : Bool} {s : State} {k : ErrorKind} {a b : Cause}
    (h : Raises (.compress hyb acc) s k a b) : k = .invalidInput := by
  have hno : ∀ d, ¬ RunsDecoder (.compress hyb acc) s d := by
    rintro d (hd | ⟨hd, -⟩)
    · cases d <;> cases hd
    · cases hd
  cases h with
  | unknownStrategy hi => cases hi
  | invalidInput => rfl
  | invalidDictionaryIndex hv hdec => exact absurd hdec (hno _)
  | hybridDecodeFailure hv hdec => exact absurd hdec (hno _)

/-- Settles O15: an illegal word enters the error from the issued state, and a command fails with the error it raises,
which for `COMPRESS` is `InvalidInput`. -/
theorem errorEntryChangesOnlyWhatItNames : Obligations.ErrorEntryChangesOnlyWhatItNames := by
  intro s t c rest hp h he
  rcases step_issue_next hp h with ⟨i, hd, hx⟩ | ⟨why, hd, rfl⟩
  · obtain ⟨k, a, b, hr⟩ := exists_raises_of_err_ne_zero hx he
    have herr := (err_eq_errorCode_iff hx).mpr ⟨a, b, hr⟩
    refine ⟨?_, fun hyb acc hc => ?_⟩
    · obtain ⟨cs, d, e⟩ := failsWith_of_raises hx hr
      rw [hx] at e
      cases e
      rfl
    · obtain rfl : i = .compress hyb acc := DecodeResult.command.inj (hd.symm.trans hc)
      rw [herr, eq_invalidInput_of_compress_raises hr]
      rfl
  · exact ⟨rfl, fun hyb acc hc => nomatch hd.symm.trans hc⟩

/-- Settles O16: an illegal word is an error, and a command that raises nothing completes; only `COMPRESS` does so with
a record. -/
theorem successExitChangesOnlyWhatItNames : Obligations.SuccessExitChangesOnlyWhatItNames := by
  intro s t c rest hp h he
  rcases step_issue_next hp h with ⟨i, hd, hx⟩ | ⟨why, -, rfl⟩
  · obtain ⟨-, out, cs, d, e⟩ | ⟨hi, tag, payload, cs, d, e⟩ := completes_of_err_eq_zero hx he <;>
      rw [hx] at e <;> cases e
    · exact ⟨rfl, fun _ => ⟨rfl, rfl, rfl⟩⟩
    · refine ⟨rfl, fun hno => ?_⟩
      cases i with
      | compress hyb acc => exact absurd ⟨hyb, acc, hd⟩ hno
      | _ => cases hi
  · exact absurd he (errorCode_ne_zero .illegalCommand)

/-- R233, R241: the cause of a dictionary decode that raises is that of its first failing code. -/
theorem indexFailsAt_of_raised {p : Params} {y : Block} {c : Cause} (h : dictDec p y = .raised c) :
    IndexFailsAt p y c :=
  dictDecMachine_eq_raised_iff.mp (dictDec_eq_raised_iff.mp h)

/-- R241: the cause registers that the table gives each error of a command; `IllegalCommand` is none. -/
def CausesAsTabled (s : State) : ErrorKind → Cause → Cause → Prop
  | .invalidInput, a, b => a = Cause.zero ∧ b = Cause.zero
  | .invalidDictionaryIndex, a, b => IndexFailsAt s.cfg s.inBuf a ∧ b = Cause.zero
  | .hybridDecodeFailure, a, b => IndexFailsAt s.cfg s.inBuf a ∧ IndexFailsAt s.cfg (rleDec s.inBuf) b
  | .unknownStrategy, a, b => a = tagCause s.recStrategy ∧ b = Cause.zero
  | .illegalCommand, _, _ => False

theorem causesAsTabled_of_raises {i : Instr} {s : State} {k : ErrorKind} {a b : Cause} (h : Raises i s k a b) :
    CausesAsTabled s k a b := by
  cases h with
  | unknownStrategy | invalidInput => exact ⟨rfl, rfl⟩
  | invalidDictionaryIndex hv hdec hc => exact ⟨indexFailsAt_of_raised hc, rfl⟩
  | hybridDecodeFailure hv hdec ha hb => exact ⟨indexFailsAt_of_raised ha, indexFailsAt_of_raised hb⟩

/-- R241: the causes that a command leaves are those of its error code. -/
theorem causesAsTabled_of_err {i : Instr} {s t : State} (k : ErrorKind) (h : exec i s = .next t)
    (he : t.err = errorCode k) : CausesAsTabled s k t.causeA t.causeB :=
  causesAsTabled_of_raises (raises_of_err h he)

/-- Settles O17: an illegal word leaves its own cause; a command leaves the causes of the error it raises, and none when
it completes. -/
theorem causeRegistersByError : Obligations.CauseRegistersByError := by
  intro s t c rest hp h
  rcases step_issue_next hp h with ⟨i, hd, hx⟩ | ⟨why, hd, rfl⟩
  · have hcauses := fun k => causesAsTabled_of_err k hx
    refine ⟨fun he => (fields_of_completes hx (completes_of_err_eq_zero hx he)).2, hcauses .invalidInput,
      hcauses .invalidDictionaryIndex, hcauses .hybridDecodeFailure, hcauses .unknownStrategy,
      fun he => (hcauses .illegalCommand he).elim, ?_⟩
    rcases err_of_exec hx with e | e | e | e | e <;> rw [e] <;> decide
  · have hcode : (errorCode .illegalCommand).toNat ≤ 5 := by decide
    exact ⟨nofun, nofun, nofun, nofun, nofun, fun _ => ⟨rfl, rfl⟩, hcode⟩

/-- Settles O18: the first check is that of the word, and the rest are those of its command. -/
theorem checksAreMadeInOrder : Obligations.ChecksAreMadeInOrder := by
  intro s c rest hl hp
  obtain ⟨-, -, hillegal⟩ := illegalWordRaisesIllegalCommand
  refine ⟨fun why hd => ⟨_, hillegal s c rest why hl hp hd, rfl⟩, fun i hd => ?_⟩
  rw [stepRunsIssuedCommand s c rest i hl hp hd]
  refine ⟨?unknown, fun hknown hv => ?unloaded, fun hknown hv t hx => ?loaded⟩
  case unknown =>
    rintro rfl ht
    exact ⟨_, exec_decompress_unknown hl ht, rfl⟩
  case unloaded => exact ⟨_, exec_unloaded hl hv (not_unknownTag_iff.mp hknown), rfl⟩
  case loaded =>
    obtain ⟨hcodes, hinput, -, -, htag⟩ := errorsHaveTheirCauses i _ t hx
    have hne1 : t.err ≠ 1 := fun e => by
      obtain ⟨hno, -⟩ := hinput.mp e
      cases hv.symm.trans hno
    have hne4 : t.err ≠ 4 := fun e => hknown (htag.mp e)
    tauto

end Sys2Proof.Proofs
end

section
/-! The first commands after reset (R263): a queue run from reset is its moves in order, so that each example is the
command of its last word in the state that the moves before it leave. -/

namespace Sys2Proof.Proofs

open Sys2Proof.Machine Sys2Proof.Safety

/-! ### Runs from reset -/

/-- R8: a block built with the default parameters is a legal one. -/
theorem legal_reset : Params.legal State.reset.cfg = true := rfl

/-- R60: the first move answered, the others act on the state it leaves. -/
theorem performAll_cons_of_next {m : HostMove} {s t : State} (ms : List HostMove) (h : perform m s = .next t) :
    performAll (m :: ms) s = performAll ms t := by
  simp [performAll, h]

/-- R60: the composition of one move is its effect. -/
@[simp] theorem performAll_singleton (m : HostMove) (s : State) : performAll [m] s = perform m s := by
  cases h : perform m s <;> simp [performAll, h]

/-- R27, R45: on a legal block the issue of a word that decodes is its command. -/
theorem perform_issue_of_command {c : Byte} {i : Instr} {s : State} (hl : Params.legal s.cfg = true)
    (hd : decode c = .command i) : perform (.issue c) s = exec i (writeCmd c s) :=
  (perform_of_legal hl).trans (hostIssue_of_command s hd)

/-- R60: a queue run from reset is the composition of its moves. -/
theorem run_reset (ms : List HostMove) :
    Host.Core.run core ms.length { State.reset with program := ms } = performAll ms State.reset := by
  have h := programIsCompositionOfMoves ms [] State.reset
  rwa [List.append_nil] at h

/-- R263: a command issued first after reset. -/
theorem run_reset_issue {c : Byte} {i : Instr} (hd : decode c = .command i) :
    Host.Core.run core 1 { State.reset with program := [.issue c] } = exec i (writeCmd c State.reset) := by
  rw [← perform_issue_of_command legal_reset hd, ← performAll_singleton]
  exact run_reset [.issue c]

/-- R263: a command issued after one other move from reset. -/
theorem run_reset_move_issue {m : HostMove} {c : Byte} {i : Instr} {t : State}
    (hm : performLegal m State.reset = .next t) (hl : Params.legal t.cfg = true) (hd : decode c = .command i) :
    Host.Core.run core 2 { State.reset with program := [m, .issue c] } = exec i (writeCmd c t) := by
  rw [← perform_issue_of_command hl hd, ← performAll_singleton,
    ← performAll_cons_of_next [.issue c] ((perform_of_legal legal_reset).trans hm)]
  exact run_reset [m, .issue c]

/-! ### The empty block -/

/-- R201: on the empty block RAW wins, nothing being shorter. -/
theorem select_nil (p : Params) (hyb gate : Bool) : select p hyb gate [] = ⟨.raw, []⟩ :=
  select_eq_raw fun c _ => Nat.zero_le c.payload.length

/-- R198, R202: `COMPRESS` of the empty block completes with the empty RAW record, whatever `M_MAX` is. -/
theorem compress_empty_completes {s : State} (hs : Ready s) (hx : s.inBuf = []) (hyb acc : Bool) :
    CompletesWithRecord (.compress hyb acc) s (tagOf .raw) [] := by
  obtain ⟨-, hrecord, -⟩ := compressWritesTheRecord
  have hfit := fitsOut_nil s.cfg
  have h := hrecord s hyb acc hs (by rwa [hx]) (by rwa [hx]) (fun _ => by rwa [hx])
  rwa [hx, select_nil] at h

/-! ### The statement -/

/-- Settles O8: without a block `RLE.ENC` and `DECOMPRESS` fail on the missing block, the reset tag being RAW's; tag 9
fails before that check; and a loaded empty block is one that `COMPRESS` completes on. -/
theorem firstCommandsAfterReset : Obligations.FirstCommandsAfterReset := by
  refine ⟨?rleEnc, ?decompress, ?unknownTag, fun hyb acc => ?compressEmpty⟩
  case rleEnc =>
    exact ⟨_, (run_reset_issue (decode_encode .rleEnc)).trans (exec_unloaded legal_reset rfl nofun), rfl, rfl⟩
  case decompress =>
    have hraw : State.reset.recStrategy ≤ 4 := Nat.zero_le 4
    exact ⟨_, (run_reset_issue (decode_encode .decompress)).trans (exec_unloaded legal_reset rfl fun _ => hraw),
      rfl, rfl⟩
  case unknownTag =>
    have htag : 5 ≤ (setTag 9 State.reset).recStrategy := by decide
    exact ⟨_, (run_reset_move_issue (m := .setTag 9) rfl legal_reset (decode_encode .decompress)).trans
      (exec_decompress_unknown legal_reset htag), rfl, rfl⟩
  case compressEmpty =>
    have hs : Ready (writeCmd (encode (.compress hyb acc)) (loadBlock [] State.reset)) := ⟨legal_reset, rfl⟩
    obtain ⟨cs, d, h⟩ := compress_empty_completes hs rfl hyb acc
    exact ⟨_, (run_reset_move_issue (m := .load []) (hostLoad_of_fits rfl) legal_reset (decode_encode _)).trans h,
      rfl, rfl, rfl, rfl, rfl⟩

end Sys2Proof.Proofs
end
